-- ==== Sys2Proof/Word.lean ====
section
/-!
DEFINITION. The word types of `hash_compression_core` (00_scope.md R6): 32-bit unsigned words, bytes, 64-bit system
addresses, and the 4-lane row of R9.
-/

namespace Sys2Proof

/-- The word width W of R6: 32 bits, unsigned. -/
abbrev Word := BitVec 32

/-- One byte of a block, a digest or system memory. -/
abbrev Byte := BitVec 8

/-- A system-memory address (R65): 64 bits, every calculation modulo 2^64. -/
abbrev Addr := BitVec 64

/-- A row of four words, `row[c]` is lane c (R9). -/
abbrev Row := Vector Word 4

/-- A chaining value: "eight 32-bit words" (R32). -/
abbrev Cv := Vector Word 8

/-- The sixteen message words of a block (R33, R37), or the sixteen words of an extended result (R34). -/
abbrev Words16 := Vector Word 16

/-- The 64 bytes of a block (R6, R33). -/
abbrev Block := Vector Byte 64

end Sys2Proof
end

