-- ==== Sys2Proof/Syntax.lean ====
section
/-!
DEFINITION. The three commands of 30_encoding.md R90 and R92, one constructor per row of spec/opcode_table.json. The operands
that a command word does not carry (chaining value, block, counter, pointers) are registers of State, latched at acceptance.
-/

namespace Sys2Proof

/-- The core's instructions (R90: "exactly three commands"). Every field has exactly the width its encoding gives it (R91),
and every value of a flags byte is legal (R98: "opaque to this core"). -/
inductive Instr where
  /-- COMPRESS (OP 0b00, R224): truncated-mode compression, in place. -/
  | compress (flags : Byte)
  /-- COMPRESS_XOF (OP 0b01, R230): extended-output compression. -/
  | compressXof (flags : Byte)
  /-- HASH_MANY (OP 0b10, R260): the batch block hasher. -/
  | hashMany (inc : Bool) (flags flagsStart flagsEnd : Byte)
  deriving DecidableEq, Repr

/-- The name of an instruction's row in spec/opcode_table.json. -/
def Instr.mnemonic : Instr → String
  | .compress _ => "COMPRESS"
  | .compressXof _ => "COMPRESS_XOF"
  | .hashMany _ _ _ _ => "HASH_MANY"

end Sys2Proof
end

