-- ==== Sys2Proof/WellFormed.lean ====
section
/-!
DEFINITION. Which command words are encodings (30_encoding.md R91, R98) and which terms are instructions. The checks that can
fail are on the 32-bit word: a field of a term cannot be out of range, since each has the width of its encoding. The table of
spec/opcode_table.json stands here as rows of mask and match, independent of the decoder, so that the two can be compared.
-/

namespace Sys2Proof

/-- One row of spec/opcode_table.json: a word is the row's when its masked bits equal `match`. -/
structure OpcodeRow where
  mnemonic : String
  mask : Word
  pattern : Word
  deriving DecidableEq, Repr

/-- The opcode table: mnemonic, mask and match, as spec/opcode_table.json gives them. -/
def opcodeTable : List OpcodeRow :=
  [ { mnemonic := "COMPRESS", mask := 0xFFFF00FF#32, pattern := 0x00000000#32 },
    { mnemonic := "COMPRESS_XOF", mask := 0xFFFF00FF#32, pattern := 0x00000001#32 },
    { mnemonic := "HASH_MANY", mask := 0x000000FB#32, pattern := 0x00000002#32 } ]

/-- The word `d` is an encoding of the row. -/
def OpcodeRow.covers (r : OpcodeRow) (d : Word) : Bool := (d &&& r.mask) == r.pattern

/-- R98, first point: OP = 0b11 is reserved. -/
def wordOpLegal (d : Word) : Bool := d.extractLsb' 0 2 != 3#2

/-- R98, second point: RSV must be zero for every OP. -/
def wordRsvZero (d : Word) : Bool := d.extractLsb' 3 5 == 0#5

/-- R98, third point: for OP 0 and 1, INC, FLAGS_START and FLAGS_END must be zero. -/
def wordBatchFieldsZero (d : Word) : Bool :=
  !(d.extractLsb' 0 2 == 0#2 || d.extractLsb' 0 2 == 1#2) ||
    (d.extractLsb' 2 1 == 0#1 && d.extractLsb' 16 8 == 0#8 && d.extractLsb' 24 8 == 0#8)

/-- A well-formed command word: none of R98's reserved encodings. -/
def wordWellFormed (d : Word) : Bool := wordOpLegal d && wordRsvZero d && wordBatchFieldsZero d

/-- Every term is an instruction: the constructors' fields have exactly the widths of R91, and R98 makes every 8-bit value of
FLAGS, FLAGS_START and FLAGS_END legal. -/
def Instr.wellFormed : Instr → Bool
  | .compress _ => true
  | .compressXof _ => true
  | .hashMany _ _ _ _ => true

end Sys2Proof
end

