-- ==== Sys2Proof/Decode.lean ====
section
/-!
DEFINITION. The decoder of the command word (30_encoding.md R91, R92, R98), total on any 32-bit word, rejecting by name; then
the encoder (R93), written from the same field table.
-/

namespace Sys2Proof

/-- Why a word is no command: the two checks of R302 that look at the word alone, in R302's order. -/
inductive DecodeError where
  /-- R302 check 1: OP = 0b11. -/
  | illegalOp
  /-- R302 check 2: RSV != 0, or a HASH_MANY field non-zero under OP 0 or 1. -/
  | reservedField
  deriving DecidableEq, Repr

/-- What the decoder answers. -/
inductive Decoded where
  | command (i : Instr)
  | rejected (e : DecodeError)
  deriving DecidableEq, Repr

/-- OP = d[1:0] (R91). -/
def fieldOp (d : Word) : BitVec 2 := d.extractLsb' 0 2
/-- INC = d[2] (R91). -/
def fieldInc (d : Word) : BitVec 1 := d.extractLsb' 2 1
/-- RSV = d[7:3] (R91). -/
def fieldRsv (d : Word) : BitVec 5 := d.extractLsb' 3 5
/-- FLAGS = d[15:8] (R91). -/
def fieldFlags (d : Word) : Byte := d.extractLsb' 8 8
/-- FLAGS_START = d[23:16] (R91). -/
def fieldFlagsStart (d : Word) : Byte := d.extractLsb' 16 8
/-- FLAGS_END = d[31:24] (R91). -/
def fieldFlagsEnd (d : Word) : Byte := d.extractLsb' 24 8

/-- The three HASH_MANY fields are zero, as OP 0 and 1 require (R98). -/
def batchFieldsZero (d : Word) : Bool :=
  fieldInc d == 0#1 && fieldFlagsStart d == 0#8 && fieldFlagsEnd d == 0#8

/-- The decoder: R92's OP map under R98's reserved encodings, in the priority of R302 and R305 (ILLEGAL_OP first). -/
def decode (d : Word) : Decoded :=
  if fieldOp d = 3#2 then .rejected .illegalOp
  else if fieldRsv d ≠ 0#5 then .rejected .reservedField
  else if fieldOp d = 2#2 then
    .command (.hashMany (fieldInc d == 1#1) (fieldFlags d) (fieldFlagsStart d) (fieldFlagsEnd d))
  else if batchFieldsZero d = false then .rejected .reservedField
  else if fieldOp d = 0#2 then .command (.compress (fieldFlags d))
  else .command (.compressXof (fieldFlags d))

/-- The encoding function of R93: `enc(op, inc, flags, fs, fe)`. -/
def enc (op : BitVec 2) (inc : Bool) (flags fs fe : Byte) : Word :=
  (fe.setWidth 32 <<< 24) ||| (fs.setWidth 32 <<< 16) ||| (flags.setWidth 32 <<< 8) |||
    ((BitVec.ofBool inc).setWidth 32 <<< 2) ||| op.setWidth 32

/-- The word of an instruction: the valid patterns of R93. -/
def encode : Instr → Word
  | .compress flags => enc 0#2 false flags 0#8 0#8
  | .compressXof flags => enc 1#2 false flags 0#8 0#8
  | .hashMany inc flags flagsStart flagsEnd => enc 2#2 inc flags flagsStart flagsEnd

/-- The instruction the decoder reads from an opcode-table word `w` of `nbits` bits (the bits above are zero). A command is one
32-bit register write (R90), so there is no byte layout to undo: bit k of `w` is bit k of the word. -/
def decodeTableWord (nbits w : Nat) : Option Instr :=
  match decode (BitVec.ofNat 32 (w % 2 ^ nbits)) with
  | .command i => some i
  | .rejected _ => none

end Sys2Proof
end

