-- ==== Sys2Proof/Config.lean ====
section
/-!
DEFINITION. What the spec leaves to the platform and no rule fixes. The platform's admission predicate `MemAdmit` (R66) is
plain data in State (field `refused`, notes/assumptions/5.md), so that every claim is made for every platform and a run can be
written out. What a byte of system memory holds before anyone has written it is a free value and stands here.
-/

namespace Sys2Proof

/-- What an admitted byte of system memory holds at an address nothing has written (20_memory.md R66: "An admitted read
returns a byte"; no rule says which). No body: no proof can see a value of it. It is a function of the address alone, since
reads are "free of side effects and idempotent" (R72). DESIGN CHOICE, notes/assumptions/4.md. -/
opaque Config.powerOnByte : Addr → Byte

end Sys2Proof
end

