-- ==== Sys2Proof/Machine/State.lean ====
section
/-!
DEFINITION. The state of the machine (10_state.md), as plain data: the register window with the model-only validity bits, the
internal state no register exposes, system memory with the platform's admission map, and the pending transactions of the host.
Also the reasons a step can stop, and the state right after reset (70_reset_and_hazards.md R340).
-/

namespace Sys2Proof.Machine

/-- STATUS.CAUSE: the cause of the last rejection or abort (R304). Codes 6 to 15 are "never produced", so they have no name. -/
inductive Cause where
  | none
  | illegalOp
  | reservedField
  | badBlockLen
  | badBlocks
  | memError
  deriving DecidableEq, Repr

/-- The fields of STATUS (R23). Bits 31:8 are reserved and hold nothing. -/
structure Status where
  busy : Bool
  done : Bool
  err : Bool
  drop : Bool
  cause : Cause
  deriving DecidableEq, Repr

/-- The storage behind the register window (R21 to R34). CMD is not storage (R22); reserved offsets hold nothing (R35). -/
structure Regs where
  /-- STATUS, offset 0x004 (R23). -/
  status : Status
  /-- CTRL bit 0, offset 0x008 (R24). -/
  ie : Bool
  /-- BLOCK_LEN, 0x010 (R25). -/
  blockLen : Word
  /-- COUNTER_LO, 0x014 (R26). -/
  counterLo : Word
  /-- COUNTER_HI, 0x018 (R26). -/
  counterHi : Word
  /-- NUM_INPUTS, 0x01C (R27). -/
  numInputs : Word
  /-- BLOCKS, 0x020 (R28). -/
  blocks : Word
  /-- INPTR_LO, 0x028 (R29). -/
  inptrLo : Word
  /-- INPTR_HI, 0x02C (R29). -/
  inptrHi : Word
  /-- OUTPTR_LO, 0x030 (R30). -/
  outptrLo : Word
  /-- OUTPTR_HI, 0x034 (R30). -/
  outptrHi : Word
  /-- FAULT_ADDR_LO, 0x038, read-only (R31). -/
  faultAddrLo : Word
  /-- FAULT_ADDR_HI, 0x03C, read-only (R31). -/
  faultAddrHi : Word
  /-- CV0..CV7, 0x040 + 4k (R32). -/
  cv : Cv
  /-- BLK0..BLK15, 0x080 + 4k (R33). -/
  blk : Words16
  /-- RES0..RES15, 0x0C0 + 4k, read-only (R34). -/
  res : Words16
  deriving DecidableEq, Repr

/-- The validity bits `written[r]` of R44, one per storage register whose reset value the spec leaves unspecified. -/
structure Written where
  blockLen : Bool
  counterLo : Bool
  counterHi : Bool
  numInputs : Bool
  blocks : Bool
  inptrLo : Bool
  inptrHi : Bool
  outptrLo : Bool
  outptrHi : Bool
  cv : Vector Bool 8
  blk : Vector Bool 16
  res : Vector Bool 16
  deriving DecidableEq, Repr

/-- The state grid `S = [row0, row1, row2, row3]` (R9, R36). -/
structure Grid where
  row0 : Row
  row1 : Row
  row2 : Row
  row3 : Row
  deriving DecidableEq, Repr

/-- The datapath registers of the round pipeline: the grid (R36), the message register `m` (R37) and the latch of the
original chaining value `cv_in` (R38). -/
structure Pipe where
  grid : Grid
  m : Words16
  cvIn : Cv
  deriving DecidableEq, Repr

/-- `job.op` (R39): the OP map of R92; 0b11 is never latched. -/
inductive Op where
  | compress
  | compressXof
  | hashMany
  deriving DecidableEq, Repr

/-- The job latch (R39): the operands of the running command, copied at acceptance. -/
structure Job where
  op : Op
  inc : Bool
  flags : Byte
  fs : Byte
  fe : Byte
  blockLen : Word
  counter : BitVec 64
  cv : Cv
  blk : Words16
  numInputs : Word
  blocks : Word
  inptr : Addr
  outptr : Addr
  deriving DecidableEq, Repr

/-- `phase` (R40). -/
inductive Phase where
  | idle
  | compressRun
  | xofRun
  | hmPtr
  | hmBlock
  | hmMix
  | hmWrite
  | hmNext
  deriving DecidableEq, Repr

/-- The sequencer position (R40), and one field of the model's own: `loaded` says that step 0 of R187 (INIT and LOAD) of the
compression in progress is behind it, which R40's fields do not tell from the first round (notes/assumptions/6.md). -/
structure Seq where
  phase : Phase
  /-- The round index, 7 meaning all rounds done. -/
  rnd : Fin 8
  /-- The input index. -/
  i : Word
  /-- The block index. -/
  j : Word
  /-- The current counter. -/
  ctr : BitVec 64
  /-- The current chaining value. -/
  cv : Cv
  /-- The current block flags. -/
  bflags : Byte
  /-- The current input's base address. -/
  base : Addr
  /-- The byte cursor, 0..63. -/
  k : Fin 64
  /-- The 64-byte block buffer. -/
  buf : Block
  /-- The model's own: step 0 of R187 is done. -/
  loaded : Bool
  deriving DecidableEq, Repr

/-- The bytes the running HASH_MANY has read and has written, which R76's overlap rule needs: addresses as naturals, strictly
rising, none twice. The model's own, as R44's bits are (notes/assumptions/7.md). -/
structure Accesses where
  read : List Nat
  written : List Nat
  deriving DecidableEq, Repr

/-- System memory (R65): the bytes that have been written, as (address, byte) cells with strictly rising addresses. -/
abbrev Memory := List Host.Cell

/-- What an address that no cell lists holds: no value of the model's choosing. An admitted read of such a byte answers the
platform's free value `Config.powerOnByte` (notes/assumptions/4.md). -/
def Memory.unlisted : Option Byte := none

/-- The kind of a system-memory access (R66). -/
inductive AccessKind where
  | read
  | write
  deriving DecidableEq, Repr

/-- A range of addresses, ends included, for which the platform refuses one kind of access. A list of these is any predicate
`MemAdmit(addr, kind)` there is, since the address space is finite (R66). -/
structure Hole where
  first : Addr
  last : Addr
  kind : AccessKind
  deriving DecidableEq, Repr

/-- One turn of the interleaving of R5 and R357: the core takes one step, or an agent outside the core acts once. Register
transactions carry the width in bits, so that R62's bad accesses can be said. -/
inductive Turn where
  /-- The core takes one internal step. -/
  | core
  /-- `RegWrite(off, d)` of the given width (R10, R62). -/
  | regWrite (width : Nat) (off : BitVec 8) (d : Word)
  /-- `RegRead(off)` of the given width (R10, R62). -/
  | regRead (width : Nat) (off : BitVec 8)
  /-- The host writes one byte of system memory (R5, R75). -/
  | memWrite (a : Addr) (b : Byte)
  /-- The host reads one byte of system memory (R5, R75). -/
  | memRead (a : Addr)
  /-- Reset, the core's one asynchronous input (R340). -/
  | reset
  /-- WAITIDLE (R100): read STATUS until bit 0 is 0. -/
  | waitIdle
  deriving DecidableEq, Repr

/-- The whole state. -/
structure State where
  /-- The register window (R20 part a). -/
  regs : Regs
  /-- The validity bits (R44). -/
  written : Written
  /-- Grid, message register and original-CV latch (R36 to R38). -/
  pipe : Pipe
  /-- The job latch (R39). -/
  job : Job
  /-- The sequencer position (R40). -/
  seq : Seq
  /-- The bytes the running HASH_MANY has accessed (R76). -/
  accesses : Accesses
  /-- System memory (R65). -/
  mem : Memory
  /-- The platform parameter `MemAdmit` (R66), as the accesses it refuses. No step changes it. -/
  refused : List Hole
  /-- The turns that are pending, the next one first (R5). When none is pending the core steps. -/
  turns : List Turn
  /-- The word the last RegRead answered to the host, if there was one. -/
  rdata : Option Word
  /-- The byte the host's last read of system memory answered, if there was one. -/
  mdata : Option Byte
  deriving DecidableEq, Repr

/-- The model faults of R308: "not hardware events". Each stops the run. All are safe: where the hardware goes on with a value
the spec does not fix, the model stops. -/
inductive Fault where
  /-- R44, raised by command acceptance (R302 checks 3 and 4, R303) and by RegRead: a register with `written = 0` is consumed or
  read. Safe. -/
  | uninitRead
  /-- R62, raised by a register transaction that is not a 32-bit aligned word. Safe. -/
  | badRegAccess
  /-- R75, raised by a host memory access to a buffer of a running HASH_MANY. Safe. -/
  | hostRace
  /-- R76, raised by a core step of HASH_MANY that writes a byte the command has read or reads a byte it has written. Safe. -/
  | overlap
  deriving DecidableEq, Repr

/-- Why the model has no meaning for an instruction. -/
inductive Refusal where
  /-- Raised by an arm of exec that has no meaning yet. Safe. No arm of this model answers it. -/
  | notModelled (mnemonic : String)
  deriving DecidableEq, Repr

/-- What a step answers. -/
abbrev Result := Host.Outcome State Fault Refusal

/-- The register window after reset (R340). STATUS, CTRL and FAULT_ADDR are the spec's values; every other register is
"unspecified" there, and holds 0 here (DESIGN CHOICE, notes/assumptions/1.md), which no program sees: `written` is clear. -/
def Regs.reset : Regs where
  status := { busy := false, done := false, err := false, drop := false, cause := .none }
  ie := false
  blockLen := 0#32
  counterLo := 0#32
  counterHi := 0#32
  numInputs := 0#32
  blocks := 0#32
  inptrLo := 0#32
  inptrHi := 0#32
  outptrLo := 0#32
  outptrHi := 0#32
  faultAddrLo := 0#32
  faultAddrHi := 0#32
  cv := Vector.replicate 8 0#32
  blk := Vector.replicate 16 0#32
  res := Vector.replicate 16 0#32

/-- "Reset clears every bit" (R44). -/
def Written.reset : Written where
  blockLen := false
  counterLo := false
  counterHi := false
  numInputs := false
  blocks := false
  inptrLo := false
  inptrHi := false
  outptrLo := false
  outptrHi := false
  cv := Vector.replicate 8 false
  blk := Vector.replicate 16 false
  res := Vector.replicate 16 false

/-- The datapath registers after reset: "unspecified, never read before the next compression's INIT and LOAD" (R340); 0 here
(DESIGN CHOICE, notes/assumptions/2.md). -/
def Pipe.reset : Pipe where
  grid :=
    { row0 := Vector.replicate 4 0#32, row1 := Vector.replicate 4 0#32,
      row2 := Vector.replicate 4 0#32, row3 := Vector.replicate 4 0#32 }
  m := Vector.replicate 16 0#32
  cvIn := Vector.replicate 8 0#32

/-- The job latch after reset: "unspecified, never read before the next acceptance overwrites them" (R340); COMPRESS and 0 here
(DESIGN CHOICE, notes/assumptions/2.md). -/
def Job.reset : Job where
  op := .compress
  inc := false
  flags := 0#8
  fs := 0#8
  fe := 0#8
  blockLen := 0#32
  counter := 0#64
  cv := Vector.replicate 8 0#32
  blk := Vector.replicate 16 0#32
  numInputs := 0#32
  blocks := 0#32
  inptr := 0#64
  outptr := 0#64

/-- The sequencer after reset: `phase = IDLE` (R340), every other field "unspecified"; 0 here (DESIGN CHOICE,
notes/assumptions/2.md). -/
def Seq.reset : Seq where
  phase := .idle
  rnd := 0
  i := 0#32
  j := 0#32
  ctr := 0#64
  cv := Vector.replicate 8 0#32
  bflags := 0#8
  base := 0#64
  k := 0
  buf := Vector.replicate 64 0#8
  loaded := false

/-- No access made yet. -/
def Accesses.empty : Accesses where
  read := []
  written := []

/-- The machine right after reset (R340): the core's state as above, nothing listed in system memory, no turn pending, and a
platform that refuses no access (DESIGN CHOICE, notes/assumptions/5.md). -/
def State.reset : State where
  regs := Regs.reset
  written := Written.reset
  pipe := Pipe.reset
  job := Job.reset
  seq := Seq.reset
  accesses := Accesses.empty
  mem := []
  refused := []
  turns := []
  rdata := none
  mdata := none

end Sys2Proof.Machine
end

