-- ==== Sys2Proof/Machine/Flags.lean ====
section
/-!
DEFINITION. The status bits (10_state.md R23, R42): the core has no condition flags, and these are the only bits a command
sets. Every change of STATUS the spec lists is one function here, with STATUS's word form, CTRL's, and the irq output (R43).
-/

namespace Sys2Proof.Machine

/-- The cause codes of R304. -/
def Cause.code : Cause → BitVec 4
  | .none => 0#4
  | .illegalOp => 1#4
  | .reservedField => 2#4
  | .badBlockLen => 3#4
  | .badBlocks => 4#4
  | .memError => 5#4

/-- STATUS as a RegRead answers it (R23): BUSY bit 0, DONE 1, ERR 2, DROP 3, CAUSE 7:4, bits 31:8 zero. -/
def Status.toWord (st : Status) : Word :=
  0#24 ++ st.cause.code ++ BitVec.ofBool st.drop ++ BitVec.ofBool st.err ++
    BitVec.ofBool st.done ++ BitVec.ofBool st.busy

/-- A write of `d` to STATUS (R23): write-1-to-clear, and clearing ERR clears CAUSE. -/
def Status.clear (st : Status) (d : Word) : Status :=
  { busy := st.busy
    done := if d.getLsbD 1 then false else st.done
    err := if d.getLsbD 2 then false else st.err
    drop := if d.getLsbD 3 then false else st.drop
    cause := if d.getLsbD 2 then .none else st.cause }

/-- A busy-locked write was dropped (R301, R350). -/
def Status.dropped (st : Status) : Status := { st with drop := true }

/-- `reject(cause)` (R302): DONE 0, ERR 1, CAUSE; BUSY and DROP as they are. -/
def Status.rejected (st : Status) (c : Cause) : Status :=
  { st with done := false, err := true, cause := c }

/-- Acceptance (R303): BUSY 1, DONE 0, ERR 0, CAUSE 0; DROP unchanged. -/
def Status.accepted (st : Status) : Status :=
  { st with busy := true, done := false, err := false, cause := .none }

/-- Completion (R224, R230, R271): BUSY 0, DONE 1. -/
def Status.completed (st : Status) : Status := { st with busy := false, done := true }

/-- The MEM_ERROR abort (R306): BUSY 0, DONE 0, ERR 1, CAUSE 5. -/
def Status.aborted (st : Status) : Status :=
  { st with busy := false, done := false, err := true, cause := .memError }

/-- CTRL as a RegRead answers it (R24): IE in bit 0, the rest zero. -/
def ctrlWord (ie : Bool) : Word := 0#31 ++ BitVec.ofBool ie

/-- The irq output (R43): `CTRL.IE & (STATUS.DONE | STATUS.ERR)`, a level. -/
def State.irq (s : State) : Bool := s.regs.ie && (s.regs.status.done || s.regs.status.err)

end Sys2Proof.Machine
end

