-- ==== Sys2Proof/Machine/Bits.lean ====
section
/-!
DEFINITION. Byte order and bit fields (00_scope.md R7, R10; 20_memory.md R70): little-endian, decided once, here.
-/

namespace Sys2Proof.Machine

/-- `le32(b0, b1, b2, b3) = b0 | b1 << 8 | b2 << 16 | b3 << 24` (R10). -/
def le32 (b0 b1 b2 b3 : Byte) : Word := b3 ++ b2 ++ b1 ++ b0

/-- Byte `n` (0..3) of `bytes_le32(w)` (R10): bits 8n+7 : 8n. -/
def byteOfWord (w : Word) (n : Nat) : Byte := w.extractLsb' (8 * n) 8

/-- `le64`: eight bytes, the first the least significant (R67). -/
def le64 (b : Vector Byte 8) : Addr :=
  b[7] ++ b[6] ++ b[5] ++ b[4] ++ b[3] ++ b[2] ++ b[1] ++ b[0]

/-- Byte `n` of a 64-bit value replaced by `b`, the other bytes kept: how HM_PTR assembles `base` byte by byte (R262). -/
def setByte (v : Addr) (n : Nat) (b : Byte) : Addr :=
  (v &&& ~~~(0xFF#64 <<< (8 * n))) ||| (b.setWidth 64 <<< (8 * n))

/-- `{hi, lo}`: the 64-bit value of a register pair (R94). -/
def pair64 (hi lo : Word) : BitVec 64 := hi ++ lo

/-- Bits 31:0 of a 64-bit value (R94). -/
def low32 (v : BitVec 64) : Word := v.extractLsb' 0 32

/-- Bits 63:32 of a 64-bit value (R94). -/
def high32 (v : BitVec 64) : Word := v.extractLsb' 32 32

end Sys2Proof.Machine
end

