-- ==== Sys2Proof/Machine/Mixer.lean ====
section
/-!
DEFINITION. `blake2_style_state_mixer` (40_state_mixer.md): the element-wise row operations, the lane rotations and the mixing
step G. Pure functions of rows and grids; no flag, no exception.
-/

namespace Sys2Proof.Machine

/-- `rotr32(a, n)` (R8), for 0 < n < 32; only 16, 12, 8 and 7 occur. -/
def rotr32 (a : Word) (n : Nat) : Word := (a >>> n) ||| (a <<< (32 - n))

/-- ADDV (R120): element-wise addition modulo 2^32. -/
def addv (a b : Row) : Row := Vector.ofFn fun c => a[c] + b[c]

/-- XORV (R121): element-wise exclusive-or. -/
def xorv (a b : Row) : Row := Vector.ofFn fun c => a[c] ^^^ b[c]

/-- ROTRV (R122): right bit-rotation of every lane by `n`. -/
def rotrv (a : Row) (n : Nat) : Row := Vector.ofFn fun c => rotr32 a[c] n

/-- LROT (R123): lane `c` takes lane `(c + k) mod 4`. -/
def lrot (a : Row) (k : Nat) : Row :=
  Vector.ofFn fun c => a[(c.val + k) % 4]'(Nat.mod_lt _ (by decide))

/-- DIAG (R124): row1 left by one lane, row2 by two, row3 right by one (left by three). -/
def diag (S : Grid) : Grid :=
  { row0 := S.row0, row1 := lrot S.row1 1, row2 := lrot S.row2 2, row3 := lrot S.row3 3 }

/-- UNDIAG (R125): the undo of DIAG. -/
def undiag (S : Grid) : Grid :=
  { row0 := S.row0, row1 := lrot S.row1 3, row2 := lrot S.row2 2, row3 := lrot S.row3 1 }

/-- GH (R126): one half of the mixing step, each line reading what the line before it wrote. -/
def mixHalf (S : Grid) (x : Row) (p q : Nat) : Grid :=
  let row0 := addv (addv S.row0 S.row1) x
  let row3 := rotrv (xorv S.row3 row0) p
  let row2 := addv S.row2 row3
  let row1 := rotrv (xorv S.row1 row2) q
  { row0 := row0, row1 := row1, row2 := row2, row3 := row3 }

/-- G (R127): the two half-steps, rotations 16 and 12, then 8 and 7. -/
def mixG (S : Grid) (x y : Row) : Grid := mixHalf (mixHalf S x 16 12) y 8 7

end Sys2Proof.Machine
end

