-- ==== Sys2Proof/Machine/Operands.lean ====
section
/-!
DEFINITION. Operand assembly (30_encoding.md R94 to R97) and operand latching (60_exceptions.md R303): the counter and the
pointers from their register pairs, the header row, the byte view of BLK, the block flags of HASH_MANY, which registers a
command consumes, and what the job latch takes from them.
-/

namespace Sys2Proof.Machine

/-- The counter `{COUNTER_HI, COUNTER_LO}` (R26, R94). -/
def Regs.counter (r : Regs) : BitVec 64 := pair64 r.counterHi r.counterLo

/-- The input-pointer table's address `{INPTR_HI, INPTR_LO}` (R29, R94). -/
def Regs.inptr (r : Regs) : Addr := pair64 r.inptrHi r.inptrLo

/-- The output buffer's address `{OUTPTR_HI, OUTPTR_LO}` (R30, R94). -/
def Regs.outptr (r : Regs) : Addr := pair64 r.outptrHi r.outptrLo

/-- The header words, row 3 of the initial grid (R95): counter low, counter high, block length, flags zero-extended. -/
def headerRow (c : BitVec 64) (L : Word) (f : Byte) : Row :=
  #v[low32 c, high32 c, L, f.setWidth 32]

/-- The byte view of BLK (R33): byte b is byte `b mod 4` of word `b div 4`. -/
def blockBytes (blk : Words16) : Block :=
  Vector.ofFn fun b => byteOfWord (blk[b.val / 4]'(by omega)) (b.val % 4)

/-- Byte `b` of the digest of a chaining value (R68): `bytes_le32(cv[b div 4])[b mod 4]`, b = 0..31. -/
def digestByte (cv : Cv) (b : Fin 32) : Byte :=
  byteOfWord (cv[b.val / 4]'(by omega)) (b.val % 4)

/-- The block flags of HASH_MANY (R97): FLAGS, with FLAGS_START for block 0 and FLAGS_END for the last of `n` blocks. -/
def blockFlags (flags fs fe : Byte) (j n : Word) : Byte :=
  flags ||| (if j = 0#32 then fs else 0#8) ||| (if j = n - 1#32 then fe else 0#8)

/-- The operand registers COMPRESS and COMPRESS_XOF consume have all been written (R303): CV0..7, BLK0..15, BLOCK_LEN,
COUNTER_LO and COUNTER_HI. -/
def Written.compressOperands (w : Written) : Bool :=
  w.cv.toList.all id && w.blk.toList.all id && w.blockLen && w.counterLo && w.counterHi

/-- The operand registers HASH_MANY consumes have all been written (R303): CV0..7, COUNTER_LO/HI, NUM_INPUTS, BLOCKS,
INPTR_LO/HI and OUTPTR_LO/HI. -/
def Written.batchOperands (w : Written) : Bool :=
  w.cv.toList.all id && w.counterLo && w.counterHi && w.numInputs && w.blocks &&
    w.inptrLo && w.inptrHi && w.outptrLo && w.outptrHi

/-- What the job latch holds after COMPRESS or COMPRESS_XOF is accepted (R303). The fields of HASH_MANY alone keep their
value; INC, FLAGS_START and FLAGS_END are 0 in an accepted word (R98). -/
def latchCompress (op : Op) (flags : Byte) (s : State) : Job :=
  { s.job with
    op := op
    inc := false
    flags := flags
    fs := 0#8
    fe := 0#8
    blockLen := s.regs.blockLen
    counter := s.regs.counter
    cv := s.regs.cv
    blk := s.regs.blk }

/-- What the job latch holds after HASH_MANY is accepted (R303). BLK and BLOCK_LEN are not latched. -/
def latchBatch (inc : Bool) (flags fs fe : Byte) (s : State) : Job :=
  { s.job with
    op := .hashMany
    inc := inc
    flags := flags
    fs := fs
    fe := fe
    counter := s.regs.counter
    cv := s.regs.cv
    numInputs := s.regs.numInputs
    blocks := s.regs.blocks
    inptr := s.regs.inptr
    outptr := s.regs.outptr }

end Sys2Proof.Machine
end

