-- ==== Sys2Proof/Machine/Schedule.lean ====
section
/-!
DEFINITION. `message_schedule_selector` (41_message_schedule.md): block parsing, the two constant ROMs of R41, and the
selection of a round's four message vectors. The ROMs have no write path and no reset, so they are constants and no field of
State.
-/

namespace Sys2Proof.Machine

/-- The IV ROM (R156). Only words 0 to 3 enter the grid. -/
def ivRom : Cv :=
  #v[0x6A09E667#32, 0xBB67AE85#32, 0x3C6EF372#32, 0xA54FF53A#32,
     0x510E527F#32, 0x9B05688C#32, 0x1F83D9AB#32, 0x5BE0CD19#32]

/-- The schedule ROM SCHED[r][p] (R157): seven rows of sixteen four-bit word indices. -/
def schedRom : Vector (Vector (Fin 16) 16) 7 :=
  #v[#v[0, 1, 2, 3, 4, 5, 6, 7, 8, 9, 10, 11, 12, 13, 14, 15],
     #v[2, 6, 3, 10, 7, 0, 4, 13, 1, 11, 12, 5, 9, 14, 15, 8],
     #v[3, 4, 10, 12, 13, 2, 7, 14, 6, 5, 9, 0, 11, 15, 8, 1],
     #v[10, 7, 12, 9, 14, 3, 13, 15, 4, 0, 11, 2, 5, 8, 1, 6],
     #v[12, 13, 9, 11, 15, 10, 14, 8, 7, 2, 5, 3, 0, 1, 6, 4],
     #v[9, 14, 11, 5, 8, 12, 15, 1, 13, 3, 0, 10, 2, 6, 4, 7],
     #v[11, 15, 5, 0, 1, 9, 8, 6, 14, 10, 2, 12, 3, 4, 7, 13]]

/-- PARSE (R150, R96): `m[k] = le32(B[4k], B[4k+1], B[4k+2], B[4k+3])`. All 64 bytes are parsed, whatever the block length is
(R152). -/
@[irreducible] def parseBlock (B : Block) : Words16 :=
  Vector.ofFn fun k => le32 B[4 * k.val] B[4 * k.val + 1] B[4 * k.val + 2] B[4 * k.val + 3]

/-- The four message vectors of a round (R158). -/
structure RoundVectors where
  xc : Row
  yc : Row
  xd : Row
  yd : Row
  deriving DecidableEq, Repr

/-- SELECT (R158): even schedule entries to the first half-step, odd ones to the second; entries 0 to 7 to the column pass,
8 to 15 to the diagonal pass. -/
def selectVectors (m : Words16) (r : Fin 7) : RoundVectors :=
  let s := schedRom[r]
  { xc := #v[m[s[0]], m[s[2]], m[s[4]], m[s[6]]]
    yc := #v[m[s[1]], m[s[3]], m[s[5]], m[s[7]]]
    xd := #v[m[s[8]], m[s[10]], m[s[12]], m[s[14]]]
    yd := #v[m[s[9]], m[s[11]], m[s[13]], m[s[15]]] }

end Sys2Proof.Machine
end

