-- ==== Sys2Proof/Machine/Pipeline.lean ====
section
/-!
DEFINITION. `round_function_pipeline` (42_round_pipeline.md): initialisation, the round, finalisation, and the two pure
compression functions of R189.
-/

namespace Sys2Proof.Machine

/-- A compression input `(cv, B, L, c, f)` (R180, R182). -/
structure CompressInput where
  cv : Cv
  block : Block
  blockLen : Word
  counter : BitVec 64
  flags : Byte
  deriving DecidableEq, Repr

/-- Words 0 to 3 of eight words, as a row. -/
def lowRow (w : Cv) : Row := #v[w[0], w[1], w[2], w[3]]

/-- Words 4 to 7 of eight words, as a row. -/
def highRow (w : Cv) : Row := #v[w[4], w[5], w[6], w[7]]

/-- Two rows as eight words: `out[0..3]`, then `out[4..7]` (R186). -/
def joinRows (a b : Row) : Cv := #v[a[0], a[1], a[2], a[3], b[0], b[1], b[2], b[3]]

/-- Eight words and eight more as sixteen: `out[0..7]`, then `out[8..15]` (R188). -/
def joinHalves (a b : Cv) : Words16 :=
  #v[a[0], a[1], a[2], a[3], a[4], a[5], a[6], a[7], b[0], b[1], b[2], b[3], b[4], b[5], b[6], b[7]]

/-- INIT (R180): the grid of a compression input. -/
@[irreducible] def initGrid (x : CompressInput) : Grid :=
  { row0 := lowRow x.cv
    row1 := highRow x.cv
    row2 := lowRow ivRom
    row3 := headerRow x.counter x.blockLen x.flags }

/-- ROUND (R184): column pass, DIAG, diagonal pass, UNDIAG. -/
@[irreducible] def roundStep (S : Grid) (m : Words16) (r : Fin 7) : Grid :=
  let v := selectVectors m r
  undiag (mixG (diag (mixG S v.xc v.yc)) v.xd v.yd)

/-- ROUNDS (R185): the seven rounds in order. -/
def rounds (S : Grid) (m : Words16) : Grid :=
  [0, 1, 2, 3, 4, 5, 6].foldl (fun S r => roundStep S m r) S

/-- FIN_TRUNC (R186): row0 xor row2, then row1 xor row3. -/
@[irreducible] def finTrunc (S : Grid) : Cv := joinRows (xorv S.row0 S.row2) (xorv S.row1 S.row3)

/-- FIN_EXT (R188): FIN_TRUNC's words, then row2 and row3 as they stood after round 6, xor the original chaining value. -/
@[irreducible] def finExt (S : Grid) (cvIn : Cv) : Words16 :=
  joinHalves (finTrunc S) (joinRows (xorv S.row2 (lowRow cvIn)) (xorv S.row3 (highRow cvIn)))

/-- `compress_fn` (R189): truncated mode. -/
def compressFn (x : CompressInput) : Cv := finTrunc (rounds (initGrid x) (parseBlock x.block))

/-- `compress_xof_fn` (R189): extended mode. -/
def compressXofFn (x : CompressInput) : Words16 :=
  finExt (rounds (initGrid x) (parseBlock x.block)) x.cv

/-- INIT and LOAD in one step (R180, R181): what step 0 of R187 leaves in the datapath registers. -/
def loadPipe (x : CompressInput) : Pipe :=
  { grid := initGrid x, m := parseBlock x.block, cvIn := x.cv }

end Sys2Proof.Machine
end

