-- ==== Sys2Proof/Machine/Ops.lean ====
section
/-!
DEFINITION. The named operations over the state: updates of one part of it, system memory byte by byte, the register window,
command acceptance, the status record that stands for trap entry (R309: rejection R302 and the MEM_ERROR abort R306, with the
write-1-to-clear of R23 as the return, R312), the core's memory accesses, and reset.
-/

namespace Sys2Proof.Machine

/-! ### Updates of one part of the state -/

def State.withRegs (s : State) (r : Regs) : State := { s with regs := r }
def State.withStatus (s : State) (st : Status) : State := { s with regs := { s.regs with status := st } }
def State.withWritten (s : State) (w : Written) : State := { s with written := w }
def State.withPipe (s : State) (p : Pipe) : State := { s with pipe := p }
def State.withJob (s : State) (j : Job) : State := { s with job := j }
def State.withSeq (s : State) (q : Seq) : State := { s with seq := q }
def State.withAccesses (s : State) (a : Accesses) : State := { s with accesses := a }
def State.withMem (s : State) (m : Memory) : State := { s with mem := m }
def State.withTurns (s : State) (t : List Turn) : State := { s with turns := t }
def State.withRdata (s : State) (d : Option Word) : State := { s with rdata := d }
def State.withMdata (s : State) (b : Option Byte) : State := { s with mdata := b }

/-! ### System memory -/

/-- What a memory lists at an address. -/
def Memory.get : Memory → Nat → Option Byte
  | [], _ => Memory.unlisted
  | (a, b) :: t, x => if x = a then some b else Memory.get t x

/-- A memory after one byte is stored: the cells stay in strictly rising order, one per address. -/
def Memory.set : Memory → Nat → Byte → Memory
  | [], x, v => [(x, v)]
  | (a, b) :: t, x, v =>
    if x < a then (x, v) :: (a, b) :: t
    else if x = a then (x, v) :: t
    else (a, b) :: Memory.set t x v

/-- Every listed address is above `lo` and below 2^64, and they rise strictly. -/
def Memory.risingFrom : Option Nat → Memory → Bool
  | _, [] => true
  | none, (a, _) :: t => decide (a < 2 ^ 64) && Memory.risingFrom (some a) t
  | some lo, (a, _) :: t => decide (lo < a) && decide (a < 2 ^ 64) && Memory.risingFrom (some a) t

/-- The canonical form of system memory: strictly rising 64-bit addresses. No cell can equal what an unlisted address holds,
which is no value. -/
def Memory.wf (m : Memory) : Bool := Memory.risingFrom none m

/-- An address added to a strictly rising list of addresses, if it is not there. -/
def addrInsert (x : Nat) : List Nat → List Nat
  | [] => [x]
  | a :: t => if x < a then x :: a :: t else if x = a then a :: t else a :: addrInsert x t

/-- The byte a read of system memory answers at `a` (R66): what is listed there, or the platform's free value. -/
def State.memByte (s : State) (a : Addr) : Byte :=
  match s.mem.get a.toNat with
  | some b => b
  | none => Config.powerOnByte a

/-- System memory after `b` is stored at `a`. -/
def State.storeByte (s : State) (a : Addr) (b : Byte) : State := s.withMem (s.mem.set a.toNat b)

/-- The platform parameter `MemAdmit(addr, kind)` (R66): no range that refuses this kind holds the address. -/
def State.admits (s : State) (a : Addr) (kind : AccessKind) : Bool :=
  !(s.refused.any fun h => decide (h.kind = kind) && decide (h.first ≤ a) && decide (a ≤ h.last))

/-! ### The register window -/

/-- What stands at a word offset of the window (R21). -/
inductive WinReg where
  | cmd
  | status
  | ctrl
  | reserved
  | blockLen
  | counterLo
  | counterHi
  | numInputs
  | blocks
  | inptrLo
  | inptrHi
  | outptrLo
  | outptrHi
  | faultAddrLo
  | faultAddrHi
  | cv (k : Fin 8)
  | blk (k : Fin 16)
  | res (k : Fin 16)
  deriving DecidableEq, Repr

/-- The register map of R21, by word number (byte offset divided by 4). -/
def winRegOf (n : Nat) : WinReg :=
  match n with
  | 0 => .cmd
  | 1 => .status
  | 2 => .ctrl
  | 4 => .blockLen
  | 5 => .counterLo
  | 6 => .counterHi
  | 7 => .numInputs
  | 8 => .blocks
  | 10 => .inptrLo
  | 11 => .inptrHi
  | 12 => .outptrLo
  | 13 => .outptrHi
  | 14 => .faultAddrLo
  | 15 => .faultAddrHi
  | n =>
    if 16 ≤ n ∧ n < 24 then .cv (Fin.ofNat 8 (n - 16))
    else if 32 ≤ n ∧ n < 48 then .blk (Fin.ofNat 16 (n - 32))
    else if 48 ≤ n ∧ n < 64 then .res (Fin.ofNat 16 (n - 48))
    else .reserved

/-- A register transaction is well formed (R62): exactly 32 bits, at an offset that is a multiple of 4. -/
def wordAccess (width : Nat) (off : BitVec 8) : Bool := width == 32 && off.toNat % 4 == 0

/-- The busy-locked registers of R21, CMD among them. -/
def WinReg.busyLocked : WinReg → Bool
  | .cmd | .blockLen | .counterLo | .counterHi | .numInputs | .blocks => true
  | .inptrLo | .inptrHi | .outptrLo | .outptrHi | .cv _ | .blk _ => true
  | .status | .ctrl | .reserved | .faultAddrLo | .faultAddrHi | .res _ => false

/-- What a register holds. CMD and reserved offsets read 0 (R22, R35). -/
def State.regValue (s : State) : WinReg → Word
  | .cmd | .reserved => 0#32
  | .status => s.regs.status.toWord
  | .ctrl => ctrlWord s.regs.ie
  | .blockLen => s.regs.blockLen
  | .counterLo => s.regs.counterLo
  | .counterHi => s.regs.counterHi
  | .numInputs => s.regs.numInputs
  | .blocks => s.regs.blocks
  | .inptrLo => s.regs.inptrLo
  | .inptrHi => s.regs.inptrHi
  | .outptrLo => s.regs.outptrLo
  | .outptrHi => s.regs.outptrHi
  | .faultAddrLo => s.regs.faultAddrLo
  | .faultAddrHi => s.regs.faultAddrHi
  | .cv k => s.regs.cv[k]
  | .blk k => s.regs.blk[k]
  | .res k => s.regs.res[k]

/-- `written[r]` (R44); true for what has a reset value or is not storage. -/
def State.regWritten (s : State) : WinReg → Bool
  | .cmd | .reserved | .status | .ctrl | .faultAddrLo | .faultAddrHi => true
  | .blockLen => s.written.blockLen
  | .counterLo => s.written.counterLo
  | .counterHi => s.written.counterHi
  | .numInputs => s.written.numInputs
  | .blocks => s.written.blocks
  | .inptrLo => s.written.inptrLo
  | .inptrHi => s.written.inptrHi
  | .outptrLo => s.written.outptrLo
  | .outptrHi => s.written.outptrHi
  | .cv k => s.written.cv[k]
  | .blk k => s.written.blk[k]
  | .res k => s.written.res[k]

/-- `RegRead` of a register (R44, R64): the value goes to the host and nothing else changes; a read of a register with
`written = 0` is UninitRead. -/
def readReg (r : WinReg) (s : State) : Result :=
  if s.regWritten r then .next (s.withRdata (some (s.regValue r))) else .fault .uninitRead

/-- A write of `d` to a storage register that is not dropped: the value is stored and `written[r]` set (R21, R44). CMD, STATUS
and CTRL have operations of their own, and writes to read-only and reserved offsets are ignored (R35). -/
def State.storeReg (s : State) (r : WinReg) (d : Word) : State :=
  match r with
  | .blockLen => (s.withRegs { s.regs with blockLen := d }).withWritten { s.written with blockLen := true }
  | .counterLo => (s.withRegs { s.regs with counterLo := d }).withWritten { s.written with counterLo := true }
  | .counterHi => (s.withRegs { s.regs with counterHi := d }).withWritten { s.written with counterHi := true }
  | .numInputs => (s.withRegs { s.regs with numInputs := d }).withWritten { s.written with numInputs := true }
  | .blocks => (s.withRegs { s.regs with blocks := d }).withWritten { s.written with blocks := true }
  | .inptrLo => (s.withRegs { s.regs with inptrLo := d }).withWritten { s.written with inptrLo := true }
  | .inptrHi => (s.withRegs { s.regs with inptrHi := d }).withWritten { s.written with inptrHi := true }
  | .outptrLo => (s.withRegs { s.regs with outptrLo := d }).withWritten { s.written with outptrLo := true }
  | .outptrHi => (s.withRegs { s.regs with outptrHi := d }).withWritten { s.written with outptrHi := true }
  | .cv k =>
    (s.withRegs { s.regs with cv := s.regs.cv.set k d }).withWritten { s.written with cv := s.written.cv.set k true }
  | .blk k =>
    (s.withRegs { s.regs with blk := s.regs.blk.set k d }).withWritten { s.written with blk := s.written.blk.set k true }
  | .cmd | .status | .ctrl | .reserved | .faultAddrLo | .faultAddrHi | .res _ => s

/-- A write of `d` to STATUS (R23), whether or not BUSY = 1: the host's acknowledgement, the "return" of R312. -/
def State.writeStatus (s : State) (d : Word) : State := s.withStatus (s.regs.status.clear d)

/-- A write of `d` to CTRL (R24), whether or not BUSY = 1. -/
def State.writeCtrl (s : State) (d : Word) : State := s.withRegs { s.regs with ie := d.getLsbD 0 }

/-- A busy-locked write while BUSY = 1 (R301, R350): the register keeps its value and DROP is set. -/
def State.dropWrite (s : State) : State := s.withStatus s.regs.status.dropped

/-- A write of `d` to any register but CMD (R21, R35, R350). -/
def State.writeReg (s : State) (r : WinReg) (d : Word) : State :=
  if r.busyLocked && s.regs.status.busy then s.dropWrite
  else
    match r with
    | .status => s.writeStatus d
    | .ctrl => s.writeCtrl d
    | r => s.storeReg r d

/-! ### Acceptance, rejection and abort -/

/-- `reject(cause)` (R302): changes STATUS and nothing else. -/
def State.reject (s : State) (c : Cause) : State := s.withStatus (s.regs.status.rejected c)

/-- Acceptance (R303): the job is latched, STATUS says BUSY, and the sequencer stands at the command's first step, with the
indices, the cursor and the counter of a fresh run (R260: `ctr <- job.counter`). -/
def State.accept (s : State) (job : Job) (phase : Phase) : State :=
  { s with
    regs := { s.regs with status := s.regs.status.accepted }
    job := job
    seq :=
      { s.seq with
        phase := phase, rnd := 0, i := 0#32, j := 0#32, k := 0, ctr := job.counter, loaded := false }
    accesses := Accesses.empty }

/-- `abort(MEM_ERROR, a)` (R306): STATUS, FAULT_ADDR and phase; every other register as before the command (R307). -/
def State.abortMem (s : State) (a : Addr) : State :=
  { s with
    regs :=
      { s.regs with status := s.regs.status.aborted, faultAddrLo := low32 a, faultAddrHi := high32 a }
    seq := { s.seq with phase := .idle } }

/-- A command request that finds the core busy is dropped (R301); otherwise it goes to the command's checks. -/
def request (s : State) (checks : State → Result) : Result :=
  if s.regs.status.busy then .next s.dropWrite else checks s

/-! ### The core's accesses to system memory -/

/-- One byte read by the core at `a`, then `k` on the byte and the state that has noted the access. A refused access aborts
(R66, R306); an admitted read of a byte the command has written is Overlap (R76). -/
def coreRead (a : Addr) (s : State) (k : Byte → State → State) : Result :=
  if s.admits a .read then
    if s.accesses.written.contains a.toNat then .fault .overlap
    else .next (k (s.memByte a) (s.withAccesses { s.accesses with read := addrInsert a.toNat s.accesses.read }))
  else .next (s.abortMem a)

/-- One byte written by the core at `a`, then `k` on the state that holds it and has noted the access. A refused access aborts
(R66, R306); an admitted write to a byte the command has read is Overlap (R76). -/
def coreWrite (a : Addr) (b : Byte) (s : State) (k : State → State) : Result :=
  if s.admits a .write then
    if s.accesses.read.contains a.toNat then .fault .overlap
    else
      .next (k ((s.storeByte a b).withAccesses
        { s.accesses with written := addrInsert a.toNat s.accesses.written }))
  else .next (s.abortMem a)

/-! ### The round pipeline, one step at a time -/

/-- The compression in progress has done its step 0 and its seven rounds: the next step is step 8 of R187, finalisation. -/
def State.pipeDone (s : State) : Bool := s.seq.loaded && s.seq.rnd == 7

/-- One of the steps 0 to 7 of R187 on the compression input `x`: INIT and LOAD, or the round `rnd`. -/
def State.pipeStep (s : State) (x : CompressInput) : State :=
  if s.seq.loaded then
    if h : s.seq.rnd.val < 7 then
      (s.withPipe { s.pipe with grid := roundStep s.pipe.grid s.pipe.m ⟨s.seq.rnd.val, h⟩ }).withSeq
        { s.seq with rnd := s.seq.rnd + 1 }
    else s
  else (s.withPipe (loadPipe x)).withSeq { s.seq with rnd := 0, loaded := true }

/-! ### Reset -/

/-- The reset event (R340): the core's own state as after reset; system memory, the platform, the host's pending turns and what
it has read are not touched. What R340 leaves unspecified takes the values of State.reset (notes/assumptions/3.md). -/
def State.hardReset (s : State) : State :=
  { s with
    regs := Regs.reset
    written := Written.reset
    pipe := Pipe.reset
    job := Job.reset
    seq := Seq.reset
    accesses := Accesses.empty }

end Sys2Proof.Machine
end

