-- ==== Sys2Proof/Machine/Compress.lean ====
section
/-!
DEFINITION. COMPRESS and COMPRESS_XOF (43_compress_commands.md): what issuing each does (acceptance, R301 to R303), and the
internal steps of a running command up to its commit (R221, R224, R230).
-/

namespace Sys2Proof.Machine

/-- R302 check 3 and R303 for COMPRESS and COMPRESS_XOF. Checks 1 and 2 are the decoder's. -/
def startCompress (op : Op) (phase : Phase) (flags : Byte) (s : State) : Result :=
  if s.written.blockLen = false then .fault .uninitRead
  else if 64#32 < s.regs.blockLen then .next (s.reject .badBlockLen)
  else if s.written.compressOperands = false then .fault .uninitRead
  else .next (s.accept (latchCompress op flags s) phase)

/-- COMPRESS (R224): the CMD write. The compression itself runs in the steps of `compressRunStep`. -/
def execCompress (flags : Byte) (s : State) : Result :=
  request s (startCompress .compress .compressRun flags)

/-- COMPRESS_XOF (R230): the CMD write. The compression itself runs in the steps of `xofRunStep`. -/
def execCompressXof (flags : Byte) (s : State) : Result :=
  request s (startCompress .compressXof .xofRun flags)

/-- The compression input of a running COMPRESS or COMPRESS_XOF (R221). -/
def Job.compressInput (j : Job) : CompressInput :=
  { cv := j.cv, block := blockBytes j.blk, blockLen := j.blockLen, counter := j.counter, flags := j.flags }

/-- The command is over: BUSY 0, DONE 1, phase IDLE, in one step (R224, R230, R271). -/
def State.complete (s : State) : State :=
  (s.withStatus s.regs.status.completed).withSeq { s.seq with phase := .idle, loaded := false }

/-- The commit of COMPRESS (R224): CV0..7 and RES0..7 take the result, RES8..15 take 0, and their validity bits are set. -/
def State.commitCompress (s : State) : State :=
  let out := finTrunc s.pipe.grid
  let s1 := s.withRegs { s.regs with cv := out, res := joinHalves out (Vector.replicate 8 0#32) }
  let s2 := s1.withWritten
    { s1.written with cv := Vector.replicate 8 true, res := Vector.replicate 16 true }
  s2.complete

/-- The commit of COMPRESS_XOF (R230): RES0..15 take the result, and CV is not written. -/
def State.commitXof (s : State) : State :=
  let s1 := s.withRegs { s.regs with res := finExt s.pipe.grid s.pipe.cvIn }
  let s2 := s1.withWritten { s1.written with res := Vector.replicate 16 true }
  s2.complete

/-- One step of a running COMPRESS (R187, R221): nine in all, the last one the commit. -/
def compressRunStep (s : State) : Result :=
  if s.pipeDone then .next s.commitCompress else .next (s.pipeStep s.job.compressInput)

/-- One step of a running COMPRESS_XOF (R187, R221): nine in all, the last one the commit. -/
def xofRunStep (s : State) : Result :=
  if s.pipeDone then .next s.commitXof else .next (s.pipeStep s.job.compressInput)

end Sys2Proof.Machine
end

