-- ==== Sys2Proof/Machine/Batch.lean ====
section
/-!
DEFINITION. HASH_MANY (44_batch_driver.md): what issuing it does (acceptance), and one definition per phase of the driver
(R261 to R271). A byte access is one step.
-/

namespace Sys2Proof.Machine

/-- R302 check 4 and R303 for HASH_MANY. With NUM_INPUTS = 0 the command stands at its completion at once (R263). -/
def startBatch (inc : Bool) (flags fs fe : Byte) (s : State) : Result :=
  if s.written.blocks = false then .fault .uninitRead
  else if s.regs.blocks = 0#32 then .next (s.reject .badBlocks)
  else if s.written.batchOperands = false then .fault .uninitRead
  else
    .next (s.accept (latchBatch inc flags fs fe s) (if s.regs.numInputs = 0#32 then .hmNext else .hmPtr))

/-- HASH_MANY (R260): the CMD write. The batch itself runs in the steps below. -/
def execHashMany (inc : Bool) (flags flagsStart flagsEnd : Byte) (s : State) : Result :=
  request s (startBatch inc flags flagsStart flagsEnd)

/-- The address of byte `k` of input `i`'s table entry (R67): `job.inptr + 8*i + k`. -/
def tableAddr (job : Job) (i : Word) (k : Nat) : Addr :=
  job.inptr + 8#64 * i.setWidth 64 + BitVec.ofNat 64 k

/-- The address of byte `b` of block `j` of an input at `base` (R69): `base + 64*j + b`. -/
def blockAddr (base : Addr) (j : Word) (b : Nat) : Addr :=
  base + 64#64 * j.setWidth 64 + BitVec.ofNat 64 b

/-- The address of byte `b` of the digest of input `i` (R68): `job.outptr + 32*i + b`. -/
def digestAddr (job : Job) (i : Word) (b : Nat) : Addr :=
  job.outptr + 32#64 * i.setWidth 64 + BitVec.ofNat 64 b

/-- HM_PTR (R262): byte `k` of the table entry into `base`. After the eighth, `cv <- job.cv`, `j <- 0`, and HM_BLOCK follows. -/
def hmPtrStep (s : State) : Result :=
  coreRead (tableAddr s.job s.seq.i s.seq.k.val) s fun b t =>
    let q := { t.seq with base := setByte t.seq.base t.seq.k.val b }
    t.withSeq
      (if t.seq.k.val < 7 then { q with k := q.k + 1 }
       else { q with k := 0, cv := t.job.cv, j := 0#32, phase := .hmBlock })

/-- HM_BLOCK (R264): byte `k` of block `j` into the block buffer. After the sixty-fourth, HM_MIX follows. -/
def hmBlockStep (s : State) : Result :=
  coreRead (blockAddr s.seq.base s.seq.j s.seq.k.val) s fun b t =>
    let q := { t.seq with buf := t.seq.buf.set t.seq.k b }
    t.withSeq
      (if t.seq.k.val < 63 then { q with k := q.k + 1 } else { q with k := 0, phase := .hmMix })

/-- The block flags of the block being mixed (R97, R267). -/
def State.currentFlags (s : State) : Byte :=
  blockFlags s.job.flags s.job.fs s.job.fe s.seq.j s.job.blocks

/-- The compression input of HM_MIX (R266, R267): block length 64, the counter of the input, the flags of the block. -/
def Seq.mixInput (q : Seq) : CompressInput :=
  { cv := q.cv, block := q.buf, blockLen := 64#32, counter := q.ctr, flags := q.bflags }

/-- HM_MIX (R267), as the nine steps of R187 that R261 allows: the last one feeds the result forward as the chaining value and
moves to the next block, or to HM_WRITE after the last. -/
def hmMixStep (s : State) : Result :=
  let s1 := s.withSeq { s.seq with bflags := s.currentFlags }
  if s1.pipeDone then
    let j := s1.seq.j + 1#32
    .next (s1.withSeq
      { s1.seq with
        cv := finTrunc s1.pipe.grid
        j := j
        loaded := false
        phase := if j < s1.job.blocks then .hmBlock else .hmWrite })
  else .next (s1.pipeStep s1.seq.mixInput)

/-- HM_WRITE (R268): byte `k` of the digest. After the thirty-second, HM_NEXT follows. -/
def hmWriteStep (s : State) : Result :=
  coreWrite (digestAddr s.job s.seq.i s.seq.k.val) (digestByte s.seq.cv (Fin.ofNat 32 s.seq.k.val)) s fun t =>
    t.withSeq
      (if t.seq.k.val < 31 then { t.seq with k := t.seq.k + 1 } else { t.seq with k := 0, phase := .hmNext })

/-- HM_NEXT (R269): the counter advances when INC = 1, and the next input follows, if there is one. When every input is done,
completion (R271) is a step of its own; with NUM_INPUTS = 0 it is the only one (R263). -/
def hmNextStep (s : State) : Result :=
  if s.seq.i < s.job.numInputs then
    let i := s.seq.i + 1#32
    .next (s.withSeq
      { s.seq with
        ctr := if s.job.inc then s.seq.ctr + 1#64 else s.seq.ctr
        i := i
        phase := if i < s.job.numInputs then .hmPtr else .hmNext })
  else .next s.complete

end Sys2Proof.Machine
end

