-- ==== Sys2Proof/Machine/Dispatch.lean ====
section
/-!
DEFINITION. One arm per command (R92): each calls its meaning.
-/

namespace Sys2Proof.Machine

-- Issuing a command: what its CMD write does (R301 to R303).
def exec (i : Instr) (s : State) : Host.Outcome State Fault Refusal :=
  match i with
  | .compress flags => Sys2Proof.Machine.execCompress flags s
  | .compressXof flags => Sys2Proof.Machine.execCompressXof flags s
  | .hashMany inc flags flagsStart flagsEnd => Sys2Proof.Machine.execHashMany inc flags flagsStart flagsEnd s

end Sys2Proof.Machine
end

