-- ==== Sys2Proof/Machine/Sequencer.lean ====
section
/-!
DEFINITION. One internal step of the core, by phase (R40, R187, R261), and a run of the core alone.
-/

namespace Sys2Proof.Machine

/-- One core step. In phase IDLE the core waits for a CMD write (R341), and the step changes nothing. -/
def coreStep (s : State) : Result :=
  match s.seq.phase with
  | .idle => .next s
  | .compressRun => compressRunStep s
  | .xofRun => xofRunStep s
  | .hmPtr => hmPtrStep s
  | .hmBlock => hmBlockStep s
  | .hmMix => hmMixStep s
  | .hmWrite => hmWriteStep s
  | .hmNext => hmNextStep s

/-- `n` core steps with no other agent between them, stopping at the first model fault. -/
def coreRun : Nat → State → Result
  | 0, s => .next s
  | n + 1, s =>
    match coreStep s with
    | .next t => coreRun n t
    | .fault f => .fault f
    | .refused r => .refused r

end Sys2Proof.Machine
end

