-- ==== Sys2Proof/Machine/Port.lean ====
section
/-!
DEFINITION. The agents outside the core (R5): the host's register transactions (R60 to R64, R301), its accesses to system
memory under the concurrency contract of R75, reset (R340), and the WAITIDLE loop (R100). One definition per turn.
-/

namespace Sys2Proof.Machine

/-- The cause a word that is no command is rejected with (R302 checks 1 and 2). -/
def errorCause : DecodeError → Cause
  | .illegalOp => .illegalOp
  | .reservedField => .reservedField

/-- A write of `d` to CMD (R301): the word is decoded, and the command it stands for is issued. A word that is no command is
rejected, or dropped while BUSY = 1. -/
def writeCmd (d : Word) (s : State) : Result :=
  match decode d with
  | .command i => exec i s
  | .rejected e => request s fun t => .next (t.reject (errorCause e))

/-- `RegWrite(off, d)` (R10, R62, R64). -/
def portWrite (width : Nat) (off : BitVec 8) (d : Word) (s : State) : Result :=
  if wordAccess width off then
    match winRegOf (off.toNat / 4) with
    | .cmd => writeCmd d s
    | r => .next (s.writeReg r d)
  else .fault .badRegAccess

/-- `RegRead(off)` (R10, R62, R64). -/
def portRead (width : Nat) (off : BitVec 8) (s : State) : Result :=
  if wordAccess width off then readReg (winRegOf (off.toNat / 4)) s else .fault .badRegAccess

/-- `a` is one of the `len` bytes from `base` on, modulo 2^64 (R65). -/
def inRange (a base : Addr) (len : Nat) : Bool := decide ((a - base).toNat < len)

/-- A HASH_MANY is running (R75: STATUS.BUSY = 1). -/
def State.batchRunning (s : State) : Bool := s.regs.status.busy && s.job.op == .hashMany

/-- The pointer in input `i`'s table entry (R67), as system memory holds it. -/
def State.tablePtr (s : State) (i : Word) : Addr :=
  le64 (Vector.ofFn fun k : Fin 8 => s.memByte (tableAddr s.job i k.val))

/-- The running HASH_MANY reads byte `a` (R75): a table entry, or a block of some input. -/
def State.batchReads (s : State) (a : Addr) : Bool :=
  inRange a s.job.inptr (8 * s.job.numInputs.toNat) ||
    (List.range s.job.numInputs.toNat).any fun i =>
      inRange a (s.tablePtr (BitVec.ofNat 32 i)) (64 * s.job.blocks.toNat)

/-- Byte `a` is in the output region `[job.outptr, job.outptr + 32*job.num_inputs)` (R75). -/
def State.batchWrites (s : State) (a : Addr) : Bool :=
  inRange a s.job.outptr (32 * s.job.numInputs.toNat)

/-- The host writes a byte of system memory (R75): HostRace on any buffer of a running HASH_MANY. -/
def hostMemWrite (a : Addr) (b : Byte) (s : State) : Result :=
  if s.batchRunning && (s.batchReads a || s.batchWrites a) then .fault .hostRace
  else .next (s.storeByte a b)

/-- The host reads a byte of system memory (R75): HostRace on the output region of a running HASH_MANY. R74 and R353 promise a
command's writes to the host once it has observed BUSY = 0; here a read after the completion, after a MEM_ERROR abort or after
reset answers the bytes written so far, whether or not it has (DESIGN CHOICE, notes/assumptions/18.md). -/
def hostMemRead (a : Addr) (s : State) : Result :=
  if s.batchRunning && s.batchWrites a then .fault .hostRace
  else .next (s.withMdata (some (s.memByte a)))

/-- One poll of WAITIDLE (R100): `RD STATUS`; while bit 0 is 1 the loop goes on, with a core step between two polls (the fair
schedule of R355). -/
def pollIdle (s : State) : Result :=
  let t := s.withRdata (some s.regs.status.toWord)
  .next (if s.regs.status.busy then t.withTurns (.core :: .waitIdle :: t.turns) else t)

/-- One turn, taken on the state from which it has been removed. -/
def runTurn (t : Turn) (s : State) : Result :=
  match t with
  | .core => coreStep s
  | .regWrite width off d => portWrite width off d s
  | .regRead width off => portRead width off s
  | .memWrite a b => hostMemWrite a b s
  | .memRead a => hostMemRead a s
  | .reset => .next s.hardReset
  | .waitIdle => pollIdle s

/-- The next turn of the state; with none pending, the core steps (R355: a core that can take a step eventually takes one). -/
def nextTurn (s : State) : Result :=
  match s.turns with
  | [] => coreStep s
  | t :: rest => runTurn t (s.withTurns rest)

/-- The validity bits after the host has written every operand register (R343 step 2); RES as it was. -/
def Written.allOperands (w : Written) : Written where
  blockLen := true
  counterLo := true
  counterHi := true
  numInputs := true
  blocks := true
  inptrLo := true
  inptrHi := true
  outptrLo := true
  outptrHi := true
  cv := Vector.replicate 8 true
  blk := Vector.replicate 16 true
  res := w.res

/-- The state in which the host's next transaction is the CMD write of `d`, its operand writes behind it: the boot of R343,
steps 2 and 4, with the values the operand registers already hold (notes/assumptions/8.md). -/
def State.withCommand (s : State) (d : Word) : State :=
  (s.withWritten s.written.allOperands).withTurns (.regWrite 32 0#8 d :: s.turns)

end Sys2Proof.Machine
end

