-- ==== Sys2Proof/Machine/Script.lean ====
section
/-!
DEFINITION. The host script of 30_encoding.md R99 and R100: every statement and pseudo-instruction as the turns it stands for,
so that a program of 95_test_vectors.md is the `turns` of a state.
-/

namespace Sys2Proof.Machine

/-- The register names a script may write or read, as their offsets in the window (R21). -/
def offsetOf : WinReg → BitVec 8
  | .cmd => 0x00#8
  | .status => 0x04#8
  | .ctrl => 0x08#8
  | .reserved => 0x0C#8
  | .blockLen => 0x10#8
  | .counterLo => 0x14#8
  | .counterHi => 0x18#8
  | .numInputs => 0x1C#8
  | .blocks => 0x20#8
  | .inptrLo => 0x28#8
  | .inptrHi => 0x2C#8
  | .outptrLo => 0x30#8
  | .outptrHi => 0x34#8
  | .faultAddrLo => 0x38#8
  | .faultAddrHi => 0x3C#8
  | .cv k => BitVec.ofNat 8 (0x40 + 4 * k.val)
  | .blk k => BitVec.ofNat 8 (0x80 + 4 * k.val)
  | .res k => BitVec.ofNat 8 (0xC0 + 4 * k.val)

/-- `WR <reg>, <value>` (R99). -/
def wr (r : WinReg) (d : Word) : Turn := .regWrite 32 (offsetOf r) d

/-- `RD <reg>` (R99). -/
def rd (r : WinReg) : Turn := .regRead 32 (offsetOf r)

/-- `COMPRESS`, `COMPRESS_XOF` and `HASH_MANY` as statements (R99): `WR CMD, enc(...)`. -/
def issue (i : Instr) : Turn := wr .cmd (encode i)

/-- `SETCV w0,...,w7` (R100). -/
def setCv (w : Cv) : List Turn := (List.finRange 8).map fun k => wr (.cv k) w[k]

/-- `SETBLK w0,...,w15` (R100). -/
def setBlk (w : Words16) : List Turn := (List.finRange 16).map fun k => wr (.blk k) w[k]

/-- `SETCTR c` (R100). -/
def setCtr (c : BitVec 64) : List Turn := [wr .counterLo (low32 c), wr .counterHi (high32 c)]

/-- `SETPTR IN=a, OUT=b` (R100). -/
def setPtr (a b : Addr) : List Turn :=
  [wr .inptrLo (low32 a), wr .inptrHi (high32 a), wr .outptrLo (low32 b), wr .outptrHi (high32 b)]

/-- `CLRST` (R100): clears DONE, ERR with CAUSE, and DROP. -/
def clrSt : Turn := wr .status 0x0000000E#32

end Sys2Proof.Machine
end

