-- ==== Sys2Proof/Safety.lean ====
section
/-!
DEFINITION. The terms claims are stated in: the invariants of a legal run, the states in which a command is accepted, the byte
access a HASH_MANY makes next, and the whole-command functions of 44_batch_driver.md R260 and 41_message_schedule.md R159,
written apart from the machine that steps through them.
-/

namespace Sys2Proof.Machine

/-! ### Invariants -/

/-- R313: BUSY excludes DONE and ERR, DONE and ERR exclude each other, and CAUSE is 0 while ERR is. -/
abbrev Status.Ok (st : Status) : Prop :=
  (st.busy = true → st.done = false ∧ st.err = false) ∧ ¬(st.done = true ∧ st.err = true) ∧
    (st.err = false → st.cause = .none)

/-- R300, R40: "`phase` is IDLE exactly when STATUS.BUSY = 0". -/
abbrev State.PhaseAgrees (s : State) : Prop := s.seq.phase = .idle ↔ s.regs.status.busy = false

/-- A list of 64-bit addresses, strictly rising. -/
abbrev AddrsRising (l : List Nat) : Prop := l.Pairwise (· < ·) ∧ ∀ a ∈ l, a < 2 ^ 64

/-- System memory and the two sets of accessed bytes are in canonical form. -/
abbrev State.MemoryCanonical (s : State) : Prop :=
  s.mem.wf = true ∧ AddrsRising s.accesses.read ∧ AddrsRising s.accesses.written

/-- The phases of the batch driver (R261). -/
def Phase.ofBatch : Phase → Bool
  | .hmPtr | .hmBlock | .hmMix | .hmWrite | .hmNext => true
  | .idle | .compressRun | .xofRun => false

/-- The latched job is legal for the phase (R182, R302) and the indices are in range (R40, R261): a compression's block length
is at most 64; a batch has at least one block; `i`, `j` and `k` stay below the counts they index. -/
abbrev State.SequencerLegal (s : State) : Prop :=
  (s.seq.phase = .compressRun → s.job.op = .compress ∧ s.job.blockLen ≤ 64#32) ∧
  (s.seq.phase = .xofRun → s.job.op = .compressXof ∧ s.job.blockLen ≤ 64#32) ∧
  (s.seq.phase.ofBatch = true → s.job.op = .hashMany ∧ s.job.blocks ≠ 0#32) ∧
  (s.seq.phase = .hmPtr → s.seq.i < s.job.numInputs ∧ s.seq.k.val < 8 ∧ s.seq.loaded = false) ∧
  (s.seq.phase = .hmBlock → s.seq.i < s.job.numInputs ∧ s.seq.j < s.job.blocks ∧ s.seq.loaded = false) ∧
  (s.seq.phase = .hmMix → s.seq.i < s.job.numInputs ∧ s.seq.j < s.job.blocks ∧ s.seq.k.val = 0) ∧
  (s.seq.phase = .hmWrite → s.seq.i < s.job.numInputs ∧ s.seq.k.val < 32 ∧ s.seq.loaded = false) ∧
  (s.seq.phase = .hmNext → s.seq.i ≤ s.job.numInputs ∧ s.seq.k.val = 0 ∧ s.seq.loaded = false)

/-- R270: input `i` is hashed with the start counter plus `i` when INC = 1, and with the start counter when INC = 0. -/
def inputCounter (job : Job) (i : Word) : BitVec 64 :=
  if job.inc then job.counter + i.setWidth 64 else job.counter

/-- The driver's counter is the current input's (R269, R270). -/
abbrev State.CounterAgrees (s : State) : Prop :=
  s.seq.phase.ofBatch = true → s.seq.i ≤ s.job.numInputs ∧ s.seq.ctr = inputCounter s.job s.seq.i

/-! ### When a command is accepted -/

/-- The operand registers of COMPRESS and COMPRESS_XOF (R303) are written. -/
abbrev CompressOperandsWritten (w : Written) : Prop :=
  (∀ k : Fin 8, w.cv[k] = true) ∧ (∀ k : Fin 16, w.blk[k] = true) ∧ w.blockLen = true ∧
    w.counterLo = true ∧ w.counterHi = true

/-- The operand registers of HASH_MANY (R303) are written. -/
abbrev BatchOperandsWritten (w : Written) : Prop :=
  (∀ k : Fin 8, w.cv[k] = true) ∧ w.counterLo = true ∧ w.counterHi = true ∧ w.numInputs = true ∧
    w.blocks = true ∧ w.inptrLo = true ∧ w.inptrHi = true ∧ w.outptrLo = true ∧ w.outptrHi = true

/-- The operand registers the command consumes (R303) are written. -/
abbrev OperandsWritten (i : Instr) (w : Written) : Prop :=
  match i with
  | .compress _ | .compressXof _ => CompressOperandsWritten w
  | .hashMany _ _ _ _ => BatchOperandsWritten w

/-- A COMPRESS or COMPRESS_XOF command word is accepted in this state: idle, operands written, block length legal
(R302, R303). -/
abbrev State.CompressReady (s : State) : Prop :=
  s.regs.status.busy = false ∧ CompressOperandsWritten s.written ∧ s.regs.blockLen ≤ 64#32

/-- A HASH_MANY command word is accepted in this state: idle, operands written, at least one block (R302, R303). -/
abbrev State.BatchReady (s : State) : Prop :=
  s.regs.status.busy = false ∧ BatchOperandsWritten s.written ∧ s.regs.blocks ≠ 0#32

/-- The compression input the operand registers hold, with the command's flags (R220). -/
def Regs.compressInput (r : Regs) (flags : Byte) : CompressInput :=
  { cv := r.cv
    block := Vector.ofFn fun b => byteOfWord (r.blk[b.val / 4]'(by omega)) (b.val % 4)
    blockLen := r.blockLen
    counter := r.counterHi ++ r.counterLo
    flags := flags }

/-! ### Memory accesses of the driver -/

/-- The system-memory access the core's next step makes, if it makes one (R65, R262, R264, R268). -/
def State.nextAccess (s : State) : Option (Addr × AccessKind) :=
  match s.seq.phase with
  | .hmPtr => some (tableAddr s.job s.seq.i s.seq.k.val, .read)
  | .hmBlock => some (blockAddr s.seq.base s.seq.j s.seq.k.val, .read)
  | .hmWrite => some (digestAddr s.job s.seq.i s.seq.k.val, .write)
  | .idle | .compressRun | .xofRun | .hmMix | .hmNext => none

/-- The bytes the batch of the latched job reads (R67, R69): the table entries and the blocks of every input. -/
def State.BatchReadsByte (s : State) (a : Addr) : Prop :=
  (∃ (i : Word) (k : Nat), i < s.job.numInputs ∧ k < 8 ∧ a = tableAddr s.job i k) ∨
  ∃ (i j : Word) (b : Nat),
    i < s.job.numInputs ∧ j < s.job.blocks ∧ b < 64 ∧ a = blockAddr (s.tablePtr i) j b

/-- The bytes the batch of the latched job writes (R68): the digest of every input. -/
def State.BatchWritesByte (s : State) (a : Addr) : Prop :=
  ∃ (i : Word) (b : Nat), i < s.job.numInputs ∧ b < 32 ∧ a = digestAddr s.job i b

/-! ### A whole batch, as R260 gives it -/

/-- Block `j` of input `i` (R69), as system memory holds it. -/
def State.inputBlock (s : State) (i j : Word) : Block :=
  Vector.ofFn fun b => s.memByte (blockAddr (s.tablePtr i) j b.val)

/-- The chaining value of input `i` after its first `n` blocks (R260, R267): from the key, each block compressed with length
64, the input's counter and the block's flags. -/
def State.inputCv (s : State) (i : Word) : Nat → Cv
  | 0 => s.job.cv
  | n + 1 =>
    compressFn
      { cv := s.inputCv i n
        block := s.inputBlock i (BitVec.ofNat 32 n)
        blockLen := 64#32
        counter := inputCounter s.job i
        flags := blockFlags s.job.flags s.job.fs s.job.fe (BitVec.ofNat 32 n) s.job.blocks }

/-- The digest of input `i` (R68), as a chaining value. -/
def State.inputDigest (s : State) (i : Word) : Cv := s.inputCv i s.job.blocks.toNat

/-- The core steps of a HASH_MANY that nothing aborts (R355):
`NUM_INPUTS * (8 + BLOCKS * (64 + 9) + 32 + 1) + 1`. -/
def batchSteps (numInputs blocks : Word) : Nat :=
  numInputs.toNat * (8 + blocks.toNat * (64 + 9) + 32 + 1) + 1

/-- The contract of a batch that runs to its end: every byte it reads or writes is admitted (R66), and none is both read and
written (R76). -/
def State.BatchContract (s : State) : Prop :=
  (∀ a, s.BatchReadsByte a → s.admits a .read = true) ∧
  (∀ a, s.BatchWritesByte a → s.admits a .write = true) ∧
  ∀ a, ¬(s.BatchReadsByte a ∧ s.BatchWritesByte a)

/-! ### The scalar view of a round (R159) -/

/-- The flat view of a grid (R9): `v[4r + c] = row_r[c]`. -/
def Grid.flat (S : Grid) : Words16 := joinHalves (joinRows S.row0 S.row1) (joinRows S.row2 S.row3)

/-- The scalar mixing function `g(a, b, c, d, mx, my)` of R127, which answers the new a, b, c, d. -/
def gScalar (a b c d mx my : Word) : Word × Word × Word × Word :=
  let a1 := a + b + mx
  let d1 := rotr32 (d ^^^ a1) 16
  let c1 := c + d1
  let b1 := rotr32 (b ^^^ c1) 12
  let a2 := a1 + b1 + my
  let d2 := rotr32 (d1 ^^^ a2) 8
  let c2 := c1 + d2
  let b2 := rotr32 (b1 ^^^ c2) 7
  (a2, b2, c2, d2)

/-- `g` applied to the grid words `a`, `b`, `c`, `d` of a flat view. -/
def mixAt (v : Words16) (a b c d : Fin 16) (mx my : Word) : Words16 :=
  let r := gScalar v[a] v[b] v[c] v[d] mx my
  (((v.set a r.1).set b r.2.1).set c r.2.2.1).set d r.2.2.2

/-- Round `r` in scalar form (R159): the schedule's pairs 0 to 3 feed the columns (t, 4+t, 8+t, 12+t), and its pairs 4 to 7 the
diagonals (0,5,10,15), (1,6,11,12), (2,7,8,13) and (3,4,9,14), in that order. -/
def scalarRound (v : Words16) (m : Words16) (r : Fin 7) : Words16 :=
  let s := schedRom[r]
  let v := mixAt v 0 4 8 12 m[s[0]] m[s[1]]
  let v := mixAt v 1 5 9 13 m[s[2]] m[s[3]]
  let v := mixAt v 2 6 10 14 m[s[4]] m[s[5]]
  let v := mixAt v 3 7 11 15 m[s[6]] m[s[7]]
  let v := mixAt v 0 5 10 15 m[s[8]] m[s[9]]
  let v := mixAt v 1 6 11 12 m[s[10]] m[s[11]]
  let v := mixAt v 2 7 8 13 m[s[12]] m[s[13]]
  mixAt v 3 4 9 14 m[s[14]] m[s[15]]

end Sys2Proof.Machine
end

