-- ==== Sys2Proof/Certificates/Slice0/Obligations.lean ====
section
/-!
DEFINITION. The statements for the provers. Each docstring names the rule of spec/ it formalises, or the rules it rests on.
-/

open Sys2Proof Sys2Proof.Machine

/-! ### Encoding -/

/-- R91 to R93: every instruction's word decodes to the instruction, with every operand at every value. -/
def Obligations.DecodeOfEncodeIsTheInstruction : Prop :=
  ∀ i : Instr, i.wellFormed = true → decode (encode i) = .command i

/-- R91 to R93, the other direction: a word that decodes is the word of the instruction it decodes to, so no two words are the
same command and no bit of a word is ignored. -/
def Obligations.EncodeOfDecodeIsTheWord : Prop :=
  ∀ (d : Word) (i : Instr), decode d = .command i → encode i = d

/-- R98 and spec/opcode_table.json: a word is a command exactly when it is none of R98's reserved encodings, exactly when it
matches a row of the opcode table, and the one row it matches is its instruction's. -/
def Obligations.CommandsAreTheOpcodeTablesWords : Prop :=
  ∀ d : Word,
    ((∃ i, decode d = .command i) ↔ wordWellFormed d = true) ∧
    ((∃ i, decode d = .command i) ↔ ∃ r ∈ opcodeTable, r.covers d = true) ∧
    ∀ i, decode d = .command i → ∀ r ∈ opcodeTable, (r.covers d = true ↔ r.mnemonic = i.mnemonic)

/-- R93, R98: the example words of the spec, and one word for each kind of reserved encoding. -/
def Obligations.SpecWordsDecode : Prop :=
  decode 0x00000B00#32 = .command (.compress 0x0B#8) ∧
  decode 0x00000B01#32 = .command (.compressXof 0x0B#8) ∧
  decode 0x02010006#32 = .command (.hashMany true 0x00#8 0x01#8 0x02#8) ∧
  decode 0x02010002#32 = .command (.hashMany false 0x00#8 0x01#8 0x02#8) ∧
  decode 0x000000FB#32 = .rejected .illegalOp ∧
  decode 0x00000008#32 = .rejected .reservedField ∧
  decode 0x00000004#32 = .rejected .reservedField ∧
  decode 0x00010B00#32 = .rejected .reservedField

/-! ### Command acceptance -/

/-- R302: the four checks of a CMD write at an idle core, in order; the first that fails rejects the command and changes STATUS
alone; a check that would read an unwritten register is UninitRead. -/
def Obligations.FirstFailingCheckRejects : Prop :=
  ∀ (s : State) (d : Word), s.regs.status.busy = false →
    let rejectedState : Cause → State := fun c =>
      { s with regs := { s.regs with status := { s.regs.status with done := false, err := true, cause := c } } }
    let reserved : Prop :=
      d.extractLsb' 3 5 ≠ 0#5 ∨
        ((d.extractLsb' 0 2 = 0#2 ∨ d.extractLsb' 0 2 = 1#2) ∧
          (d.extractLsb' 2 1 ≠ 0#1 ∨ d.extractLsb' 16 8 ≠ 0#8 ∨ d.extractLsb' 24 8 ≠ 0#8))
    (d.extractLsb' 0 2 = 3#2 → portWrite 32 0x00#8 d s = .next (rejectedState .illegalOp)) ∧
    (d.extractLsb' 0 2 ≠ 3#2 → reserved → portWrite 32 0x00#8 d s = .next (rejectedState .reservedField)) ∧
    ((d.extractLsb' 0 2 = 0#2 ∨ d.extractLsb' 0 2 = 1#2) → ¬reserved →
      (s.written.blockLen = false → portWrite 32 0x00#8 d s = .fault .uninitRead) ∧
      (s.written.blockLen = true → 64#32 < s.regs.blockLen →
        portWrite 32 0x00#8 d s = .next (rejectedState .badBlockLen))) ∧
    (d.extractLsb' 0 2 = 2#2 → ¬reserved →
      (s.written.blocks = false → portWrite 32 0x00#8 d s = .fault .uninitRead) ∧
      (s.written.blocks = true → s.regs.blocks = 0#32 →
        portWrite 32 0x00#8 d s = .next (rejectedState .badBlocks)))

/-- R303: when every check passes, an unwritten operand register is UninitRead; otherwise the command is accepted: the job
latch takes the operands, STATUS says BUSY with DONE, ERR and CAUSE clear and DROP kept, the phase is the command's, and all
else but the sequencer and the record of accesses is as before. That the job keeps the fields of the other OP (NUM_INPUTS,
BLOCKS and the pointers for a compression, BLK and BLOCK_LEN for HASH_MANY) is the model's reading
(notes/assumptions/17.md). -/
def Obligations.AcceptanceLatchesTheOperands : Prop :=
  ∀ s : State, s.regs.status.busy = false →
    let busyRegs : Regs :=
      { s.regs with
        status := { busy := true, done := false, err := false, drop := s.regs.status.drop, cause := .none } }
    (s.written.blockLen = true → s.regs.blockLen ≤ 64#32 → ∀ flags : Byte,
      let jobOf : Op → Job := fun op =>
        { s.job with
          op := op, inc := false, flags := flags, fs := 0#8, fe := 0#8, blockLen := s.regs.blockLen,
          counter := s.regs.counterHi ++ s.regs.counterLo, cv := s.regs.cv, blk := s.regs.blk }
      (¬CompressOperandsWritten s.written →
        exec (.compress flags) s = .fault .uninitRead ∧ exec (.compressXof flags) s = .fault .uninitRead) ∧
      (CompressOperandsWritten s.written →
        (∃ q a, exec (.compress flags) s =
            .next { s with regs := busyRegs, job := jobOf .compress, seq := q, accesses := a } ∧
          q.phase = .compressRun) ∧
        ∃ q a, exec (.compressXof flags) s =
            .next { s with regs := busyRegs, job := jobOf .compressXof, seq := q, accesses := a } ∧
          q.phase = .xofRun)) ∧
    (s.written.blocks = true → s.regs.blocks ≠ 0#32 → ∀ (inc : Bool) (flags fs fe : Byte),
      let job : Job :=
        { s.job with
          op := .hashMany, inc := inc, flags := flags, fs := fs, fe := fe,
          counter := s.regs.counterHi ++ s.regs.counterLo, cv := s.regs.cv,
          numInputs := s.regs.numInputs, blocks := s.regs.blocks,
          inptr := s.regs.inptrHi ++ s.regs.inptrLo, outptr := s.regs.outptrHi ++ s.regs.outptrLo }
      (¬BatchOperandsWritten s.written → exec (.hashMany inc flags fs fe) s = .fault .uninitRead) ∧
      (BatchOperandsWritten s.written →
        ∃ q a, exec (.hashMany inc flags fs fe) s =
            .next { s with regs := busyRegs, job := job, seq := q, accesses := a } ∧
          q.phase = if s.regs.numInputs = 0#32 then .hmNext else .hmPtr))

/-- R301, R302, R303, R228, R271: the frame of issuing a command. Whatever the command and the state, STATUS is the only
register it changes (for a dropped request, DROP alone), and the validity bits, the datapath registers, system memory, the
platform and the host's side stay as they are. -/
def Obligations.IssuingChangesOnlyStatusAndTheJob : Prop :=
  ∀ (i : Instr) (s t : State), exec i s = .next t →
    t.regs = { s.regs with status := t.regs.status } ∧ t.written = s.written ∧ t.pipe = s.pipe ∧
    t.mem = s.mem ∧ (∀ a, t.memByte a = s.memByte a) ∧ t.refused = s.refused ∧ t.turns = s.turns ∧
    t.rdata = s.rdata ∧ t.mdata = s.mdata ∧
    (s.regs.status.busy = true →
      t = { s with regs := { s.regs with status := { s.regs.status with drop := true } } }) ∧
    (s.regs.status.busy = false → t.regs.status.drop = s.regs.status.drop)

/-! ### COMPRESS and COMPRESS_XOF -/

/-- R220, R221, R224, R187: from every state in which COMPRESS is accepted, the command is accepted and its nine core steps end
in its commit: CV0..7 and RES0..7 hold `compress_fn` of the operand registers, RES8..15 are 0, their validity bits are set,
STATUS says DONE, the phase is IDLE, and every other register, system memory and the host's side are as before. -/
def Obligations.CompressRunsToItsCommit : Prop :=
  ∀ (s : State) (flags : Byte), s.CompressReady →
    ∃ t u, exec (.compress flags) s = .next t ∧ coreRun 9 t = .next u ∧
      let out := compressFn (s.regs.compressInput flags)
      u.regs =
        { s.regs with
          cv := out
          res := u.regs.res
          status := { busy := false, done := true, err := false, drop := s.regs.status.drop, cause := .none } } ∧
      (∀ k : Fin 8, u.regs.res[k.val]'(by omega) = out[k]) ∧
      (∀ k : Fin 8, u.regs.res[8 + k.val]'(by omega) = 0#32) ∧
      u.written = { s.written with cv := Vector.replicate 8 true, res := Vector.replicate 16 true } ∧
      u.seq.phase = .idle ∧ u.mem = s.mem ∧ u.refused = s.refused ∧ u.turns = s.turns ∧
      u.rdata = s.rdata ∧ u.mdata = s.mdata

/-- R220, R221, R230, R187: the same for COMPRESS_XOF: RES0..15 hold `compress_xof_fn` of the operand registers, and CV is not
written. -/
def Obligations.CompressXofRunsToItsCommit : Prop :=
  ∀ (s : State) (flags : Byte), s.CompressReady →
    ∃ t u, exec (.compressXof flags) s = .next t ∧ coreRun 9 t = .next u ∧
      u.regs =
        { s.regs with
          res := compressXofFn (s.regs.compressInput flags)
          status := { busy := false, done := true, err := false, drop := s.regs.status.drop, cause := .none } } ∧
      u.written = { s.written with res := Vector.replicate 16 true } ∧
      u.seq.phase = .idle ∧ u.mem = s.mem ∧ u.refused = s.refused ∧ u.turns = s.turns ∧
      u.rdata = s.rdata ∧ u.mdata = s.mdata

/-- R226, R351: before the ninth core step a running COMPRESS or COMPRESS_XOF says BUSY and CV and RES hold the values from
before the command; so a host that reads them meanwhile sees no mixture of old and new words. -/
def Obligations.ResultsStayOldUntilTheCommit : Prop :=
  ∀ (s : State) (flags : Byte) (n : Nat), s.CompressReady → n ≤ 8 →
    ∀ i ∈ [Instr.compress flags, Instr.compressXof flags],
      ∃ t u, exec i s = .next t ∧ coreRun n t = .next u ∧ u.regs.status.busy = true ∧
        u.regs.status.done = false ∧ u.regs.cv = s.regs.cv ∧ u.regs.res = s.regs.res ∧ u.written = s.written

/-- R228: neither command writes BLOCK_LEN, COUNTER_LO/HI, BLK, NUM_INPUTS, BLOCKS, INPTR, OUTPTR, FAULT_ADDR or CTRL, at its
acceptance or in any step. -/
def Obligations.CompressLeavesEveryOperandRegisterButCv : Prop :=
  ∀ (s t : State),
    ((∃ flags, exec (.compress flags) s = .next t ∨ exec (.compressXof flags) s = .next t) ∨
      ((s.seq.phase = .compressRun ∨ s.seq.phase = .xofRun) ∧ coreStep s = .next t)) →
    t.regs.blockLen = s.regs.blockLen ∧ t.regs.counterLo = s.regs.counterLo ∧
    t.regs.counterHi = s.regs.counterHi ∧ t.regs.blk = s.regs.blk ∧ t.regs.numInputs = s.regs.numInputs ∧
    t.regs.blocks = s.regs.blocks ∧ t.regs.inptrLo = s.regs.inptrLo ∧ t.regs.inptrHi = s.regs.inptrHi ∧
    t.regs.outptrLo = s.regs.outptrLo ∧ t.regs.outptrHi = s.regs.outptrHi ∧
    t.regs.faultAddrLo = s.regs.faultAddrLo ∧ t.regs.faultAddrHi = s.regs.faultAddrHi ∧ t.regs.ie = s.regs.ie

/-- R232: two accepted commands with the same OP and the same latched operands commit the same result words. -/
def Obligations.SameLatchedOperandsSameResult : Prop :=
  ∀ (s s' t t' u u' : State) (flags : Byte) (i : Instr), i = .compress flags ∨ i = .compressXof flags →
    s.CompressReady → s'.CompressReady → exec i s = .next t → exec i s' = .next t' →
    t.job.cv = t'.job.cv → t.job.blk = t'.job.blk → t.job.blockLen = t'.job.blockLen →
    t.job.counter = t'.job.counter → t.job.flags = t'.job.flags →
    coreRun 9 t = .next u → coreRun 9 t' = .next u' →
    u.regs.res = u'.regs.res ∧ u.regs.cv = u'.regs.cv

/-! ### The datapath -/

/-- R191: the first eight words of the extended output are the truncated output. -/
def Obligations.ExtendedBeginsWithTruncated : Prop :=
  ∀ (x : CompressInput) (k : Fin 8), (compressXofFn x)[k.val]'(by omega) = (compressFn x)[k]

/-- R188: words 8 to 11 of the extended output are row2 after round 6, xor the first half of the original CV; words 12 to 15
are row3, xor its second half. -/
def Obligations.ExtendedSecondHalf : Prop :=
  ∀ (x : CompressInput) (k : Fin 4),
    let S := rounds (initGrid x) (parseBlock x.block)
    (compressXofFn x)[8 + k.val]'(by omega) = S.row2[k] ^^^ x.cv[k.val]'(by omega) ∧
    (compressXofFn x)[12 + k.val]'(by omega) = S.row3[k] ^^^ x.cv[4 + k.val]'(by omega)

/-- R180, R95, R156: the sixteen words of the initial grid: the chaining value in rows 0 and 1, the first four IV words in row 2,
and counter low, counter high, block length and flags in lanes 0 to 3 of row 3. -/
def Obligations.InitialGridIsTheSpecs : Prop :=
  ∀ x : CompressInput,
    (∀ k : Fin 4, (initGrid x).row0[k] = x.cv[k.val]'(by omega) ∧ (initGrid x).row1[k] = x.cv[4 + k.val]'(by omega)) ∧
    (initGrid x).row2 = #v[0x6A09E667#32, 0xBB67AE85#32, 0x3C6EF372#32, 0xA54FF53A#32] ∧
    (initGrid x).row3[0] = x.counter.extractLsb' 0 32 ∧ (initGrid x).row3[1] = x.counter.extractLsb' 32 32 ∧
    (initGrid x).row3[2] = x.blockLen ∧ (initGrid x).row3[3] = x.flags.setWidth 32

/-- R186, R188, R189: words 0 to 3 of both outputs are row0 xor row2 after round 6, and words 4 to 7 are row1 xor row3. -/
def Obligations.FirstEightWordsXorTheRows : Prop :=
  ∀ (x : CompressInput) (k : Fin 4),
    let S := rounds (initGrid x) (parseBlock x.block)
    (compressFn x)[k.val]'(by omega) = S.row0[k] ^^^ S.row2[k] ∧
    (compressFn x)[4 + k.val]'(by omega) = S.row1[k] ^^^ S.row3[k] ∧
    (compressXofFn x)[k.val]'(by omega) = S.row0[k] ^^^ S.row2[k] ∧
    (compressXofFn x)[4 + k.val]'(by omega) = S.row1[k] ^^^ S.row3[k]

/-- R125, R183: UNDIAG undoes DIAG, and DIAG undoes UNDIAG. -/
def Obligations.UndiagUndoesDiag : Prop :=
  ∀ S : Grid, undiag (diag S) = S ∧ diag (undiag S) = S

/-- R127: per lane, G is the scalar function g. -/
def Obligations.MixingStepIsScalarPerLane : Prop :=
  ∀ (S : Grid) (x y : Row) (c : Fin 4),
    ((mixG S x y).row0[c], (mixG S x y).row1[c], (mixG S x y).row2[c], (mixG S x y).row3[c]) =
      gScalar S.row0[c] S.row1[c] S.row2[c] S.row3[c] x[c] y[c]

/-- R159: the round in row form and the round in scalar form agree word for word. -/
def Obligations.RoundAgreesWithScalarForm : Prop :=
  ∀ (S : Grid) (m : Words16) (r : Fin 7), (roundStep S m r).flat = scalarRound S.flat m r

/-- R153, R154: row 0 of the schedule is the identity, each row is the permutation PERM of the row before it, and every row
holds every index. -/
def Obligations.ScheduleRowsFollowThePermutation : Prop :=
  let perm : Vector (Fin 16) 16 := #v[2, 6, 3, 10, 7, 0, 4, 13, 1, 11, 12, 5, 9, 14, 15, 8]
  (∀ p : Fin 16, schedRom[0][p] = p) ∧
  (∀ (r : Fin 6) (p : Fin 16), (schedRom[r.val + 1]'(by omega))[p] = (schedRom[r.val]'(by omega))[perm[p]]) ∧
  ∀ (r : Fin 7) (w : Fin 16), ∃ p : Fin 16, schedRom[r][p] = w

/-- R33, R150: parsing the bytes of sixteen words gives the words back, so message word k of COMPRESS is BLKk. -/
def Obligations.ParsingTheByteViewGivesTheWords : Prop :=
  ∀ w : Words16, parseBlock (blockBytes w) = w

/-! ### The register window -/

/-- R21: the register map, offset by offset. -/
def Obligations.RegisterMapIsTheSpecs : Prop :=
  (∀ k : Fin 8, winRegOf ((0x40 + 4 * k.val) / 4) = .cv k) ∧
  (∀ k : Fin 16, winRegOf ((0x80 + 4 * k.val) / 4) = .blk k) ∧
  (∀ k : Fin 16, winRegOf ((0xC0 + 4 * k.val) / 4) = .res k) ∧
  (∀ k : Fin 8, winRegOf ((0x60 + 4 * k.val) / 4) = .reserved) ∧
  [0x00, 0x04, 0x08, 0x0C, 0x10, 0x14, 0x18, 0x1C, 0x20, 0x24, 0x28, 0x2C, 0x30, 0x34, 0x38, 0x3C].map
      (fun off => winRegOf (off / 4)) =
    [.cmd, .status, .ctrl, .reserved, .blockLen, .counterLo, .counterHi, .numInputs, .blocks, .reserved,
      .inptrLo, .inptrHi, .outptrLo, .outptrHi, .faultAddrLo, .faultAddrHi]

/-- R62: a register transaction of another width than 32 bits, or at an offset that is no multiple of 4, is BadRegAccess. -/
def Obligations.BadRegisterAccessStops : Prop :=
  ∀ (s : State) (width : Nat) (off : BitVec 8) (d : Word), ¬(width = 32 ∧ off.toNat % 4 = 0) →
    portWrite width off d s = .fault .badRegAccess ∧ portRead width off s = .fault .badRegAccess

/-- R21, R64: a write to a storage register of an idle core stores its value, which then reads back; every other register reads
as before, and nothing but the register window and its validity bits changes. -/
def Obligations.StoredRegisterReadsBack : Prop :=
  ∀ (s : State) (off : BitVec 8) (d : Word), s.regs.status.busy = false → off.toNat % 4 = 0 →
    (winRegOf (off.toNat / 4)).busyLocked = true → winRegOf (off.toNat / 4) ≠ .cmd →
    ∃ t, portWrite 32 off d s = .next t ∧ t = { s with regs := t.regs, written := t.written } ∧
      portRead 32 off t = .next { t with rdata := some d } ∧
      ∀ r : WinReg, r ≠ winRegOf (off.toNat / 4) → t.regValue r = s.regValue r ∧ t.regWritten r = s.regWritten r

/-- R64: a register read changes nothing but what the host has been answered, and reading again answers the same. -/
def Obligations.RegisterReadsHaveNoSideEffect : Prop :=
  ∀ (s t : State) (off : BitVec 8), portRead 32 off s = .next t →
    (∃ d, t = { s with rdata := some d }) ∧ portRead 32 off t = .next t

/-- R22, R31, R34, R44: a read of CMD answers 0; FAULT_ADDR_LO and FAULT_ADDR_HI answer the two halves of the register; RESk
answers its word once it is written, and is UninitRead before. -/
def Obligations.CmdAndReadOnlyRegistersRead : Prop :=
  ∀ s : State,
    portRead 32 0x00#8 s = .next { s with rdata := some 0#32 } ∧
    portRead 32 0x38#8 s = .next { s with rdata := some s.regs.faultAddrLo } ∧
    portRead 32 0x3C#8 s = .next { s with rdata := some s.regs.faultAddrHi } ∧
    ∀ (k : Fin 16) (off : BitVec 8), off.toNat = 0xC0 + 4 * k.val →
      (s.written.res[k] = true → portRead 32 off s = .next { s with rdata := some s.regs.res[k] }) ∧
      (s.written.res[k] = false → portRead 32 off s = .fault .uninitRead)

/-- R35: reserved offsets read 0; a write to one, or to a read-only register, is ignored at any time and sets no DROP. -/
def Obligations.ReservedAndReadOnlyIgnoreWrites : Prop :=
  ∀ (s : State) (off : BitVec 8) (d : Word), off.toNat % 4 = 0 →
    ((off = 0x0C#8 ∨ off = 0x24#8 ∨ (0x60 ≤ off.toNat ∧ off.toNat ≤ 0x7C)) →
      portRead 32 off s = .next { s with rdata := some 0#32 } ∧ portWrite 32 off d s = .next s) ∧
    ((off = 0x38#8 ∨ off = 0x3C#8 ∨ 0xC0 ≤ off.toNat) → portWrite 32 off d s = .next s)

/-- R24: CTRL holds IE in bit 0, which a write sets whether or not BUSY = 1; bits 31:1 read 0 and ignore writes; reset clears
IE. -/
def Obligations.CtrlHoldsInterruptEnable : Prop :=
  (∀ (s : State) (d : Word),
    portWrite 32 0x08#8 d s = .next { s with regs := { s.regs with ie := d.getLsbD 0 } } ∧
    portRead 32 0x08#8 s = .next { s with rdata := some (0#31 ++ BitVec.ofBool s.regs.ie) }) ∧
  State.reset.regs.ie = false

/-- R23, R304: a write to STATUS clears DONE, ERR with CAUSE, and DROP where a 1 is written, and nothing else; a read answers BUSY,
DONE, ERR, DROP and CAUSE in their places, with bits 31:8 zero; the cause codes 0 to 5 are NONE, ILLEGAL_OP, RESERVED_FIELD,
BAD_BLOCK_LEN, BAD_BLOCKS and MEM_ERROR. -/
def Obligations.StatusIsWriteOneToClear : Prop :=
  ∀ (s : State) (d : Word),
    (∃ st, portWrite 32 0x04#8 d s = .next { s with regs := { s.regs with status := st } } ∧
      st.busy = s.regs.status.busy ∧
      st.done = (s.regs.status.done && !d.getLsbD 1) ∧
      st.err = (s.regs.status.err && !d.getLsbD 2) ∧
      st.drop = (s.regs.status.drop && !d.getLsbD 3) ∧
      st.cause = if d.getLsbD 2 then .none else s.regs.status.cause) ∧
    ∃ w, portRead 32 0x04#8 s = .next { s with rdata := some w } ∧
      w.getLsbD 0 = s.regs.status.busy ∧ w.getLsbD 1 = s.regs.status.done ∧
      w.getLsbD 2 = s.regs.status.err ∧ w.getLsbD 3 = s.regs.status.drop ∧
      w.extractLsb' 4 4 =
        (match s.regs.status.cause with
          | .none => 0#4
          | .illegalOp => 1#4
          | .reservedField => 2#4
          | .badBlockLen => 3#4
          | .badBlocks => 4#4
          | .memError => 5#4) ∧
      w.extractLsb' 8 24 = 0#24

/-- R350: while BUSY = 1 a write to a busy-locked register (CMD among them) is dropped: DROP is set and nothing else changes,
the running command included. Writes to STATUS and CTRL are never dropped: they do what they do at an idle core. -/
def Obligations.BusyLockDropsWrites : Prop :=
  ∀ (s : State) (d : Word), s.regs.status.busy = true →
    (∀ off : BitVec 8, off.toNat % 4 = 0 → (winRegOf (off.toNat / 4)).busyLocked = true →
      portWrite 32 off d s =
        .next { s with regs := { s.regs with status := { s.regs.status with drop := true } } }) ∧
    portWrite 32 0x04#8 d s =
      .next { s with regs := { s.regs with status :=
        { busy := s.regs.status.busy
          done := s.regs.status.done && !d.getLsbD 1
          err := s.regs.status.err && !d.getLsbD 2
          drop := s.regs.status.drop && !d.getLsbD 3
          cause := if d.getLsbD 2 then .none else s.regs.status.cause } } } ∧
    portWrite 32 0x08#8 d s = .next { s with regs := { s.regs with ie := d.getLsbD 0 } }

/-- R44, R302, R303, R308, R340: reading or consuming a register with `written = 0` is UninitRead, and nothing else is. Reset
clears the bit of every register with an unspecified reset value. A register read answers the register's value where it is
written, and is UninitRead where it is not. So is a command at an idle core, if its check 3 or 4 would read an unwritten
register or passes with another operand register unwritten. A step is UninitRead in these two cases alone. -/
def Obligations.UnwrittenRegistersStop : Prop :=
  (∀ s : State, ∃ t, runTurn .reset s = .next t ∧
    ∀ r : WinReg, (r.busyLocked = true ∧ r ≠ .cmd ∨ ∃ k, r = .res k) → t.regWritten r = false) ∧
  (∀ (s : State) (off : BitVec 8), off.toNat % 4 = 0 →
    let r := winRegOf (off.toNat / 4)
    (s.regWritten r = true → portRead 32 off s = .next { s with rdata := some (s.regValue r) }) ∧
    (s.regWritten r = false → portRead 32 off s = .fault .uninitRead)) ∧
  (∀ (i : Instr) (s : State), s.regs.status.busy = false → ¬OperandsWritten i s.written →
    (match i with
      | .compress _ | .compressXof _ => s.written.blockLen = true → s.regs.blockLen ≤ 64#32
      | .hashMany _ _ _ _ => s.written.blocks = true → s.regs.blocks ≠ 0#32) →
    exec i s = .fault .uninitRead) ∧
  ∀ s : State, step s = .fault .uninitRead →
    (∃ off rest, s.turns = .regRead 32 off :: rest ∧ s.regWritten (winRegOf (off.toNat / 4)) = false) ∨
    ∃ d i rest, s.turns = .regWrite 32 0x00#8 d :: rest ∧ decode d = .command i ∧ s.regs.status.busy = false ∧
      ¬OperandsWritten i s.written

/-- R43, R310: irq is a level: IE with DONE or ERR; acknowledging both bits, an accepted command, or IE = 0 takes it away. -/
def Obligations.IrqFollowsStatusAndEnable : Prop :=
  (∀ s : State, s.irq = true ↔ s.regs.ie = true ∧ (s.regs.status.done = true ∨ s.regs.status.err = true)) ∧
  (∀ (s t : State) (d : Word), portWrite 32 0x04#8 d s = .next t → d.getLsbD 1 = true → d.getLsbD 2 = true →
    t.irq = false) ∧
  ∀ (i : Instr) (s t : State), exec i s = .next t → s.regs.status.busy = false →
    t.regs.status.busy = true → t.irq = false

/-! ### HASH_MANY, phase by phase -/

/-- R263: with NUM_INPUTS = 0 the command makes no memory access and completes in the step after acceptance; BLOCKS = 0 is
rejected even so. -/
def Obligations.NoInputsCompletesAtOnce : Prop :=
  ∀ (s : State) (inc : Bool) (flags fs fe : Byte), s.regs.numInputs = 0#32 →
    (s.BatchReady →
      ∃ t u, exec (.hashMany inc flags fs fe) s = .next t ∧ t.nextAccess = none ∧ t.regs.status.busy = true ∧
        coreStep t = .next u ∧ u.mem = s.mem ∧ u.accesses = { read := [], written := [] } ∧
        u.seq.phase = .idle ∧
        u.regs =
          { s.regs with
            status := { busy := false, done := true, err := false, drop := s.regs.status.drop, cause := .none } }) ∧
    (s.regs.status.busy = false → s.written.blocks = true → s.regs.blocks = 0#32 →
      exec (.hashMany inc flags fs fe) s =
        .next { s with regs := { s.regs with status :=
          { s.regs.status with done := false, err := true, cause := .badBlocks } } })

/-- R262, R73: HM_PTR reads the eight bytes of the input's table entry in ascending address order, one in each step,
little-endian, into `base`, and takes `cv` from the job. -/
def Obligations.HmPtrReadsTheTableEntry : Prop :=
  ∀ s : State, s.seq.phase = .hmPtr → s.seq.k = 0 →
    (∀ n < 8, s.admits (tableAddr s.job s.seq.i n) .read = true ∧
      (tableAddr s.job s.seq.i n).toNat ∉ s.accesses.written) →
    (∀ n < 8, ∃ u, coreRun n s = .next u ∧ u.nextAccess = some (tableAddr s.job s.seq.i n, .read)) ∧
    ∃ t, coreRun 8 s = .next t ∧
      t = { s with seq := t.seq, accesses := t.accesses } ∧ t.accesses.written = s.accesses.written ∧
      t.seq = { s.seq with base := t.seq.base, cv := s.job.cv, j := 0#32, k := 0, phase := .hmBlock } ∧
      ∀ n : Fin 8, t.seq.base.extractLsb' (8 * n.val) 8 = s.memByte (tableAddr s.job s.seq.i n.val)

/-- R264, R73: HM_BLOCK reads the 64 bytes of the block, in ascending address order, one in each step, into the block buffer. -/
def Obligations.HmBlockReadsTheBlock : Prop :=
  ∀ s : State, s.seq.phase = .hmBlock → s.seq.k = 0 →
    (∀ n < 64, s.admits (blockAddr s.seq.base s.seq.j n) .read = true ∧
      (blockAddr s.seq.base s.seq.j n).toNat ∉ s.accesses.written) →
    (∀ n < 64, ∃ u, coreRun n s = .next u ∧ u.nextAccess = some (blockAddr s.seq.base s.seq.j n, .read)) ∧
    ∃ t, coreRun 64 s = .next t ∧
      t = { s with seq := t.seq, accesses := t.accesses } ∧ t.accesses.written = s.accesses.written ∧
      t.seq = { s.seq with buf := t.seq.buf, k := 0, phase := .hmMix } ∧
      ∀ b : Fin 64, t.seq.buf[b] = s.memByte (blockAddr s.seq.base s.seq.j b.val)

/-- R97, R266, R267: HM_MIX compresses the buffered block with block length 64, the driver's counter and the block's flags,
feeds the result forward, and moves on to the next block, or to HM_WRITE after the last. That it takes nine steps, where R261
allows one step or nine, is the model's choice (notes/assumptions/14.md). -/
def Obligations.HmMixCompressesTheBlock : Prop :=
  ∀ s : State, s.seq.phase = .hmMix → s.seq.loaded = false →
    ∃ t, coreRun 9 s = .next t ∧ t = { s with pipe := t.pipe, seq := t.seq } ∧
      t.seq.cv =
        compressFn
          { cv := s.seq.cv, block := s.seq.buf, blockLen := 64#32, counter := s.seq.ctr
            flags :=
              s.job.flags ||| (if s.seq.j = 0#32 then s.job.fs else 0#8) |||
                (if s.seq.j = s.job.blocks - 1#32 then s.job.fe else 0#8) } ∧
      t.seq.j = s.seq.j + 1#32 ∧
      (t.seq.phase = if s.seq.j + 1#32 < s.job.blocks then .hmBlock else .hmWrite) ∧
      t.seq.i = s.seq.i ∧ t.seq.ctr = s.seq.ctr ∧ t.seq.k = s.seq.k ∧ t.seq.base = s.seq.base

/-- R68, R268, R73: HM_WRITE writes the 32 digest bytes, little-endian words in order, at `job.outptr + 32*i`, in ascending
address order, one in each step, and every other byte of system memory reads as before. -/
def Obligations.HmWriteWritesTheDigest : Prop :=
  ∀ s : State, s.seq.phase = .hmWrite → s.seq.k = 0 →
    (∀ n < 32, s.admits (digestAddr s.job s.seq.i n) .write = true ∧
      (digestAddr s.job s.seq.i n).toNat ∉ s.accesses.read) →
    (∀ n < 32, ∃ u, coreRun n s = .next u ∧ u.nextAccess = some (digestAddr s.job s.seq.i n, .write)) ∧
    ∃ t, coreRun 32 s = .next t ∧
      t = { s with seq := t.seq, accesses := t.accesses, mem := t.mem } ∧
      t.seq = { s.seq with k := 0, phase := .hmNext } ∧
      (∀ n : Fin 32, t.memByte (digestAddr s.job s.seq.i n.val) =
        (s.seq.cv[n.val / 4]'(by omega)).extractLsb' (8 * (n.val % 4)) 8) ∧
      ∀ a, (∀ n < 32, a ≠ digestAddr s.job s.seq.i n) → t.memByte a = s.memByte a

/-- R269, R271: HM_NEXT advances the counter by one modulo 2^64 when INC = 1, and the input index; the next phase is HM_PTR
while inputs remain; after the last, one step completes the command. That the phase between the last input's HM_NEXT and the
completion is HM_NEXT with i = NUM_INPUTS is the model's (notes/assumptions/6.md). -/
def Obligations.HmNextAdvancesOrCompletes : Prop :=
  ∀ s : State, s.seq.phase = .hmNext →
    (s.seq.i < s.job.numInputs →
      coreStep s =
        .next { s with seq :=
          { s.seq with
            ctr := if s.job.inc then s.seq.ctr + 1#64 else s.seq.ctr
            i := s.seq.i + 1#32
            phase := if s.seq.i + 1#32 < s.job.numInputs then .hmPtr else .hmNext } }) ∧
    (¬s.seq.i < s.job.numInputs →
      ∃ t, coreStep s = .next t ∧ t.seq.phase = .idle ∧ t.mem = s.mem ∧ t.written = s.written ∧
        t.regs = { s.regs with status := { s.regs.status with busy := false, done := true } })

/-- R306, R307: when the platform refuses the driver's byte access at `a`, that step ends the command: BUSY 0, DONE 0, ERR 1,
CAUSE code 5, FAULT_ADDR the address, phase IDLE, every other register and system memory as before, and no further access
follows. That the other sequencer fields and the record of accesses keep what they held is the model's
(notes/assumptions/6.md). -/
def Obligations.RefusedAccessAborts : Prop :=
  ∀ (s : State) (a : Addr) (kind : AccessKind), s.nextAccess = some (a, kind) → s.admits a kind = false →
    ∃ t, coreStep s = .next t ∧ t.nextAccess = none ∧ coreStep t = .next t ∧
      t.regs.status.toWord.extractLsb' 4 4 = 5#4 ∧
      t =
        { s with
          regs :=
            { s.regs with
              status := { s.regs.status with busy := false, done := false, err := true, cause := .memError }
              faultAddrLo := a.extractLsb' 0 32
              faultAddrHi := a.extractLsb' 32 32 }
          seq := { s.seq with phase := .idle } }

/-- R76: an admitted read of a byte the command has written, or write of a byte it has read, is Overlap at that access; every
admitted access that goes through is recorded, and acceptance starts the record empty. That a refused access aborts before the
contract is looked at is the model's reading (notes/assumptions/7.md). -/
def Obligations.OverlapStopsAtTheAccess : Prop :=
  (∀ (s : State) (a : Addr), s.nextAccess = some (a, .read) → s.admits a .read = true →
    (a.toNat ∈ s.accesses.written → coreStep s = .fault .overlap) ∧
    (a.toNat ∉ s.accesses.written → ∃ t, coreStep s = .next t ∧
      (∀ x, x ∈ t.accesses.read ↔ x = a.toNat ∨ x ∈ s.accesses.read) ∧
      t.accesses.written = s.accesses.written)) ∧
  (∀ (s : State) (a : Addr), s.nextAccess = some (a, .write) → s.admits a .write = true →
    (a.toNat ∈ s.accesses.read → coreStep s = .fault .overlap) ∧
    (a.toNat ∉ s.accesses.read → ∃ t, coreStep s = .next t ∧
      (∀ x, x ∈ t.accesses.written ↔ x = a.toNat ∨ x ∈ s.accesses.written) ∧
      t.accesses.read = s.accesses.read)) ∧
  ∀ (i : Instr) (s t : State), exec i s = .next t → s.regs.status.busy = false →
    t.regs.status.busy = true → t.accesses = { read := [], written := [] }

/-- R65, R68: the frame of a core step on system memory. It stores to the byte its next write access names and to no other; a
step with no write access leaves every byte as it was. -/
def Obligations.CoreStoresOnlyTheDigestByte : Prop :=
  ∀ s t : State, coreStep s = .next t →
    (∀ a, s.nextAccess = some (a, .write) → ∀ x, x ≠ a → t.memByte x = s.memByte x) ∧
    (∀ a, s.nextAccess = some (a, .write) → s.admits a .write = true → s.seq.k.val < 32 →
      t.memByte a = digestByte s.seq.cv (Fin.ofNat 32 s.seq.k.val)) ∧
    (∀ a, s.nextAccess = some (a, .write) → s.admits a .write = false → t.memByte a = s.memByte a) ∧
    ((∀ a, s.nextAccess ≠ some (a, .write)) → ∀ x, t.memByte x = s.memByte x)

/-- R271, R307: the frame of a core step of HASH_MANY. No register but STATUS changes, unless the step is an abort, which sets
FAULT_ADDR as well; the validity bits, the job, the platform and the host's side stay as they are. -/
def Obligations.HashManyWritesNoOtherRegister : Prop :=
  ∀ s t : State, s.seq.phase.ofBatch = true → coreStep s = .next t →
    t.written = s.written ∧ t.job = s.job ∧ t.refused = s.refused ∧ t.turns = s.turns ∧
    t.rdata = s.rdata ∧ t.mdata = s.mdata ∧
    (t.regs = { s.regs with status := t.regs.status } ∨
      ∃ a kind, s.nextAccess = some (a, kind) ∧ s.admits a kind = false ∧
        t.regs =
          { s.regs with
            status := t.regs.status, faultAddrLo := a.extractLsb' 0 32, faultAddrHi := a.extractLsb' 32 32 })

/-- R266, D9: BLOCK_LEN and BLK are neither read nor checked by HASH_MANY: with other values in them, written or not, the
command is accepted or rejected in the same way and latches the same job. -/
def Obligations.HashManyIgnoresBlockLenAndBlk : Prop :=
  ∀ (s t : State) (inc : Bool) (flags fs fe : Byte) (len : Word) (blk : Words16) (w : Bool) (wb : Vector Bool 16),
    exec (.hashMany inc flags fs fe) s = .next t →
    exec (.hashMany inc flags fs fe)
        { s with
          regs := { s.regs with blockLen := len, blk := blk }
          written := { s.written with blockLen := w, blk := wb } } =
      .next
        { t with
          regs := { t.regs with blockLen := len, blk := blk }
          written := { t.written with blockLen := w, blk := wb } }

/-! ### HASH_MANY as a whole -/

/-- R260, R270, R271, R355: from every state in which HASH_MANY is accepted, if every byte the batch reads or writes is admitted
and none is both, then after `NUM_INPUTS * (8 + BLOCKS * (64 + 9) + 32 + 1) + 1` core steps (R355's "at most"; the count is exact
because HM_MIX takes nine steps, the model's choice, notes/assumptions/14.md) the command is done: the digest of every input
stands in its slice of the output buffer, every other byte of system memory reads as before, and no register but STATUS has
changed. -/
def Obligations.HashManyWritesEveryDigest : Prop :=
  ∀ (s : State) (inc : Bool) (flags fs fe : Byte), s.BatchReady →
    ∃ t, exec (.hashMany inc flags fs fe) s = .next t ∧
      (t.BatchContract →
        ∃ u, coreRun (batchSteps s.regs.numInputs s.regs.blocks) t = .next u ∧
          u.seq.phase = .idle ∧
          u.regs =
            { s.regs with
              status := { busy := false, done := true, err := false, drop := s.regs.status.drop, cause := .none } } ∧
          u.written = s.written ∧
          (∀ (i : Word) (b : Fin 32), i < s.regs.numInputs →
            u.memByte (digestAddr t.job i b.val) = digestByte (t.inputDigest i) b) ∧
          ∀ a, ¬t.BatchWritesByte a → u.memByte a = s.memByte a)

/-- R355: every accepted HASH_MANY is BUSY, and leaves BUSY within the bound, on any platform and any memory, unless it breaks
the overlap contract, which is a model fault within the bound. -/
def Obligations.HashManyEndsWithinTheBound : Prop :=
  ∀ (s : State) (inc : Bool) (flags fs fe : Byte), s.BatchReady →
    ∃ t, exec (.hashMany inc flags fs fe) s = .next t ∧ t.regs.status.busy = true ∧ t.seq.phase.ofBatch = true ∧
      ∃ n, n ≤ batchSteps s.regs.numInputs s.regs.blocks ∧
        ((∃ u, coreRun n t = .next u ∧ u.regs.status.busy = false ∧ u.seq.phase = .idle) ∨
          coreRun n t = .fault .overlap)

/-- R274, first equivalence: the digest of a single-block input is what COMPRESS computes from the key, the block, length 64,
the input's counter and the three flag fields together. -/
def Obligations.SingleBlockDigestIsOneCompression : Prop :=
  ∀ (s : State) (i : Word), s.job.blocks = 1#32 →
    s.inputDigest i =
      compressFn
        { cv := s.job.cv, block := s.inputBlock i 0#32, blockLen := 64#32, counter := inputCounter s.job i
          flags := s.job.flags ||| s.job.fs ||| s.job.fe }

/-- R274, second equivalence: the digest of a two-block input is two chained compressions, the first with the start flag and the
second with the end flag, both with the input's counter. -/
def Obligations.TwoBlockDigestIsTwoChainedCompressions : Prop :=
  ∀ (s : State) (i : Word), s.job.blocks = 2#32 →
    s.inputDigest i =
      compressFn
        { cv :=
            compressFn
              { cv := s.job.cv, block := s.inputBlock i 0#32, blockLen := 64#32
                counter := inputCounter s.job i, flags := s.job.flags ||| s.job.fs }
          block := s.inputBlock i 1#32, blockLen := 64#32, counter := inputCounter s.job i
          flags := s.job.flags ||| s.job.fe }

/-! ### The host's memory accesses -/

/-- R75: while a HASH_MANY runs, a host write to a byte the command reads or writes, and a host read of a byte it writes, are
HostRace; every other host access does what it says and changes nothing else. That the bytes read are those of the whole batch,
with the table pointers as memory now holds them, is the model's reading (notes/assumptions/7.md), and so is that the platform's
admission does not bear on the host's accesses (notes/assumptions/13.md). That the host sees the bytes written from the end of
the command on (its completion, a MEM_ERROR abort or reset), before it has observed BUSY = 0, is the model's choice
(notes/assumptions/18.md). -/
def Obligations.HostRaceStops : Prop :=
  ∀ (s : State) (a : Addr) (b : Byte),
    let running : Prop := s.regs.status.busy = true ∧ s.job.op = .hashMany
    (running → s.BatchReadsByte a ∨ s.BatchWritesByte a → hostMemWrite a b s = .fault .hostRace) ∧
    (running → s.BatchWritesByte a → hostMemRead a s = .fault .hostRace) ∧
    (¬(running ∧ (s.BatchReadsByte a ∨ s.BatchWritesByte a)) →
      ∃ m, hostMemWrite a b s = .next { s with mem := m } ∧ ({ s with mem := m } : State).memByte a = b ∧
        ∀ x, x ≠ a → ({ s with mem := m } : State).memByte x = s.memByte x) ∧
    (¬(running ∧ s.BatchWritesByte a) →
      hostMemRead a s = .next { s with mdata := some (s.memByte a) })

/-! ### Invariants of every step -/

/-- R313, with R300: the STATUS invariants hold after every step from a state in which they hold and the phase agrees with
BUSY, and the phase then agrees again. -/
def Obligations.StepKeepsStatusInvariants : Prop :=
  ∀ s t : State, s.regs.status.Ok → s.PhaseAgrees → step s = .next t → t.regs.status.Ok ∧ t.PhaseAgrees

/-- System memory and the record of accesses keep their canonical form in every step (the form is the model's,
notes/assumptions/4.md and 7.md). -/
def Obligations.StepKeepsMemoryCanonical : Prop :=
  ∀ s t : State, s.MemoryCanonical → step s = .next t → t.MemoryCanonical

/-- R40, R182, R261: every step keeps the latched job legal for the phase and the indices within the counts they index: below
them, but for i in HM_NEXT, which may equal NUM_INPUTS while the completion is to come. That case and the field `loaded`, false
outside a compression, are the model's (notes/assumptions/6.md). -/
def Obligations.StepKeepsSequencerLegal : Prop :=
  ∀ s t : State, s.SequencerLegal → step s = .next t → t.SequencerLegal

/-- R270: every step keeps the driver's counter equal to the counter of the input it is at, and the compression of HM_MIX takes
that counter. That i may equal NUM_INPUTS in HM_NEXT is the model's (notes/assumptions/6.md). -/
def Obligations.StepKeepsCounterOfTheInput : Prop :=
  ∀ s t : State, s.CounterAgrees → step s = .next t →
    t.CounterAgrees ∧ (t.seq.phase = .hmMix → t.seq.mixInput.counter = inputCounter t.job t.seq.i)

/-- The invariants hold at reset (R340, R341). The canonical form of system memory and of the record of accesses is the model's
(notes/assumptions/4.md and 7.md), and so is what the legality of the sequencer says of `loaded` and of i in HM_NEXT
(notes/assumptions/6.md). -/
def Obligations.ResetMeetsTheInvariants : Prop :=
  State.reset.regs.status.Ok ∧ State.reset.PhaseAgrees ∧ State.reset.MemoryCanonical ∧
    State.reset.SequencerLegal ∧ State.reset.CounterAgrees

/-- R31: FAULT_ADDR changes only in a core step that is a MEM_ERROR abort, which sets it to the refused address, and on reset,
which sets both halves to 0. -/
def Obligations.FaultAddressChangesOnlyOnAbortOrReset : Prop :=
  ∀ s t : State, step s = .next t →
    (t.regs.faultAddrLo = s.regs.faultAddrLo ∧ t.regs.faultAddrHi = s.regs.faultAddrHi) ∨
    (∃ a kind, s.nextAccess = some (a, kind) ∧ s.admits a kind = false ∧
      t.regs.faultAddrHi ++ t.regs.faultAddrLo = a ∧ t.seq.phase = .idle ∧
      t.regs.status =
        { busy := false, done := false, err := true, drop := s.regs.status.drop, cause := .memError } ∧
      (s.turns = [] ∨ ∃ rest, s.turns = .core :: rest)) ∨
    ((∃ rest, s.turns = .reset :: rest) ∧ t.regs.faultAddrLo = 0#32 ∧ t.regs.faultAddrHi = 0#32)

/-- R319, R341: an idle core leaves IDLE only in a step that is a 32-bit write to CMD of a word that decodes to an
instruction. -/
def Obligations.IdleIsLeftOnlyByACommand : Prop :=
  ∀ s t : State, s.seq.phase = .idle → step s = .next t → t.seq.phase ≠ .idle →
    ∃ (d : Word) (i : Instr) (rest : List Turn),
      s.turns = .regWrite 32 0x00#8 d :: rest ∧ decode d = .command i ∧ t.regs.status.busy = true

/-- R221, R303, R311, R350: while a command runs, no turn of another agent but reset changes it: the job, the sequencer, the
datapath and the record of accesses stay as they are, and of the register window only DONE, ERR, DROP and CAUSE of STATUS, and
IE, can change. -/
def Obligations.OthersCannotDisturbARunningCommand : Prop :=
  ∀ (s t : State) (τ : Turn) (rest : List Turn), s.regs.status.busy = true → s.turns = τ :: rest →
    τ ≠ .core → τ ≠ .reset → step s = .next t →
    t.job = s.job ∧ t.seq = s.seq ∧ t.pipe = s.pipe ∧ t.accesses = s.accesses ∧ t.written = s.written ∧
    t.refused = s.refused ∧ t.regs.status.busy = true ∧
    t.regs = { s.regs with status := t.regs.status, ie := t.regs.ie }

/-! ### Reset and the step -/

/-- R340: the reset event, from any state, whatever is running: STATUS, CTRL and FAULT_ADDR are zero, irq is low, every
validity bit is clear, the phase is IDLE with no access to come, and system memory, the platform and the host's side are not
touched. -/
def Obligations.ResetEventClearsTheCore : Prop :=
  ∀ (s : State) (rest : List Turn), s.turns = .reset :: rest →
    ∃ t, step s = .next t ∧ t.regs.status.toWord = 0#32 ∧ t.regs.ie = false ∧ t.irq = false ∧
      t.regs.faultAddrLo = 0#32 ∧ t.regs.faultAddrHi = 0#32 ∧ t.seq.phase = .idle ∧ t.nextAccess = none ∧
      (∀ k : Fin 8, t.written.cv[k] = false) ∧ (∀ k : Fin 16, t.written.blk[k] = false) ∧
      (∀ k : Fin 16, t.written.res[k] = false) ∧ t.written.blockLen = false ∧
      t.written.counterLo = false ∧ t.written.counterHi = false ∧ t.written.numInputs = false ∧
      t.written.blocks = false ∧ t.written.inptrLo = false ∧ t.written.inptrHi = false ∧
      t.written.outptrLo = false ∧ t.written.outptrHi = false ∧
      t.mem = s.mem ∧ t.refused = s.refused ∧ t.turns = rest ∧ t.rdata = s.rdata ∧ t.mdata = s.mdata

/-- R90, R301, R302: when the next turn is a 32-bit write to CMD of a word that decodes to an instruction, the step is that
instruction's `exec` on the state with the turn taken away. A word that decodes to none is dropped while BUSY = 1, and else
rejected: DONE 0, ERR 1 and the cause of the decoder's reason, nothing else changed. -/
def Obligations.StepRunsTheDecodedCommand : Prop :=
  ∀ (s : State) (d : Word) (rest : List Turn), s.turns = .regWrite 32 0x00#8 d :: rest →
    (∀ i, decode d = .command i → step s = exec i { s with turns := rest }) ∧
    (∀ e, decode d = .rejected e → s.regs.status.busy = true →
      step s =
        .next { s with turns := rest, regs := { s.regs with status := { s.regs.status with drop := true } } }) ∧
    ∀ e, decode d = .rejected e → s.regs.status.busy = false →
      step s =
        .next
          { s with
            turns := rest
            regs :=
              { s.regs with
                status :=
                  { s.regs.status with
                    done := false
                    err := true
                    cause :=
                      match e with
                      | .illegalOp => .illegalOp
                      | .reservedField => .reservedField } } }

/-- R5, R60, R355: when no turn is pending, or the next turn is the core's, the step is one core step; when the next turn is a
register transaction or a memory access of the host, the step is that one action (reset and WAITIDLE have statements of their
own). That the order is the list of pending turns is the model's form of the interleaving (notes/assumptions/9.md). -/
def Obligations.StepTakesTheNextTurn : Prop :=
  (∀ s : State, s.turns = [] → step s = coreStep s) ∧
  (∀ (s : State) (rest : List Turn), s.turns = .core :: rest → step s = coreStep { s with turns := rest }) ∧
  (∀ (s : State) (rest : List Turn) (width : Nat) (off : BitVec 8) (d : Word),
    s.turns = .regWrite width off d :: rest → step s = portWrite width off d { s with turns := rest }) ∧
  (∀ (s : State) (rest : List Turn) (width : Nat) (off : BitVec 8),
    s.turns = .regRead width off :: rest → step s = portRead width off { s with turns := rest }) ∧
  (∀ (s : State) (rest : List Turn) (a : Addr) (b : Byte),
    s.turns = .memWrite a b :: rest → step s = hostMemWrite a b { s with turns := rest }) ∧
  ∀ (s : State) (rest : List Turn) (a : Addr),
    s.turns = .memRead a :: rest → step s = hostMemRead a { s with turns := rest }

/-- R100, R355: WAITIDLE ends: from a state in which a COMPRESS or COMPRESS_XOF has just been accepted with WAITIDLE as the next
turn, the loop is over after its tenth poll, that is after 19 steps, and STATUS then says DONE. The fair schedule (one core step between two
polls) is the model's (notes/assumptions/9.md). -/
def Obligations.WaitIdleEndsAfterACompression : Prop :=
  ∀ (s t : State) (i : Instr) (flags : Byte) (rest : List Turn), s.CompressReady →
    i = .compress flags ∨ i = .compressXof flags → s.turns = .waitIdle :: rest → exec i s = .next t →
    ∃ u, Sys2Proof.core.run 19 t = .next u ∧ u.turns = rest ∧ u.regs.status.busy = false ∧
      u.regs.status.done = true ∧ u.rdata = some u.regs.status.toWord
end

