-- ==== Sys2Proof/Laws/State.lean ====
section
/-!
SUPPORT. One lemma per field per update of the state, so that no proof unfolds a record update.
-/

namespace Sys2Proof.Machine

/-! `withRegs` -/

@[simp] theorem State.withRegs_regs (s : State) (r : Regs) : (s.withRegs r).regs = r := rfl
@[simp] theorem State.withRegs_written (s : State) (r : Regs) : (s.withRegs r).written = s.written := rfl
@[simp] theorem State.withRegs_pipe (s : State) (r : Regs) : (s.withRegs r).pipe = s.pipe := rfl
@[simp] theorem State.withRegs_job (s : State) (r : Regs) : (s.withRegs r).job = s.job := rfl
@[simp] theorem State.withRegs_seq (s : State) (r : Regs) : (s.withRegs r).seq = s.seq := rfl
@[simp] theorem State.withRegs_accesses (s : State) (r : Regs) : (s.withRegs r).accesses = s.accesses := rfl
@[simp] theorem State.withRegs_mem (s : State) (r : Regs) : (s.withRegs r).mem = s.mem := rfl
@[simp] theorem State.withRegs_refused (s : State) (r : Regs) : (s.withRegs r).refused = s.refused := rfl
@[simp] theorem State.withRegs_turns (s : State) (r : Regs) : (s.withRegs r).turns = s.turns := rfl
@[simp] theorem State.withRegs_rdata (s : State) (r : Regs) : (s.withRegs r).rdata = s.rdata := rfl
@[simp] theorem State.withRegs_mdata (s : State) (r : Regs) : (s.withRegs r).mdata = s.mdata := rfl

/-! `withStatus` -/

@[simp] theorem State.withStatus_regs (s : State) (st : Status) : (s.withStatus st).regs = { s.regs with status := st } := rfl
@[simp] theorem State.withStatus_written (s : State) (st : Status) : (s.withStatus st).written = s.written := rfl
@[simp] theorem State.withStatus_pipe (s : State) (st : Status) : (s.withStatus st).pipe = s.pipe := rfl
@[simp] theorem State.withStatus_job (s : State) (st : Status) : (s.withStatus st).job = s.job := rfl
@[simp] theorem State.withStatus_seq (s : State) (st : Status) : (s.withStatus st).seq = s.seq := rfl
@[simp] theorem State.withStatus_accesses (s : State) (st : Status) : (s.withStatus st).accesses = s.accesses := rfl
@[simp] theorem State.withStatus_mem (s : State) (st : Status) : (s.withStatus st).mem = s.mem := rfl
@[simp] theorem State.withStatus_refused (s : State) (st : Status) : (s.withStatus st).refused = s.refused := rfl
@[simp] theorem State.withStatus_turns (s : State) (st : Status) : (s.withStatus st).turns = s.turns := rfl
@[simp] theorem State.withStatus_rdata (s : State) (st : Status) : (s.withStatus st).rdata = s.rdata := rfl
@[simp] theorem State.withStatus_mdata (s : State) (st : Status) : (s.withStatus st).mdata = s.mdata := rfl

/-! `withWritten` -/

@[simp] theorem State.withWritten_regs (s : State) (w : Written) : (s.withWritten w).regs = s.regs := rfl
@[simp] theorem State.withWritten_written (s : State) (w : Written) : (s.withWritten w).written = w := rfl
@[simp] theorem State.withWritten_pipe (s : State) (w : Written) : (s.withWritten w).pipe = s.pipe := rfl
@[simp] theorem State.withWritten_job (s : State) (w : Written) : (s.withWritten w).job = s.job := rfl
@[simp] theorem State.withWritten_seq (s : State) (w : Written) : (s.withWritten w).seq = s.seq := rfl
@[simp] theorem State.withWritten_accesses (s : State) (w : Written) : (s.withWritten w).accesses = s.accesses := rfl
@[simp] theorem State.withWritten_mem (s : State) (w : Written) : (s.withWritten w).mem = s.mem := rfl
@[simp] theorem State.withWritten_refused (s : State) (w : Written) : (s.withWritten w).refused = s.refused := rfl
@[simp] theorem State.withWritten_turns (s : State) (w : Written) : (s.withWritten w).turns = s.turns := rfl
@[simp] theorem State.withWritten_rdata (s : State) (w : Written) : (s.withWritten w).rdata = s.rdata := rfl
@[simp] theorem State.withWritten_mdata (s : State) (w : Written) : (s.withWritten w).mdata = s.mdata := rfl

/-! `withPipe` -/

@[simp] theorem State.withPipe_regs (s : State) (p : Pipe) : (s.withPipe p).regs = s.regs := rfl
@[simp] theorem State.withPipe_written (s : State) (p : Pipe) : (s.withPipe p).written = s.written := rfl
@[simp] theorem State.withPipe_pipe (s : State) (p : Pipe) : (s.withPipe p).pipe = p := rfl
@[simp] theorem State.withPipe_job (s : State) (p : Pipe) : (s.withPipe p).job = s.job := rfl
@[simp] theorem State.withPipe_seq (s : State) (p : Pipe) : (s.withPipe p).seq = s.seq := rfl
@[simp] theorem State.withPipe_accesses (s : State) (p : Pipe) : (s.withPipe p).accesses = s.accesses := rfl
@[simp] theorem State.withPipe_mem (s : State) (p : Pipe) : (s.withPipe p).mem = s.mem := rfl
@[simp] theorem State.withPipe_refused (s : State) (p : Pipe) : (s.withPipe p).refused = s.refused := rfl
@[simp] theorem State.withPipe_turns (s : State) (p : Pipe) : (s.withPipe p).turns = s.turns := rfl
@[simp] theorem State.withPipe_rdata (s : State) (p : Pipe) : (s.withPipe p).rdata = s.rdata := rfl
@[simp] theorem State.withPipe_mdata (s : State) (p : Pipe) : (s.withPipe p).mdata = s.mdata := rfl

/-! `withJob` -/

@[simp] theorem State.withJob_regs (s : State) (j : Job) : (s.withJob j).regs = s.regs := rfl
@[simp] theorem State.withJob_written (s : State) (j : Job) : (s.withJob j).written = s.written := rfl
@[simp] theorem State.withJob_pipe (s : State) (j : Job) : (s.withJob j).pipe = s.pipe := rfl
@[simp] theorem State.withJob_job (s : State) (j : Job) : (s.withJob j).job = j := rfl
@[simp] theorem State.withJob_seq (s : State) (j : Job) : (s.withJob j).seq = s.seq := rfl
@[simp] theorem State.withJob_accesses (s : State) (j : Job) : (s.withJob j).accesses = s.accesses := rfl
@[simp] theorem State.withJob_mem (s : State) (j : Job) : (s.withJob j).mem = s.mem := rfl
@[simp] theorem State.withJob_refused (s : State) (j : Job) : (s.withJob j).refused = s.refused := rfl
@[simp] theorem State.withJob_turns (s : State) (j : Job) : (s.withJob j).turns = s.turns := rfl
@[simp] theorem State.withJob_rdata (s : State) (j : Job) : (s.withJob j).rdata = s.rdata := rfl
@[simp] theorem State.withJob_mdata (s : State) (j : Job) : (s.withJob j).mdata = s.mdata := rfl

/-! `withSeq` -/

@[simp] theorem State.withSeq_regs (s : State) (q : Seq) : (s.withSeq q).regs = s.regs := rfl
@[simp] theorem State.withSeq_written (s : State) (q : Seq) : (s.withSeq q).written = s.written := rfl
@[simp] theorem State.withSeq_pipe (s : State) (q : Seq) : (s.withSeq q).pipe = s.pipe := rfl
@[simp] theorem State.withSeq_job (s : State) (q : Seq) : (s.withSeq q).job = s.job := rfl
@[simp] theorem State.withSeq_seq (s : State) (q : Seq) : (s.withSeq q).seq = q := rfl
@[simp] theorem State.withSeq_accesses (s : State) (q : Seq) : (s.withSeq q).accesses = s.accesses := rfl
@[simp] theorem State.withSeq_mem (s : State) (q : Seq) : (s.withSeq q).mem = s.mem := rfl
@[simp] theorem State.withSeq_refused (s : State) (q : Seq) : (s.withSeq q).refused = s.refused := rfl
@[simp] theorem State.withSeq_turns (s : State) (q : Seq) : (s.withSeq q).turns = s.turns := rfl
@[simp] theorem State.withSeq_rdata (s : State) (q : Seq) : (s.withSeq q).rdata = s.rdata := rfl
@[simp] theorem State.withSeq_mdata (s : State) (q : Seq) : (s.withSeq q).mdata = s.mdata := rfl

/-! `withAccesses` -/

@[simp] theorem State.withAccesses_regs (s : State) (a : Accesses) : (s.withAccesses a).regs = s.regs := rfl
@[simp] theorem State.withAccesses_written (s : State) (a : Accesses) : (s.withAccesses a).written = s.written := rfl
@[simp] theorem State.withAccesses_pipe (s : State) (a : Accesses) : (s.withAccesses a).pipe = s.pipe := rfl
@[simp] theorem State.withAccesses_job (s : State) (a : Accesses) : (s.withAccesses a).job = s.job := rfl
@[simp] theorem State.withAccesses_seq (s : State) (a : Accesses) : (s.withAccesses a).seq = s.seq := rfl
@[simp] theorem State.withAccesses_accesses (s : State) (a : Accesses) : (s.withAccesses a).accesses = a := rfl
@[simp] theorem State.withAccesses_mem (s : State) (a : Accesses) : (s.withAccesses a).mem = s.mem := rfl
@[simp] theorem State.withAccesses_refused (s : State) (a : Accesses) : (s.withAccesses a).refused = s.refused := rfl
@[simp] theorem State.withAccesses_turns (s : State) (a : Accesses) : (s.withAccesses a).turns = s.turns := rfl
@[simp] theorem State.withAccesses_rdata (s : State) (a : Accesses) : (s.withAccesses a).rdata = s.rdata := rfl
@[simp] theorem State.withAccesses_mdata (s : State) (a : Accesses) : (s.withAccesses a).mdata = s.mdata := rfl

/-! `withMem` -/

@[simp] theorem State.withMem_regs (s : State) (m : Memory) : (s.withMem m).regs = s.regs := rfl
@[simp] theorem State.withMem_written (s : State) (m : Memory) : (s.withMem m).written = s.written := rfl
@[simp] theorem State.withMem_pipe (s : State) (m : Memory) : (s.withMem m).pipe = s.pipe := rfl
@[simp] theorem State.withMem_job (s : State) (m : Memory) : (s.withMem m).job = s.job := rfl
@[simp] theorem State.withMem_seq (s : State) (m : Memory) : (s.withMem m).seq = s.seq := rfl
@[simp] theorem State.withMem_accesses (s : State) (m : Memory) : (s.withMem m).accesses = s.accesses := rfl
@[simp] theorem State.withMem_mem (s : State) (m : Memory) : (s.withMem m).mem = m := rfl
@[simp] theorem State.withMem_refused (s : State) (m : Memory) : (s.withMem m).refused = s.refused := rfl
@[simp] theorem State.withMem_turns (s : State) (m : Memory) : (s.withMem m).turns = s.turns := rfl
@[simp] theorem State.withMem_rdata (s : State) (m : Memory) : (s.withMem m).rdata = s.rdata := rfl
@[simp] theorem State.withMem_mdata (s : State) (m : Memory) : (s.withMem m).mdata = s.mdata := rfl

/-! `withTurns` -/

@[simp] theorem State.withTurns_regs (s : State) (t : List Turn) : (s.withTurns t).regs = s.regs := rfl
@[simp] theorem State.withTurns_written (s : State) (t : List Turn) : (s.withTurns t).written = s.written := rfl
@[simp] theorem State.withTurns_pipe (s : State) (t : List Turn) : (s.withTurns t).pipe = s.pipe := rfl
@[simp] theorem State.withTurns_job (s : State) (t : List Turn) : (s.withTurns t).job = s.job := rfl
@[simp] theorem State.withTurns_seq (s : State) (t : List Turn) : (s.withTurns t).seq = s.seq := rfl
@[simp] theorem State.withTurns_accesses (s : State) (t : List Turn) : (s.withTurns t).accesses = s.accesses := rfl
@[simp] theorem State.withTurns_mem (s : State) (t : List Turn) : (s.withTurns t).mem = s.mem := rfl
@[simp] theorem State.withTurns_refused (s : State) (t : List Turn) : (s.withTurns t).refused = s.refused := rfl
@[simp] theorem State.withTurns_turns (s : State) (t : List Turn) : (s.withTurns t).turns = t := rfl
@[simp] theorem State.withTurns_rdata (s : State) (t : List Turn) : (s.withTurns t).rdata = s.rdata := rfl
@[simp] theorem State.withTurns_mdata (s : State) (t : List Turn) : (s.withTurns t).mdata = s.mdata := rfl

/-! `withRdata` -/

@[simp] theorem State.withRdata_regs (s : State) (d : Option Word) : (s.withRdata d).regs = s.regs := rfl
@[simp] theorem State.withRdata_written (s : State) (d : Option Word) : (s.withRdata d).written = s.written := rfl
@[simp] theorem State.withRdata_pipe (s : State) (d : Option Word) : (s.withRdata d).pipe = s.pipe := rfl
@[simp] theorem State.withRdata_job (s : State) (d : Option Word) : (s.withRdata d).job = s.job := rfl
@[simp] theorem State.withRdata_seq (s : State) (d : Option Word) : (s.withRdata d).seq = s.seq := rfl
@[simp] theorem State.withRdata_accesses (s : State) (d : Option Word) : (s.withRdata d).accesses = s.accesses := rfl
@[simp] theorem State.withRdata_mem (s : State) (d : Option Word) : (s.withRdata d).mem = s.mem := rfl
@[simp] theorem State.withRdata_refused (s : State) (d : Option Word) : (s.withRdata d).refused = s.refused := rfl
@[simp] theorem State.withRdata_turns (s : State) (d : Option Word) : (s.withRdata d).turns = s.turns := rfl
@[simp] theorem State.withRdata_rdata (s : State) (d : Option Word) : (s.withRdata d).rdata = d := rfl
@[simp] theorem State.withRdata_mdata (s : State) (d : Option Word) : (s.withRdata d).mdata = s.mdata := rfl

/-! `withMdata` -/

@[simp] theorem State.withMdata_regs (s : State) (b : Option Byte) : (s.withMdata b).regs = s.regs := rfl
@[simp] theorem State.withMdata_written (s : State) (b : Option Byte) : (s.withMdata b).written = s.written := rfl
@[simp] theorem State.withMdata_pipe (s : State) (b : Option Byte) : (s.withMdata b).pipe = s.pipe := rfl
@[simp] theorem State.withMdata_job (s : State) (b : Option Byte) : (s.withMdata b).job = s.job := rfl
@[simp] theorem State.withMdata_seq (s : State) (b : Option Byte) : (s.withMdata b).seq = s.seq := rfl
@[simp] theorem State.withMdata_accesses (s : State) (b : Option Byte) : (s.withMdata b).accesses = s.accesses := rfl
@[simp] theorem State.withMdata_mem (s : State) (b : Option Byte) : (s.withMdata b).mem = s.mem := rfl
@[simp] theorem State.withMdata_refused (s : State) (b : Option Byte) : (s.withMdata b).refused = s.refused := rfl
@[simp] theorem State.withMdata_turns (s : State) (b : Option Byte) : (s.withMdata b).turns = s.turns := rfl
@[simp] theorem State.withMdata_rdata (s : State) (b : Option Byte) : (s.withMdata b).rdata = s.rdata := rfl
@[simp] theorem State.withMdata_mdata (s : State) (b : Option Byte) : (s.withMdata b).mdata = b := rfl

/-! `storeByte` -/

@[simp] theorem State.storeByte_regs (s : State) (a : Addr) (b : Byte) : (s.storeByte a b).regs = s.regs := rfl
@[simp] theorem State.storeByte_written (s : State) (a : Addr) (b : Byte) : (s.storeByte a b).written = s.written := rfl
@[simp] theorem State.storeByte_pipe (s : State) (a : Addr) (b : Byte) : (s.storeByte a b).pipe = s.pipe := rfl
@[simp] theorem State.storeByte_job (s : State) (a : Addr) (b : Byte) : (s.storeByte a b).job = s.job := rfl
@[simp] theorem State.storeByte_seq (s : State) (a : Addr) (b : Byte) : (s.storeByte a b).seq = s.seq := rfl
@[simp] theorem State.storeByte_accesses (s : State) (a : Addr) (b : Byte) : (s.storeByte a b).accesses = s.accesses := rfl
@[simp] theorem State.storeByte_mem (s : State) (a : Addr) (b : Byte) : (s.storeByte a b).mem = s.mem.set a.toNat b := rfl
@[simp] theorem State.storeByte_refused (s : State) (a : Addr) (b : Byte) : (s.storeByte a b).refused = s.refused := rfl
@[simp] theorem State.storeByte_turns (s : State) (a : Addr) (b : Byte) : (s.storeByte a b).turns = s.turns := rfl
@[simp] theorem State.storeByte_rdata (s : State) (a : Addr) (b : Byte) : (s.storeByte a b).rdata = s.rdata := rfl
@[simp] theorem State.storeByte_mdata (s : State) (a : Addr) (b : Byte) : (s.storeByte a b).mdata = s.mdata := rfl

/-! `accept` -/

@[simp] theorem State.accept_regs (s : State) (j : Job) (ph : Phase) : (s.accept j ph).regs = { s.regs with status := s.regs.status.accepted } := rfl
@[simp] theorem State.accept_written (s : State) (j : Job) (ph : Phase) : (s.accept j ph).written = s.written := rfl
@[simp] theorem State.accept_pipe (s : State) (j : Job) (ph : Phase) : (s.accept j ph).pipe = s.pipe := rfl
@[simp] theorem State.accept_job (s : State) (j : Job) (ph : Phase) : (s.accept j ph).job = j := rfl
@[simp] theorem State.accept_seq (s : State) (j : Job) (ph : Phase) : (s.accept j ph).seq = { s.seq with phase := ph, rnd := 0, i := 0#32, j := 0#32, k := 0, ctr := j.counter, loaded := false } := rfl
@[simp] theorem State.accept_accesses (s : State) (j : Job) (ph : Phase) : (s.accept j ph).accesses = Accesses.empty := rfl
@[simp] theorem State.accept_mem (s : State) (j : Job) (ph : Phase) : (s.accept j ph).mem = s.mem := rfl
@[simp] theorem State.accept_refused (s : State) (j : Job) (ph : Phase) : (s.accept j ph).refused = s.refused := rfl
@[simp] theorem State.accept_turns (s : State) (j : Job) (ph : Phase) : (s.accept j ph).turns = s.turns := rfl
@[simp] theorem State.accept_rdata (s : State) (j : Job) (ph : Phase) : (s.accept j ph).rdata = s.rdata := rfl
@[simp] theorem State.accept_mdata (s : State) (j : Job) (ph : Phase) : (s.accept j ph).mdata = s.mdata := rfl

/-! `reject` -/

@[simp] theorem State.reject_regs (s : State) (c : Cause) : (s.reject c).regs = { s.regs with status := s.regs.status.rejected c } := rfl
@[simp] theorem State.reject_written (s : State) (c : Cause) : (s.reject c).written = s.written := rfl
@[simp] theorem State.reject_pipe (s : State) (c : Cause) : (s.reject c).pipe = s.pipe := rfl
@[simp] theorem State.reject_job (s : State) (c : Cause) : (s.reject c).job = s.job := rfl
@[simp] theorem State.reject_seq (s : State) (c : Cause) : (s.reject c).seq = s.seq := rfl
@[simp] theorem State.reject_accesses (s : State) (c : Cause) : (s.reject c).accesses = s.accesses := rfl
@[simp] theorem State.reject_mem (s : State) (c : Cause) : (s.reject c).mem = s.mem := rfl
@[simp] theorem State.reject_refused (s : State) (c : Cause) : (s.reject c).refused = s.refused := rfl
@[simp] theorem State.reject_turns (s : State) (c : Cause) : (s.reject c).turns = s.turns := rfl
@[simp] theorem State.reject_rdata (s : State) (c : Cause) : (s.reject c).rdata = s.rdata := rfl
@[simp] theorem State.reject_mdata (s : State) (c : Cause) : (s.reject c).mdata = s.mdata := rfl

/-! `dropWrite` -/

@[simp] theorem State.dropWrite_regs (s : State) : (s.dropWrite).regs = { s.regs with status := s.regs.status.dropped } := rfl
@[simp] theorem State.dropWrite_written (s : State) : (s.dropWrite).written = s.written := rfl
@[simp] theorem State.dropWrite_pipe (s : State) : (s.dropWrite).pipe = s.pipe := rfl
@[simp] theorem State.dropWrite_job (s : State) : (s.dropWrite).job = s.job := rfl
@[simp] theorem State.dropWrite_seq (s : State) : (s.dropWrite).seq = s.seq := rfl
@[simp] theorem State.dropWrite_accesses (s : State) : (s.dropWrite).accesses = s.accesses := rfl
@[simp] theorem State.dropWrite_mem (s : State) : (s.dropWrite).mem = s.mem := rfl
@[simp] theorem State.dropWrite_refused (s : State) : (s.dropWrite).refused = s.refused := rfl
@[simp] theorem State.dropWrite_turns (s : State) : (s.dropWrite).turns = s.turns := rfl
@[simp] theorem State.dropWrite_rdata (s : State) : (s.dropWrite).rdata = s.rdata := rfl
@[simp] theorem State.dropWrite_mdata (s : State) : (s.dropWrite).mdata = s.mdata := rfl

/-! `abortMem` -/

@[simp] theorem State.abortMem_regs (s : State) (a : Addr) : (s.abortMem a).regs = { s.regs with status := s.regs.status.aborted, faultAddrLo := low32 a, faultAddrHi := high32 a } := rfl
@[simp] theorem State.abortMem_written (s : State) (a : Addr) : (s.abortMem a).written = s.written := rfl
@[simp] theorem State.abortMem_pipe (s : State) (a : Addr) : (s.abortMem a).pipe = s.pipe := rfl
@[simp] theorem State.abortMem_job (s : State) (a : Addr) : (s.abortMem a).job = s.job := rfl
@[simp] theorem State.abortMem_seq (s : State) (a : Addr) : (s.abortMem a).seq = { s.seq with phase := .idle } := rfl
@[simp] theorem State.abortMem_accesses (s : State) (a : Addr) : (s.abortMem a).accesses = s.accesses := rfl
@[simp] theorem State.abortMem_mem (s : State) (a : Addr) : (s.abortMem a).mem = s.mem := rfl
@[simp] theorem State.abortMem_refused (s : State) (a : Addr) : (s.abortMem a).refused = s.refused := rfl
@[simp] theorem State.abortMem_turns (s : State) (a : Addr) : (s.abortMem a).turns = s.turns := rfl
@[simp] theorem State.abortMem_rdata (s : State) (a : Addr) : (s.abortMem a).rdata = s.rdata := rfl
@[simp] theorem State.abortMem_mdata (s : State) (a : Addr) : (s.abortMem a).mdata = s.mdata := rfl

/-! `complete` -/

@[simp] theorem State.complete_regs (s : State) : (s.complete).regs = { s.regs with status := s.regs.status.completed } := rfl
@[simp] theorem State.complete_written (s : State) : (s.complete).written = s.written := rfl
@[simp] theorem State.complete_pipe (s : State) : (s.complete).pipe = s.pipe := rfl
@[simp] theorem State.complete_job (s : State) : (s.complete).job = s.job := rfl
@[simp] theorem State.complete_seq (s : State) : (s.complete).seq = { s.seq with phase := .idle, loaded := false } := rfl
@[simp] theorem State.complete_accesses (s : State) : (s.complete).accesses = s.accesses := rfl
@[simp] theorem State.complete_mem (s : State) : (s.complete).mem = s.mem := rfl
@[simp] theorem State.complete_refused (s : State) : (s.complete).refused = s.refused := rfl
@[simp] theorem State.complete_turns (s : State) : (s.complete).turns = s.turns := rfl
@[simp] theorem State.complete_rdata (s : State) : (s.complete).rdata = s.rdata := rfl
@[simp] theorem State.complete_mdata (s : State) : (s.complete).mdata = s.mdata := rfl

/-! `commitCompress` -/

@[simp] theorem State.commitCompress_regs (s : State) : (s.commitCompress).regs = { s.regs with status := s.regs.status.completed, cv := finTrunc s.pipe.grid, res := joinHalves (finTrunc s.pipe.grid) (Vector.replicate 8 0#32) } := by simp [State.commitCompress]
@[simp] theorem State.commitCompress_written (s : State) : (s.commitCompress).written = { s.written with cv := Vector.replicate 8 true, res := Vector.replicate 16 true } := by simp [State.commitCompress]
@[simp] theorem State.commitCompress_pipe (s : State) : (s.commitCompress).pipe = s.pipe := by simp [State.commitCompress]
@[simp] theorem State.commitCompress_job (s : State) : (s.commitCompress).job = s.job := by simp [State.commitCompress]
@[simp] theorem State.commitCompress_seq (s : State) : (s.commitCompress).seq = { s.seq with phase := .idle, loaded := false } := by simp [State.commitCompress]
@[simp] theorem State.commitCompress_accesses (s : State) : (s.commitCompress).accesses = s.accesses := by simp [State.commitCompress]
@[simp] theorem State.commitCompress_mem (s : State) : (s.commitCompress).mem = s.mem := by simp [State.commitCompress]
@[simp] theorem State.commitCompress_refused (s : State) : (s.commitCompress).refused = s.refused := by simp [State.commitCompress]
@[simp] theorem State.commitCompress_turns (s : State) : (s.commitCompress).turns = s.turns := by simp [State.commitCompress]
@[simp] theorem State.commitCompress_rdata (s : State) : (s.commitCompress).rdata = s.rdata := by simp [State.commitCompress]
@[simp] theorem State.commitCompress_mdata (s : State) : (s.commitCompress).mdata = s.mdata := by simp [State.commitCompress]

/-! `commitXof` -/

@[simp] theorem State.commitXof_regs (s : State) : (s.commitXof).regs = { s.regs with status := s.regs.status.completed, res := finExt s.pipe.grid s.pipe.cvIn } := by simp [State.commitXof]
@[simp] theorem State.commitXof_written (s : State) : (s.commitXof).written = { s.written with res := Vector.replicate 16 true } := by simp [State.commitXof]
@[simp] theorem State.commitXof_pipe (s : State) : (s.commitXof).pipe = s.pipe := by simp [State.commitXof]
@[simp] theorem State.commitXof_job (s : State) : (s.commitXof).job = s.job := by simp [State.commitXof]
@[simp] theorem State.commitXof_seq (s : State) : (s.commitXof).seq = { s.seq with phase := .idle, loaded := false } := by simp [State.commitXof]
@[simp] theorem State.commitXof_accesses (s : State) : (s.commitXof).accesses = s.accesses := by simp [State.commitXof]
@[simp] theorem State.commitXof_mem (s : State) : (s.commitXof).mem = s.mem := by simp [State.commitXof]
@[simp] theorem State.commitXof_refused (s : State) : (s.commitXof).refused = s.refused := by simp [State.commitXof]
@[simp] theorem State.commitXof_turns (s : State) : (s.commitXof).turns = s.turns := by simp [State.commitXof]
@[simp] theorem State.commitXof_rdata (s : State) : (s.commitXof).rdata = s.rdata := by simp [State.commitXof]
@[simp] theorem State.commitXof_mdata (s : State) : (s.commitXof).mdata = s.mdata := by simp [State.commitXof]

/-! `hardReset` -/

@[simp] theorem State.hardReset_regs (s : State) : (s.hardReset).regs = Regs.reset := rfl
@[simp] theorem State.hardReset_written (s : State) : (s.hardReset).written = Written.reset := rfl
@[simp] theorem State.hardReset_pipe (s : State) : (s.hardReset).pipe = Pipe.reset := rfl
@[simp] theorem State.hardReset_job (s : State) : (s.hardReset).job = Job.reset := rfl
@[simp] theorem State.hardReset_seq (s : State) : (s.hardReset).seq = Seq.reset := rfl
@[simp] theorem State.hardReset_accesses (s : State) : (s.hardReset).accesses = Accesses.empty := rfl
@[simp] theorem State.hardReset_mem (s : State) : (s.hardReset).mem = s.mem := rfl
@[simp] theorem State.hardReset_refused (s : State) : (s.hardReset).refused = s.refused := rfl
@[simp] theorem State.hardReset_turns (s : State) : (s.hardReset).turns = s.turns := rfl
@[simp] theorem State.hardReset_rdata (s : State) : (s.hardReset).rdata = s.rdata := rfl
@[simp] theorem State.hardReset_mdata (s : State) : (s.hardReset).mdata = s.mdata := rfl

end Sys2Proof.Machine
end

