-- ==== Sys2Proof/Laws/Memory.lean ====
section
/-!
SUPPORT. The laws of system memory and of the sets of accessed bytes: a read after a write, the bytes a write leaves alone, and
the canonical form every operation keeps.
-/

namespace Sys2Proof.Machine

/-! ### Read after write -/

@[simp] theorem Memory.get_nil (x : Nat) : Memory.get [] x = none := rfl

@[simp] theorem Memory.get_set_same (m : Memory) (x : Nat) (v : Byte) : (m.set x v).get x = some v := by
  induction m with
  | nil => simp [Memory.set, Memory.get]
  | cons c t ih =>
    obtain ⟨a, b⟩ := c
    simp only [Memory.set]
    split
    · simp [Memory.get]
    · split
      · simp [Memory.get]
      · simp_all [Memory.get]

theorem Memory.get_set_of_ne (m : Memory) {x y : Nat} (v : Byte) (h : y ≠ x) :
    (m.set x v).get y = m.get y := by
  induction m with
  | nil => simp [Memory.set, Memory.get, h, Memory.unlisted]
  | cons c t ih =>
    obtain ⟨a, b⟩ := c
    simp only [Memory.set]
    split
    · simp [Memory.get, h]
    · split
      · next hx => subst hx; simp [Memory.get, h]
      · simp [Memory.get, ih]

@[simp] theorem State.memByte_storeByte_same (s : State) (a : Addr) (b : Byte) :
    (s.storeByte a b).memByte a = b := by
  simp [State.memByte]

theorem State.memByte_storeByte_of_ne (s : State) {a x : Addr} (b : Byte) (h : x ≠ a) :
    (s.storeByte a b).memByte x = s.memByte x := by
  have hx : x.toNat ≠ a.toNat := fun e => h (BitVec.eq_of_toNat_eq e)
  simp [State.memByte, Memory.get_set_of_ne _ _ hx]

/-- What a read of system memory answers depends on memory alone. -/
theorem State.memByte_congr {s t : State} (h : s.mem = t.mem) (a : Addr) : s.memByte a = t.memByte a := by
  simp [State.memByte, h]

/-- What the platform admits depends on its map alone. -/
theorem State.admits_congr {s t : State} (h : s.refused = t.refused) (a : Addr) (kind : AccessKind) :
    s.admits a kind = t.admits a kind := by
  simp [State.admits, h]

/-! ### The canonical form -/

theorem Memory.wf_nil : Memory.wf [] = true := rfl

theorem Memory.risingFrom_weaken {lo : Nat} {m : Memory} (h : Memory.risingFrom (some lo) m = true) :
    Memory.risingFrom none m = true := by
  cases m with
  | nil => rfl
  | cons c t => obtain ⟨a, b⟩ := c; simp_all [Memory.risingFrom]

theorem Memory.risingFrom_set {lo : Nat} {m : Memory} (h : Memory.risingFrom (some lo) m = true) {x : Nat}
    (hlo : lo < x) (hx : x < 2 ^ 64) (v : Byte) : Memory.risingFrom (some lo) (m.set x v) = true := by
  induction m generalizing lo with
  | nil => simp [Memory.set, Memory.risingFrom, hlo]; omega
  | cons c t ih =>
    obtain ⟨a, b⟩ := c
    simp only [Memory.risingFrom, Bool.and_eq_true, decide_eq_true_eq] at h
    obtain ⟨⟨h1, h2⟩, h3⟩ := h
    simp only [Memory.set]
    split
    · next hxa => simp [Memory.risingFrom, hlo, hxa, h3]; omega
    · split
      · next hxa => subst hxa; simp [Memory.risingFrom, h1, h3]; omega
      · simp only [Memory.risingFrom, Bool.and_eq_true, decide_eq_true_eq]
        exact ⟨⟨h1, h2⟩, ih h3 (by omega)⟩

/-- A store keeps the canonical form. -/
theorem Memory.wf_set {m : Memory} (h : m.wf = true) {x : Nat} (hx : x < 2 ^ 64) (v : Byte) :
    (m.set x v).wf = true := by
  cases m with
  | nil => simp [Memory.set, Memory.wf, Memory.risingFrom]; omega
  | cons c t =>
    obtain ⟨a, b⟩ := c
    simp only [Memory.wf, Memory.risingFrom, Bool.and_eq_true, decide_eq_true_eq] at h
    obtain ⟨h1, h2⟩ := h
    simp only [Memory.set, Memory.wf]
    split
    · next hxa => simp [Memory.risingFrom, hxa, h2]; omega
    · split
      · next hxa => subst hxa; simp [Memory.risingFrom, h2]; omega
      · simp only [Memory.risingFrom, Bool.and_eq_true, decide_eq_true_eq]
        exact ⟨h1, Memory.risingFrom_set h2 (by omega) hx v⟩

/-- A store to system memory keeps its canonical form. -/
theorem State.wf_storeByte {s : State} (h : s.mem.wf = true) (a : Addr) (b : Byte) :
    (s.storeByte a b).mem.wf = true := by
  simpa using Memory.wf_set h a.isLt b

/-- Reset memory is canonical. -/
theorem State.reset_mem_wf : State.reset.mem.wf = true := rfl

/-! ### The sets of accessed bytes -/

@[simp] theorem mem_addrInsert {x y : Nat} {l : List Nat} : y ∈ addrInsert x l ↔ y = x ∨ y ∈ l := by
  induction l with
  | nil => simp [addrInsert]
  | cons a t ih =>
    simp only [addrInsert]
    split
    · simp
    · split
      · next h => subst h; simp
      · simp [ih]; tauto

theorem addrInsert_pairwise {x : Nat} {l : List Nat} (h : l.Pairwise (· < ·)) :
    (addrInsert x l).Pairwise (· < ·) := by
  induction l with
  | nil => simp [addrInsert]
  | cons a t ih =>
    obtain ⟨h1, h2⟩ := List.pairwise_cons.mp h
    simp only [addrInsert]
    split
    · next hx =>
      refine List.pairwise_cons.mpr ⟨fun y hy => ?_, h⟩
      rcases List.mem_cons.mp hy with rfl | hy
      · exact hx
      · exact lt_trans hx (h1 y hy)
    · split
      · exact h
      · refine List.pairwise_cons.mpr ⟨fun y hy => ?_, ih h2⟩
        rcases mem_addrInsert.mp hy with rfl | hy
        · omega
        · exact h1 y hy

end Sys2Proof.Machine
end

