-- ==== Sys2Proof/Laws/Ops.lean ====
section
/-!
SUPPORT. One lemma per shared operation that says everything it can do when it answers a next state. Proofs cite these and do
not unfold the operations.
-/

namespace Sys2Proof.Machine

/-- A byte read by the core: an abort, or the continuation on the byte with the access noted. -/
theorem coreRead_next {a : Addr} {s t : State} {k : Byte → State → State} (h : coreRead a s k = .next t) :
    (s.admits a .read = false ∧ t = s.abortMem a) ∨
    (s.admits a .read = true ∧ a.toNat ∉ s.accesses.written ∧
      t = k (s.memByte a) (s.withAccesses { s.accesses with read := addrInsert a.toNat s.accesses.read })) := by
  unfold coreRead at h
  split at h
  · next ha =>
    split at h
    · cases h
    · next hc =>
      cases h
      exact .inr ⟨ha, by simpa using hc, rfl⟩
  · next ha => cases h; exact .inl ⟨by simpa using ha, rfl⟩

/-- When a byte read by the core goes on. -/
theorem coreRead_of_allowed {a : Addr} {s : State} {k : Byte → State → State}
    (h1 : s.admits a .read = true) (h2 : a.toNat ∉ s.accesses.written) :
    coreRead a s k =
      .next (k (s.memByte a) (s.withAccesses { s.accesses with read := addrInsert a.toNat s.accesses.read })) := by
  simp [coreRead, h1, h2]

/-- A byte written by the core: an abort, or the continuation on the stored byte with the access noted. -/
theorem coreWrite_next {a : Addr} {b : Byte} {s t : State} {k : State → State}
    (h : coreWrite a b s k = .next t) :
    (s.admits a .write = false ∧ t = s.abortMem a) ∨
    (s.admits a .write = true ∧ a.toNat ∉ s.accesses.read ∧
      t = k ((s.storeByte a b).withAccesses
        { s.accesses with written := addrInsert a.toNat s.accesses.written })) := by
  unfold coreWrite at h
  split at h
  · next ha =>
    split at h
    · cases h
    · next hc =>
      cases h
      exact .inr ⟨ha, by simpa using hc, rfl⟩
  · next ha => cases h; exact .inl ⟨by simpa using ha, rfl⟩

/-- When a byte written by the core goes on. -/
theorem coreWrite_of_allowed {a : Addr} {b : Byte} {s : State} {k : State → State}
    (h1 : s.admits a .write = true) (h2 : a.toNat ∉ s.accesses.read) :
    coreWrite a b s k =
      .next (k ((s.storeByte a b).withAccesses
        { s.accesses with written := addrInsert a.toNat s.accesses.written })) := by
  simp [coreWrite, h1, h2]

/-- A command request: dropped while busy, else its checks. -/
theorem request_next {s t : State} {f : State → Result} (h : request s f = .next t) :
    (s.regs.status.busy = true ∧ t = s.dropWrite) ∨ (s.regs.status.busy = false ∧ f s = .next t) := by
  unfold request at h
  split at h
  · next hb => cases h; exact .inl ⟨hb, rfl⟩
  · next hb => exact .inr ⟨by simpa using hb, h⟩

theorem request_of_idle {s : State} {f : State → Result} (h : s.regs.status.busy = false) :
    request s f = f s := by
  simp [request, h]

theorem request_of_busy {s : State} {f : State → Result} (h : s.regs.status.busy = true) :
    request s f = .next s.dropWrite := by
  simp [request, h]

/-- COMPRESS and COMPRESS_XOF at an idle core: rejected for the block length, or accepted. -/
theorem startCompress_next {op : Op} {ph : Phase} {f : Byte} {s t : State}
    (h : startCompress op ph f s = .next t) :
    (64#32 < s.regs.blockLen ∧ t = s.reject .badBlockLen) ∨
    (¬64#32 < s.regs.blockLen ∧ s.written.compressOperands = true ∧
      t = s.accept (latchCompress op f s) ph) := by
  unfold startCompress at h
  split at h
  · cases h
  · split at h
    · next hb => cases h; exact .inl ⟨hb, rfl⟩
    · next hb =>
      split at h
      · cases h
      · next hw => cases h; exact .inr ⟨hb, by simpa using hw, rfl⟩

/-- HASH_MANY at an idle core: rejected for the block count, or accepted. -/
theorem startBatch_next {inc : Bool} {f fs fe : Byte} {s t : State} (h : startBatch inc f fs fe s = .next t) :
    (s.regs.blocks = 0#32 ∧ t = s.reject .badBlocks) ∨
    (s.regs.blocks ≠ 0#32 ∧ s.written.batchOperands = true ∧
      t = s.accept (latchBatch inc f fs fe s) (if s.regs.numInputs = 0#32 then .hmNext else .hmPtr)) := by
  unfold startBatch at h
  split at h
  · cases h
  · split at h
    · next hb => cases h; exact .inl ⟨hb, rfl⟩
    · next hb =>
      split at h
      · cases h
      · next hw => cases h; exact .inr ⟨hb, by simpa using hw, rfl⟩

/-- Everything issuing a command can do when it answers a next state: drop, rejection or acceptance. -/
theorem exec_next {i : Instr} {s t : State} (h : exec i s = .next t) :
    (s.regs.status.busy = true ∧ t = s.dropWrite) ∨
    (s.regs.status.busy = false ∧ ∃ c, t = s.reject c) ∨
    (s.regs.status.busy = false ∧ ∃ job ph, ph ≠ .idle ∧ t = s.accept job ph) := by
  cases i with
  | compress f =>
    rcases request_next h with h | ⟨hb, h⟩
    · exact .inl h
    · rcases startCompress_next h with ⟨_, h⟩ | ⟨_, _, h⟩
      · exact .inr (.inl ⟨hb, _, h⟩)
      · exact .inr (.inr ⟨hb, _, _, by decide, h⟩)
  | compressXof f =>
    rcases request_next h with h | ⟨hb, h⟩
    · exact .inl h
    · rcases startCompress_next h with ⟨_, h⟩ | ⟨_, _, h⟩
      · exact .inr (.inl ⟨hb, _, h⟩)
      · exact .inr (.inr ⟨hb, _, _, by decide, h⟩)
  | hashMany inc f fs fe =>
    rcases request_next h with h | ⟨hb, h⟩
    · exact .inl h
    · rcases startBatch_next h with ⟨_, h⟩ | ⟨_, _, h⟩
      · exact .inr (.inl ⟨hb, _, h⟩)
      · exact .inr (.inr ⟨hb, _, _, by split <;> decide, h⟩)

/-! ### The pipeline's steps leave everything but the datapath registers and the sequencer alone -/

/-- Everything steps 0 to 7 of R187 can do: INIT and LOAD, one round, or nothing. -/
theorem State.pipeStep_cases (s : State) (x : CompressInput) :
    (s.seq.loaded = false ∧
      s.pipeStep x = (s.withPipe (loadPipe x)).withSeq { s.seq with rnd := 0, loaded := true }) ∨
    (s.seq.loaded = true ∧ ∃ h : s.seq.rnd.val < 7,
      s.pipeStep x =
        (s.withPipe { s.pipe with grid := roundStep s.pipe.grid s.pipe.m ⟨s.seq.rnd.val, h⟩ }).withSeq
          { s.seq with rnd := s.seq.rnd + 1 }) ∨
    (s.seq.loaded = true ∧ ¬s.seq.rnd.val < 7 ∧ s.pipeStep x = s) := by
  unfold State.pipeStep
  split
  · next hl =>
    split
    · next hr => exact .inr (.inl ⟨hl, hr, rfl⟩)
    · next hr => exact .inr (.inr ⟨hl, hr, rfl⟩)
  · next hl => exact .inl ⟨by simpa using hl, rfl⟩

section
variable (s : State) (x : CompressInput)

@[simp] theorem State.pipeStep_regs : (s.pipeStep x).regs = s.regs := by
  rcases s.pipeStep_cases x with ⟨_, h⟩ | ⟨_, _, h⟩ | ⟨_, _, h⟩ <;> simp [h]
@[simp] theorem State.pipeStep_written : (s.pipeStep x).written = s.written := by
  rcases s.pipeStep_cases x with ⟨_, h⟩ | ⟨_, _, h⟩ | ⟨_, _, h⟩ <;> simp [h]
@[simp] theorem State.pipeStep_job : (s.pipeStep x).job = s.job := by
  rcases s.pipeStep_cases x with ⟨_, h⟩ | ⟨_, _, h⟩ | ⟨_, _, h⟩ <;> simp [h]
@[simp] theorem State.pipeStep_accesses : (s.pipeStep x).accesses = s.accesses := by
  rcases s.pipeStep_cases x with ⟨_, h⟩ | ⟨_, _, h⟩ | ⟨_, _, h⟩ <;> simp [h]
@[simp] theorem State.pipeStep_mem : (s.pipeStep x).mem = s.mem := by
  rcases s.pipeStep_cases x with ⟨_, h⟩ | ⟨_, _, h⟩ | ⟨_, _, h⟩ <;> simp [h]
@[simp] theorem State.pipeStep_refused : (s.pipeStep x).refused = s.refused := by
  rcases s.pipeStep_cases x with ⟨_, h⟩ | ⟨_, _, h⟩ | ⟨_, _, h⟩ <;> simp [h]
@[simp] theorem State.pipeStep_turns : (s.pipeStep x).turns = s.turns := by
  rcases s.pipeStep_cases x with ⟨_, h⟩ | ⟨_, _, h⟩ | ⟨_, _, h⟩ <;> simp [h]
@[simp] theorem State.pipeStep_rdata : (s.pipeStep x).rdata = s.rdata := by
  rcases s.pipeStep_cases x with ⟨_, h⟩ | ⟨_, _, h⟩ | ⟨_, _, h⟩ <;> simp [h]
@[simp] theorem State.pipeStep_mdata : (s.pipeStep x).mdata = s.mdata := by
  rcases s.pipeStep_cases x with ⟨_, h⟩ | ⟨_, _, h⟩ | ⟨_, _, h⟩ <;> simp [h]
/-! Of the sequencer, a pipeline step changes `rnd` and `loaded` alone. -/

@[simp] theorem State.pipeStep_seq_phase : (s.pipeStep x).seq.phase = s.seq.phase := by
  rcases s.pipeStep_cases x with ⟨_, h⟩ | ⟨_, _, h⟩ | ⟨_, _, h⟩ <;> simp [h]
@[simp] theorem State.pipeStep_seq_i : (s.pipeStep x).seq.i = s.seq.i := by
  rcases s.pipeStep_cases x with ⟨_, h⟩ | ⟨_, _, h⟩ | ⟨_, _, h⟩ <;> simp [h]
@[simp] theorem State.pipeStep_seq_j : (s.pipeStep x).seq.j = s.seq.j := by
  rcases s.pipeStep_cases x with ⟨_, h⟩ | ⟨_, _, h⟩ | ⟨_, _, h⟩ <;> simp [h]
@[simp] theorem State.pipeStep_seq_ctr : (s.pipeStep x).seq.ctr = s.seq.ctr := by
  rcases s.pipeStep_cases x with ⟨_, h⟩ | ⟨_, _, h⟩ | ⟨_, _, h⟩ <;> simp [h]
@[simp] theorem State.pipeStep_seq_cv : (s.pipeStep x).seq.cv = s.seq.cv := by
  rcases s.pipeStep_cases x with ⟨_, h⟩ | ⟨_, _, h⟩ | ⟨_, _, h⟩ <;> simp [h]
@[simp] theorem State.pipeStep_seq_bflags : (s.pipeStep x).seq.bflags = s.seq.bflags := by
  rcases s.pipeStep_cases x with ⟨_, h⟩ | ⟨_, _, h⟩ | ⟨_, _, h⟩ <;> simp [h]
@[simp] theorem State.pipeStep_seq_base : (s.pipeStep x).seq.base = s.seq.base := by
  rcases s.pipeStep_cases x with ⟨_, h⟩ | ⟨_, _, h⟩ | ⟨_, _, h⟩ <;> simp [h]
@[simp] theorem State.pipeStep_seq_k : (s.pipeStep x).seq.k = s.seq.k := by
  rcases s.pipeStep_cases x with ⟨_, h⟩ | ⟨_, _, h⟩ | ⟨_, _, h⟩ <;> simp [h]
@[simp] theorem State.pipeStep_seq_buf : (s.pipeStep x).seq.buf = s.seq.buf := by
  rcases s.pipeStep_cases x with ⟨_, h⟩ | ⟨_, _, h⟩ | ⟨_, _, h⟩ <;> simp [h]

end

end Sys2Proof.Machine
end

