-- ==== Sys2Proof/Laws/Regions.lean ====
section
/-!
SUPPORT. The bytes of a running batch: the tests of the host's accesses (R75) say exactly which bytes the batch reads and
writes, and two bytes of the output buffer never share an address.
-/

namespace Sys2Proof.Machine

/-- A byte is in a range exactly when it is one of the `len` bytes from `base` on. -/
theorem inRange_iff {a base : Addr} {len : Nat} (hl : len < 2 ^ 64) :
    inRange a base len = true ↔ ∃ n, n < len ∧ a = base + BitVec.ofNat 64 n := by
  simp only [inRange, decide_eq_true_eq]
  constructor
  · intro h
    refine ⟨_, h, ?_⟩
    rw [BitVec.ofNat_toNat, BitVec.setWidth_eq, BitVec.add_comm, BitVec.sub_add_cancel]
  · rintro ⟨n, h, rfl⟩
    have e : base + BitVec.ofNat 64 n - base = BitVec.ofNat 64 n := by rw [BitVec.add_comm]; simp
    rw [e]; simp; omega

/-- `base + w*i + k`, with the product and the sum taken as naturals. -/
theorem strideAddr (base : Addr) (w : Nat) (i : Word) (k : Nat) :
    base + BitVec.ofNat 64 w * i.setWidth 64 + BitVec.ofNat 64 k = base + BitVec.ofNat 64 (w * i.toNat + k) := by
  rw [BitVec.add_assoc]; congr 1; apply BitVec.eq_of_toNat_eq; simp

theorem tableAddr_eq (job : Job) (i : Word) (k : Nat) :
    tableAddr job i k = job.inptr + BitVec.ofNat 64 (8 * i.toNat + k) := strideAddr job.inptr 8 i k
theorem blockAddr_eq (base : Addr) (j : Word) (b : Nat) :
    blockAddr base j b = base + BitVec.ofNat 64 (64 * j.toNat + b) := strideAddr base 64 j b
theorem digestAddr_eq (job : Job) (i : Word) (b : Nat) :
    digestAddr job i b = job.outptr + BitVec.ofNat 64 (32 * i.toNat + b) := strideAddr job.outptr 32 i b

theorem ofNat_lt_of_lt {n : Nat} {w : Word} (h : n < w.toNat) : BitVec.ofNat 32 n < w := by
  have := w.isLt
  rw [BitVec.lt_def]; simp; omega

theorem toNat_ofNat_of_lt {n : Nat} {w : Word} (h : n < w.toNat) : (BitVec.ofNat 32 n).toNat = n := by
  have := w.isLt
  simp; omega

theorem batchReads_iff (s : State) (a : Addr) : s.batchReads a = true ↔ s.BatchReadsByte a := by
  have hn := s.job.numInputs.isLt
  have hb := s.job.blocks.isLt
  simp only [State.batchReads, Bool.or_eq_true, List.any_eq_true, List.mem_range, State.BatchReadsByte]
  rw [inRange_iff (by omega)]
  constructor
  · rintro (⟨n, hn', rfl⟩ | ⟨i, hi, h⟩)
    · have hd : n / 8 < s.job.numInputs.toNat := by omega
      refine .inl ⟨BitVec.ofNat 32 (n / 8), n % 8, ofNat_lt_of_lt hd, by omega, ?_⟩
      rw [tableAddr_eq, toNat_ofNat_of_lt hd, Nat.div_add_mod]
    · rw [inRange_iff (by omega)] at h
      obtain ⟨n, hn', rfl⟩ := h
      have hd : n / 64 < s.job.blocks.toNat := by omega
      refine .inr ⟨BitVec.ofNat 32 i, BitVec.ofNat 32 (n / 64), n % 64, ofNat_lt_of_lt hi, ofNat_lt_of_lt hd,
        by omega, ?_⟩
      rw [blockAddr_eq, toNat_ofNat_of_lt hd, Nat.div_add_mod]
  · rintro (⟨i, k, hi, hk, rfl⟩ | ⟨i, j, b, hi, hj, hb', rfl⟩)
    · rw [BitVec.lt_def] at hi
      exact .inl ⟨8 * i.toNat + k, by omega, tableAddr_eq ..⟩
    · rw [BitVec.lt_def] at hi hj
      refine .inr ⟨i.toNat, hi, ?_⟩
      rw [inRange_iff (by omega)]
      exact ⟨64 * j.toNat + b, by omega, by simp [blockAddr_eq]⟩

theorem batchWrites_iff (s : State) (a : Addr) : s.batchWrites a = true ↔ s.BatchWritesByte a := by
  have hn := s.job.numInputs.isLt
  simp only [State.batchWrites, State.BatchWritesByte]
  rw [inRange_iff (by omega)]
  constructor
  · rintro ⟨n, hn', rfl⟩
    have hd : n / 32 < s.job.numInputs.toNat := by omega
    refine ⟨BitVec.ofNat 32 (n / 32), n % 32, ofNat_lt_of_lt hd, by omega, ?_⟩
    rw [digestAddr_eq, toNat_ofNat_of_lt hd, Nat.div_add_mod]
  · rintro ⟨i, k, hi, hk, rfl⟩
    rw [BitVec.lt_def] at hi
    exact ⟨32 * i.toNat + k, by omega, digestAddr_eq ..⟩

theorem batchRunning_iff (s : State) :
    s.batchRunning = true ↔ s.regs.status.busy = true ∧ s.job.op = .hashMany := by
  simp [State.batchRunning]

/-- Two digest bytes at one address are one byte of one input. -/
theorem digestAddr_inj {job : Job} {i j : Word} {b c : Nat} (hb : b < 32) (hc : c < 32)
    (h : digestAddr job i b = digestAddr job j c) : i = j ∧ b = c := by
  have hi := i.isLt
  have hj := j.isLt
  rw [digestAddr_eq, digestAddr_eq] at h
  have h' := congrArg BitVec.toNat ((BitVec.add_right_inj _).mp h)
  simp only [BitVec.toNat_ofNat] at h'
  exact ⟨BitVec.eq_of_toNat_eq (by omega), by omega⟩

end Sys2Proof.Machine
end

