-- ==== Sys2Proof/Laws/Sequencer.lean ====
section
/-!
SUPPORT. What one core step can do, phase by phase, and how runs of core steps compose.
-/

namespace Sys2Proof.Machine

/-! ### Runs -/

@[simp] theorem coreRun_zero (s : State) : coreRun 0 s = .next s := rfl

theorem coreRun_succ_of_next {n : Nat} {s t : State} (h : coreStep s = .next t) :
    coreRun (n + 1) s = coreRun n t := by
  simp [coreRun, h]

/-- A run of `m + n` steps is a run of `m`, then a run of `n` from where it ends. -/
theorem coreRun_add_of_next {m n : Nat} {s t : State} (h : coreRun m s = .next t) :
    coreRun (m + n) s = coreRun n t := by
  induction m generalizing s with
  | zero => cases h; simp
  | succ m ih =>
    rw [Nat.add_right_comm]
    cases hs : coreStep s with
    | next u =>
      rw [coreRun_succ_of_next hs] at h ⊢
      exact ih h
    | fault f => simp [coreRun, hs] at h
    | refused r => simp [coreRun, hs] at h

/-! ### One step, by phase -/

section
variable {s : State}

theorem coreStep_idle (h : s.seq.phase = .idle) : coreStep s = .next s := by simp [coreStep, h]
theorem coreStep_compressRun (h : s.seq.phase = .compressRun) : coreStep s = compressRunStep s := by
  simp [coreStep, h]
theorem coreStep_xofRun (h : s.seq.phase = .xofRun) : coreStep s = xofRunStep s := by simp [coreStep, h]
theorem coreStep_hmPtr (h : s.seq.phase = .hmPtr) : coreStep s = hmPtrStep s := by simp [coreStep, h]
theorem coreStep_hmBlock (h : s.seq.phase = .hmBlock) : coreStep s = hmBlockStep s := by simp [coreStep, h]
theorem coreStep_hmMix (h : s.seq.phase = .hmMix) : coreStep s = hmMixStep s := by simp [coreStep, h]
theorem coreStep_hmWrite (h : s.seq.phase = .hmWrite) : coreStep s = hmWriteStep s := by simp [coreStep, h]
theorem coreStep_hmNext (h : s.seq.phase = .hmNext) : coreStep s = hmNextStep s := by simp [coreStep, h]

end

/-- A step of a running COMPRESS: its commit, or a pipeline step. -/
theorem compressRunStep_next {s t : State} (h : compressRunStep s = .next t) :
    (s.pipeDone = true ∧ t = s.commitCompress) ∨
      (s.pipeDone = false ∧ t = s.pipeStep s.job.compressInput) := by
  unfold compressRunStep at h
  split at h
  · next hd => cases h; exact .inl ⟨hd, rfl⟩
  · next hd => cases h; exact .inr ⟨by simpa using hd, rfl⟩

/-- A step of a running COMPRESS_XOF: its commit, or a pipeline step. -/
theorem xofRunStep_next {s t : State} (h : xofRunStep s = .next t) :
    (s.pipeDone = true ∧ t = s.commitXof) ∨
      (s.pipeDone = false ∧ t = s.pipeStep s.job.compressInput) := by
  unfold xofRunStep at h
  split at h
  · next hd => cases h; exact .inl ⟨hd, rfl⟩
  · next hd => cases h; exact .inr ⟨by simpa using hd, rfl⟩

/-- No core step is a refusal. -/
theorem coreStep_not_refused (s : State) (r : Refusal) : coreStep s ≠ .refused r := by
  unfold coreStep
  split
  · simp
  · unfold compressRunStep; split <;> simp
  · unfold xofRunStep; split <;> simp
  · unfold hmPtrStep coreRead; split <;> (try split) <;> simp
  · unfold hmBlockStep coreRead; split <;> (try split) <;> simp
  · unfold hmMixStep; simp only; split <;> simp
  · unfold hmWriteStep coreWrite; split <;> (try split) <;> simp
  · unfold hmNextStep; split <;> simp

/-- Finalisation is due when the block is loaded and all seven rounds are done. -/
theorem pipeDone_iff (s : State) : s.pipeDone = true ↔ s.seq.loaded = true ∧ s.seq.rnd = 7 := by
  simp [State.pipeDone]

end Sys2Proof.Machine
end

