-- ==== Sys2Proof/Laws/Batch.lean ====
section
/-!
SUPPORT. The byte loops of the batch driver (R262, R264, R268): the state after the first `n` accesses of a phase, and the
loop that reaches it. Also the assembly of a 64-bit pointer byte by byte.
-/

namespace Sys2Proof.Machine

/-- A run along a sequence of states, each one core step after the last. -/
theorem coreRun_along {f : Nat → State} {N : Nat} (h : ∀ n < N, coreStep (f n) = .next (f (n + 1))) :
    ∀ n ≤ N, coreRun n (f 0) = .next (f n) := by
  intro n hn
  induction n with
  | zero => rfl
  | succ n ih => rw [coreRun_add_of_next (ih (by omega)), coreRun, h n (by omega)]; rfl

/-! ### Pointers byte by byte -/

/-- The low byte's mask, bit by bit. -/
theorem getLsbD_lowByteMask (k : Nat) : (0xFF#64).getLsbD k = decide (k < 8) := by
  by_cases h : k < 64
  · revert k; decide
  · have : ¬ k < 8 := by omega
    simp [BitVec.getLsbD_of_ge _ k (by omega : 64 ≤ k), this]

theorem extract_setByte (v : Addr) (b : Byte) {n m : Nat} (hn : n < 8) (hm : m < 8) :
    (setByte v n b).extractLsb' (8 * m) 8 = if m = n then b else v.extractLsb' (8 * m) 8 := by
  apply BitVec.eq_of_getLsbD_eq
  intro i hi
  have h64 : 8 * m + i < 64 := by omega
  simp only [setByte, BitVec.getLsbD_extractLsb', hi, BitVec.getLsbD_or, BitVec.getLsbD_and, BitVec.getLsbD_not,
    BitVec.getLsbD_shiftLeft, BitVec.getLsbD_setWidth, getLsbD_lowByteMask, h64, decide_true, Bool.true_and]
  split
  · next e => subst e; simp [hi, show i < 64 by omega, show 8 * m + i - 8 * m = i by omega]
  · next e =>
    by_cases hlt : m < n
    · simp [hi, show 8 * m + i < 8 * n by omega]
    · have h8 : 8 ≤ 8 * m + i - 8 * n := by omega
      simp [hi, show ¬8 * m + i < 8 * n by omega, show ¬8 * m + i - 8 * n < 8 by omega, BitVec.getLsbD_of_ge b _ h8]

theorem extract_le64 (v : Vector Byte 8) (n : Fin 8) : (le64 v).extractLsb' (8 * n.val) 8 = v[n] := by
  obtain ⟨n, hn⟩ := n
  apply BitVec.eq_of_getLsbD_eq
  intro i hi
  simp only [BitVec.getLsbD_extractLsb', le64, BitVec.getLsbD_append]
  interval_cases n <;> interval_cases i <;> simp

/-- Two 64-bit values with the same eight bytes are equal. -/
theorem addr_ext {v w : Addr} (h : ∀ n : Fin 8, v.extractLsb' (8 * n.val) 8 = w.extractLsb' (8 * n.val) 8) :
    v = w := by
  apply BitVec.eq_of_getLsbD_eq
  intro i hi
  have e := congrArg (fun x => x.getLsbD (i % 8)) (h ⟨i / 8, by omega⟩)
  have hd := Nat.div_add_mod i 8
  simpa [hd, Nat.mod_lt] using e

/-! ### The record of accesses -/

/-- The accesses after the first `n` reads of a loop over the addresses `f`. -/
def Accesses.afterReads (a : Accesses) (f : Nat → Addr) : Nat → Accesses
  | 0 => a
  | n + 1 => { a.afterReads f n with read := addrInsert (f n).toNat (a.afterReads f n).read }

/-- The accesses after the first `n` writes of a loop over the addresses `f`. -/
def Accesses.afterWrites (a : Accesses) (f : Nat → Addr) : Nat → Accesses
  | 0 => a
  | n + 1 => { a.afterWrites f n with written := addrInsert (f n).toNat (a.afterWrites f n).written }

section
variable (a : Accesses) (f : Nat → Addr) (n : Nat)

@[simp] theorem Accesses.afterReads_written : (a.afterReads f n).written = a.written := by
  induction n with
  | zero => rfl
  | succ n ih => exact ih
@[simp] theorem Accesses.afterWrites_read : (a.afterWrites f n).read = a.read := by
  induction n with
  | zero => rfl
  | succ n ih => exact ih
theorem Accesses.mem_afterReads {x : Nat} :
    x ∈ (a.afterReads f n).read ↔ (∃ m < n, x = (f m).toNat) ∨ x ∈ a.read := by
  induction n with
  | zero => simp [Accesses.afterReads]
  | succ n ih =>
    rw [Accesses.afterReads, mem_addrInsert, ih, Nat.exists_lt_succ_right, ← or_assoc, or_comm (a := x = _)]
theorem Accesses.mem_afterWrites {x : Nat} :
    x ∈ (a.afterWrites f n).written ↔ (∃ m < n, x = (f m).toNat) ∨ x ∈ a.written := by
  induction n with
  | zero => simp [Accesses.afterWrites]
  | succ n ih =>
    rw [Accesses.afterWrites, mem_addrInsert, ih, Nat.exists_lt_succ_right, ← or_assoc, or_comm (a := x = _)]

end

/-! ### HM_PTR -/

/-- `base` after the first `n` bytes of the table entry. -/
def State.baseAfter (s : State) : Nat → Addr
  | 0 => s.seq.base
  | n + 1 => setByte (s.baseAfter n) n (s.memByte (tableAddr s.job s.seq.i n))

/-- The state after the first `n` reads of HM_PTR, for n below 8. -/
def State.ptrAfter (s : State) (n : Nat) : State :=
  (s.withAccesses (s.accesses.afterReads (tableAddr s.job s.seq.i) n)).withSeq
    { s.seq with base := s.baseAfter n, k := Fin.ofNat 64 n }

/-- The state after HM_PTR. -/
@[irreducible] def State.ptrDone (s : State) : State :=
  (s.withAccesses (s.accesses.afterReads (tableAddr s.job s.seq.i) 8)).withSeq
    { s.seq with base := s.baseAfter 8, k := 0, cv := s.job.cv, j := 0#32, phase := .hmBlock }

theorem State.baseAfter_eight (s : State) : s.baseAfter 8 = s.tablePtr s.seq.i := by
  apply addr_ext
  rintro ⟨n, hn⟩
  rw [State.tablePtr, extract_le64]
  simp only [State.baseAfter]
  repeat rw [extract_setByte _ _ (by omega) hn]
  interval_cases n <;> simp

theorem coreStep_ptrAfter {s : State} (hp : s.seq.phase = .hmPtr) {n : Nat} (hn : n < 8)
    (ha : s.admits (tableAddr s.job s.seq.i n) .read = true)
    (hw : (tableAddr s.job s.seq.i n).toNat ∉ s.accesses.written) :
    coreStep (s.ptrAfter n) = .next (if n < 7 then s.ptrAfter (n + 1) else s.ptrDone) := by
  have hk : n % 64 = n := by omega
  have hk' : (Fin.ofNat 64 n).val = n := hk
  rw [coreStep_hmPtr (by exact hp), hmPtrStep]
  have e : tableAddr (s.ptrAfter n).job (s.ptrAfter n).seq.i (s.ptrAfter n).seq.k.val = tableAddr s.job s.seq.i n := by
    simp [State.ptrAfter, hk]
  rw [e, coreRead_of_allowed (by exact ha) (by simpa [State.ptrAfter] using hw)]
  congr 1
  have hf : Fin.ofNat 64 n + 1 = Fin.ofNat 64 (n + 1) := Fin.ext (by simp [Fin.val_add])
  by_cases h7 : n < 7
  · simp only [State.ptrAfter, State.withAccesses, State.withSeq, hk', h7, if_true, hf]
    rfl
  · obtain rfl : n = 7 := by omega
    unfold State.ptrDone
    rfl

section
variable (s : State)

@[simp] theorem State.ptrDone_regs : s.ptrDone.regs = s.regs := by simp [State.ptrDone]
@[simp] theorem State.ptrDone_written : s.ptrDone.written = s.written := by simp [State.ptrDone]
@[simp] theorem State.ptrDone_pipe : s.ptrDone.pipe = s.pipe := by simp [State.ptrDone]
@[simp] theorem State.ptrDone_job : s.ptrDone.job = s.job := by simp [State.ptrDone]
@[simp] theorem State.ptrDone_seq :
    s.ptrDone.seq = { s.seq with base := s.baseAfter 8, k := 0, cv := s.job.cv, j := 0#32, phase := .hmBlock } := by
  simp [State.ptrDone]
@[simp] theorem State.ptrDone_accesses : s.ptrDone.accesses = s.accesses.afterReads (tableAddr s.job s.seq.i) 8 := by simp [State.ptrDone]
@[simp] theorem State.ptrDone_mem : s.ptrDone.mem = s.mem := by simp [State.ptrDone]
@[simp] theorem State.ptrDone_refused : s.ptrDone.refused = s.refused := by simp [State.ptrDone]
@[simp] theorem State.ptrDone_turns : s.ptrDone.turns = s.turns := by simp [State.ptrDone]
@[simp] theorem State.ptrDone_rdata : s.ptrDone.rdata = s.rdata := by simp [State.ptrDone]
@[simp] theorem State.ptrDone_mdata : s.ptrDone.mdata = s.mdata := by simp [State.ptrDone]

end

/-- HM_PTR, whole: eight admitted reads of bytes the command has not written. -/
theorem coreRun_hmPtr {s : State} (hp : s.seq.phase = .hmPtr) (h0 : s.seq.k = 0)
    (h : ∀ n < 8, s.admits (tableAddr s.job s.seq.i n) .read = true ∧
      (tableAddr s.job s.seq.i n).toNat ∉ s.accesses.written) : coreRun 8 s = .next s.ptrDone := by
  have e0 : s.ptrAfter 0 = s := by
    obtain ⟨_, _, _, _, q, _, _, _, _, _, _⟩ := s
    cases q; simp only at h0; subst h0; rfl
  have run := coreRun_along (f := s.ptrAfter) (N := 7)
    (fun n hn => by simpa [hn] using coreStep_ptrAfter hp (show n < 8 by omega) (h n (by omega)).1 (h n (by omega)).2)
    7 (le_refl 7)
  rw [e0] at run
  rw [show 8 = 7 + 1 from rfl, coreRun_add_of_next run, coreRun,
    coreStep_ptrAfter hp (by omega) (h 7 (by omega)).1 (h 7 (by omega)).2]
  rfl

/-! ### HM_BLOCK -/

/-- The block buffer after the first `n` bytes of the block. -/
def State.bufAfter (s : State) (n : Nat) : Block :=
  Vector.ofFn fun b => if b.val < n then s.memByte (blockAddr s.seq.base s.seq.j b.val) else s.seq.buf[b]

/-- The state after the first `n` reads of HM_BLOCK, for n below 64. -/
def State.blockAfter (s : State) (n : Nat) : State :=
  (s.withAccesses (s.accesses.afterReads (blockAddr s.seq.base s.seq.j) n)).withSeq
    { s.seq with buf := s.bufAfter n, k := Fin.ofNat 64 n }

/-- The state after HM_BLOCK. -/
@[irreducible] def State.blockDone (s : State) : State :=
  (s.withAccesses (s.accesses.afterReads (blockAddr s.seq.base s.seq.j) 64)).withSeq
    { s.seq with buf := s.bufAfter 64, k := 0, phase := .hmMix }

theorem State.bufAfter_succ (s : State) {n : Nat} (hn : n < 64) :
    (s.bufAfter n).set n (s.memByte (blockAddr s.seq.base s.seq.j n)) = s.bufAfter (n + 1) := by
  ext1 k hk
  rw [Vector.getElem_set]
  simp only [State.bufAfter, Vector.getElem_ofFn]
  split
  · next e => subst e; simp
  · have : k < n ↔ k < n + 1 := by omega
    simp [this]

theorem coreStep_blockAfter {s : State} (hp : s.seq.phase = .hmBlock) {n : Nat} (hn : n < 64)
    (ha : s.admits (blockAddr s.seq.base s.seq.j n) .read = true)
    (hw : (blockAddr s.seq.base s.seq.j n).toNat ∉ s.accesses.written) :
    coreStep (s.blockAfter n) = .next (if n < 63 then s.blockAfter (n + 1) else s.blockDone) := by
  have hk : n % 64 = n := by omega
  have hk' : (Fin.ofNat 64 n).val = n := hk
  rw [coreStep_hmBlock (by exact hp), hmBlockStep]
  have e : blockAddr (s.blockAfter n).seq.base (s.blockAfter n).seq.j (s.blockAfter n).seq.k.val =
      blockAddr s.seq.base s.seq.j n := by
    simp [State.blockAfter, hk]
  rw [e, coreRead_of_allowed (by exact ha) (by simpa [State.blockAfter] using hw)]
  congr 1
  have hf : Fin.ofNat 64 n + 1 = Fin.ofNat 64 (n + 1) := Fin.ext (by simp [Fin.val_add])
  have hb := s.bufAfter_succ hn
  by_cases h7 : n < 63
  · simp only [State.blockAfter, State.withAccesses, State.withSeq, hk', h7, if_true, hf, ← hb]
    rfl
  · obtain rfl : n = 63 := by omega
    simp only [State.blockAfter, State.blockDone, State.withAccesses, State.withSeq, ← hb]
    rfl

section
variable (s : State)

@[simp] theorem State.blockDone_regs : s.blockDone.regs = s.regs := by simp [State.blockDone]
@[simp] theorem State.blockDone_written : s.blockDone.written = s.written := by simp [State.blockDone]
@[simp] theorem State.blockDone_pipe : s.blockDone.pipe = s.pipe := by simp [State.blockDone]
@[simp] theorem State.blockDone_job : s.blockDone.job = s.job := by simp [State.blockDone]
@[simp] theorem State.blockDone_seq :
    s.blockDone.seq = { s.seq with buf := s.bufAfter 64, k := 0, phase := .hmMix } := by
  simp [State.blockDone]
@[simp] theorem State.blockDone_accesses : s.blockDone.accesses = s.accesses.afterReads (blockAddr s.seq.base s.seq.j) 64 := by simp [State.blockDone]
@[simp] theorem State.blockDone_mem : s.blockDone.mem = s.mem := by simp [State.blockDone]
@[simp] theorem State.blockDone_refused : s.blockDone.refused = s.refused := by simp [State.blockDone]
@[simp] theorem State.blockDone_turns : s.blockDone.turns = s.turns := by simp [State.blockDone]
@[simp] theorem State.blockDone_rdata : s.blockDone.rdata = s.rdata := by simp [State.blockDone]
@[simp] theorem State.blockDone_mdata : s.blockDone.mdata = s.mdata := by simp [State.blockDone]

end

/-- HM_BLOCK, whole: sixty-four admitted reads of bytes the command has not written. -/
theorem coreRun_hmBlock {s : State} (hp : s.seq.phase = .hmBlock) (h0 : s.seq.k = 0)
    (h : ∀ n < 64, s.admits (blockAddr s.seq.base s.seq.j n) .read = true ∧
      (blockAddr s.seq.base s.seq.j n).toNat ∉ s.accesses.written) : coreRun 64 s = .next s.blockDone := by
  have e0 : s.blockAfter 0 = s := by
    have hb : s.bufAfter 0 = s.seq.buf := by ext1 k hk; simp [State.bufAfter]
    rw [State.blockAfter, hb]
    obtain ⟨_, _, _, _, q, _, _, _, _, _, _⟩ := s
    cases q; simp only at h0; subst h0; rfl
  have run := coreRun_along (f := s.blockAfter) (N := 63)
    (fun n hn => by
      simpa [hn] using coreStep_blockAfter hp (show n < 64 by omega) (h n (by omega)).1 (h n (by omega)).2)
    63 (le_refl 63)
  rw [e0] at run
  rw [show 64 = 63 + 1 from rfl, coreRun_add_of_next run, coreRun,
    coreStep_blockAfter hp (by omega) (h 63 (by omega)).1 (h 63 (by omega)).2]
  rfl

/-! ### HM_WRITE -/

/-- System memory after the first `n` digest bytes. -/
def State.digestMem (s : State) : Nat → Memory
  | 0 => s.mem
  | n + 1 => (s.digestMem n).set (digestAddr s.job s.seq.i n).toNat (digestByte s.seq.cv (Fin.ofNat 32 n))

/-- The state after the first `n` writes of HM_WRITE, for n below 32. -/
def State.writeAfter (s : State) (n : Nat) : State :=
  ((s.withMem (s.digestMem n)).withAccesses (s.accesses.afterWrites (digestAddr s.job s.seq.i) n)).withSeq
    { s.seq with k := Fin.ofNat 64 n }

/-- The state after HM_WRITE. -/
@[irreducible] def State.writeDone (s : State) : State :=
  ((s.withMem (s.digestMem 32)).withAccesses (s.accesses.afterWrites (digestAddr s.job s.seq.i) 32)).withSeq
    { s.seq with k := 0, phase := .hmNext }

theorem coreStep_writeAfter {s : State} (hp : s.seq.phase = .hmWrite) {n : Nat} (hn : n < 32)
    (ha : s.admits (digestAddr s.job s.seq.i n) .write = true)
    (hr : (digestAddr s.job s.seq.i n).toNat ∉ s.accesses.read) :
    coreStep (s.writeAfter n) = .next (if n < 31 then s.writeAfter (n + 1) else s.writeDone) := by
  have hk : n % 64 = n := by omega
  have hk' : (Fin.ofNat 64 n).val = n := hk
  rw [coreStep_hmWrite (by exact hp), hmWriteStep]
  have e : digestAddr (s.writeAfter n).job (s.writeAfter n).seq.i (s.writeAfter n).seq.k.val =
      digestAddr s.job s.seq.i n := by
    simp [State.writeAfter, hk]
  rw [e, coreWrite_of_allowed (by exact ha) (by simpa [State.writeAfter] using hr)]
  congr 1
  have hf : Fin.ofNat 64 n + 1 = Fin.ofNat 64 (n + 1) := Fin.ext (by simp [Fin.val_add])
  by_cases h7 : n < 31
  · simp only [State.writeAfter, State.withAccesses, State.withMem, State.storeByte, State.withSeq, hk', h7, if_true, hf]
    rfl
  · obtain rfl : n = 31 := by omega
    have hm : s.digestMem 32 =
        (s.digestMem 31).set (digestAddr s.job s.seq.i 31).toNat (digestByte s.seq.cv (Fin.ofNat 32 31)) := rfl
    simp only [State.writeAfter, State.writeDone, State.withAccesses, State.withMem, State.storeByte, State.withSeq,
      hm, h7, if_false]
    generalize s.digestMem 31 = m
    rfl

section
variable (s : State)

@[simp] theorem State.writeDone_regs : s.writeDone.regs = s.regs := by simp [State.writeDone]
@[simp] theorem State.writeDone_written : s.writeDone.written = s.written := by simp [State.writeDone]
@[simp] theorem State.writeDone_pipe : s.writeDone.pipe = s.pipe := by simp [State.writeDone]
@[simp] theorem State.writeDone_job : s.writeDone.job = s.job := by simp [State.writeDone]
@[simp] theorem State.writeDone_seq :
    s.writeDone.seq = { s.seq with k := 0, phase := .hmNext } := by
  simp [State.writeDone]
@[simp] theorem State.writeDone_accesses : s.writeDone.accesses = s.accesses.afterWrites (digestAddr s.job s.seq.i) 32 := by simp [State.writeDone]
@[simp] theorem State.writeDone_mem : s.writeDone.mem = s.digestMem 32 := by simp [State.writeDone]
@[simp] theorem State.writeDone_refused : s.writeDone.refused = s.refused := by simp [State.writeDone]
@[simp] theorem State.writeDone_turns : s.writeDone.turns = s.turns := by simp [State.writeDone]
@[simp] theorem State.writeDone_rdata : s.writeDone.rdata = s.rdata := by simp [State.writeDone]
@[simp] theorem State.writeDone_mdata : s.writeDone.mdata = s.mdata := by simp [State.writeDone]

end

/-- HM_WRITE, whole: thirty-two admitted writes of bytes the command has not read. -/
theorem coreRun_hmWrite {s : State} (hp : s.seq.phase = .hmWrite) (h0 : s.seq.k = 0)
    (h : ∀ n < 32, s.admits (digestAddr s.job s.seq.i n) .write = true ∧
      (digestAddr s.job s.seq.i n).toNat ∉ s.accesses.read) : coreRun 32 s = .next s.writeDone := by
  have e0 : s.writeAfter 0 = s := by
    obtain ⟨_, _, _, _, q, _, _, _, _, _, _⟩ := s
    cases q; simp only at h0; subst h0; rfl
  have run := coreRun_along (f := s.writeAfter) (N := 31)
    (fun n hn => by
      simpa [hn] using coreStep_writeAfter hp (show n < 32 by omega) (h n (by omega)).1 (h n (by omega)).2)
    31 (le_refl 31)
  rw [e0] at run
  rw [show 32 = 31 + 1 from rfl, coreRun_add_of_next run, coreRun,
    coreStep_writeAfter hp (by omega) (h 31 (by omega)).1 (h 31 (by omega)).2]
  rfl

/-- A byte outside the digest reads as before HM_WRITE. -/
theorem State.digestMem_get_of_ne (s : State) (n : Nat) {x : Nat}
    (h : ∀ m < n, x ≠ (digestAddr s.job s.seq.i m).toNat) : (s.digestMem n).get x = s.mem.get x := by
  induction n with
  | zero => rfl
  | succ n ih =>
    rw [State.digestMem, Memory.get_set_of_ne _ _ (h n (by omega)), ih (fun m hm => h m (by omega))]

/-- A digest byte is in place once it is written. -/
theorem State.digestMem_get (s : State) {n m : Nat} (hn : n ≤ 32) (hm : m < n) :
    (s.digestMem n).get (digestAddr s.job s.seq.i m).toNat = some (digestByte s.seq.cv (Fin.ofNat 32 m)) := by
  induction n with
  | zero => omega
  | succ n ih =>
    rw [State.digestMem]
    by_cases e : m = n
    · subst e; simp
    · rw [Memory.get_set_of_ne, ih (by omega) (by omega)]
      exact fun h => e (digestAddr_inj (by omega) (by omega) (BitVec.eq_of_toNat_eq h)).2

end Sys2Proof.Machine
end

