-- ==== Sys2Proof/Laws/Datapath.lean ====
section
/-!
SUPPORT. The lanes and words of the datapath's operations, one lemma each, so that proofs about a lane need not unfold them.
-/

namespace Sys2Proof.Machine

section
variable (a b : Row) (w v : Cv)

@[simp] theorem getElem_addv (c : Nat) (h : c < 4) : (addv a b)[c] = a[c] + b[c] := by simp [addv]
@[simp] theorem getElem_xorv (c : Nat) (h : c < 4) : (xorv a b)[c] = a[c] ^^^ b[c] := by simp [xorv]
@[simp] theorem getElem_rotrv (n c : Nat) (h : c < 4) : (rotrv a n)[c] = rotr32 a[c] n := by simp [rotrv]
@[simp] theorem getElem_lrot (k c : Nat) (h : c < 4) :
    (lrot a k)[c] = a[(c + k) % 4]'(Nat.mod_lt _ (by decide)) := by simp [lrot]

@[simp] theorem getElem_lowRow (c : Nat) (h : c < 4) : (lowRow w)[c] = w[c]'(by omega) := by
  interval_cases c <;> rfl
@[simp] theorem getElem_highRow (c : Nat) (h : c < 4) : (highRow w)[c] = w[4 + c]'(by omega) := by
  interval_cases c <;> rfl
theorem getElem_joinRows_low (c : Nat) (h : c < 4) : (joinRows a b)[c]'(by omega) = a[c] := by
  interval_cases c <;> rfl
theorem getElem_joinRows_high (c : Nat) (h : c < 4) : (joinRows a b)[4 + c]'(by omega) = b[c] := by
  interval_cases c <;> rfl
theorem getElem_joinHalves_low (k : Nat) (h : k < 8) : (joinHalves w v)[k]'(by omega) = w[k] := by
  interval_cases k <;> rfl
theorem getElem_joinHalves_high (k : Nat) (h : k < 8) : (joinHalves w v)[8 + k]'(by omega) = v[k] := by
  interval_cases k <;> rfl

end

/-- The seven rounds, one after another (R185). -/
theorem rounds_eq (S : Grid) (m : Words16) :
    rounds S m =
      roundStep (roundStep (roundStep (roundStep (roundStep (roundStep (roundStep S m 0) m 1) m 2) m 3) m 4) m 5) m 6 :=
  rfl

end Sys2Proof.Machine
end

