-- ==== Sys2Proof/Laws/PerInstr.lean ====
section
/-!
SUPPORT. Statements made per instruction. EncodeFields: the word of an instruction has its OP, a zero RSV, its flags, and the
HASH_MANY fields its row gives it (R91, R93, R98).
-/

namespace Sys2Proof.Laws.EncodeFields

/-- The OP an instruction is encoded with (R92). -/
def opOf : Instr → BitVec 2
  | .compress _ => 0#2
  | .compressXof _ => 1#2
  | .hashMany _ _ _ _ => 2#2

/-- Every field of the word is the instruction's. -/
def Statement (i : Instr) : Prop :=
  fieldOp (encode i) = opOf i ∧ fieldRsv (encode i) = 0#5 ∧
    (match i with
      | .compress f => fieldFlags (encode i) = f ∧ batchFieldsZero (encode i) = true
      | .compressXof f => fieldFlags (encode i) = f ∧ batchFieldsZero (encode i) = true
      | .hashMany inc f fs fe =>
        fieldFlags (encode i) = f ∧ fieldInc (encode i) = BitVec.ofBool inc ∧
          fieldFlagsStart (encode i) = fs ∧ fieldFlagsEnd (encode i) = fe)

section
variable (op : BitVec 2) (inc : Bool) (f fs fe : Byte)

theorem op_enc : fieldOp (enc op inc f fs fe) = op := by
  apply BitVec.eq_of_getLsbD_eq; intro n hn
  simp [fieldOp, enc, BitVec.getLsbD_setWidth]
  interval_cases n <;> simp
theorem inc_enc : fieldInc (enc op inc f fs fe) = BitVec.ofBool inc := by
  apply BitVec.eq_of_getLsbD_eq; intro n hn
  simp [fieldInc, enc]
  interval_cases n; simp
theorem rsv_enc : fieldRsv (enc op inc f fs fe) = 0#5 := by
  apply BitVec.eq_of_getLsbD_eq; intro n hn
  simp [fieldRsv, enc]
  interval_cases n <;> simp
theorem flags_enc : fieldFlags (enc op inc f fs fe) = f := by
  apply BitVec.eq_of_getLsbD_eq; intro n hn
  simp [fieldFlags, enc]
  interval_cases n <;> simp
theorem flagsStart_enc : fieldFlagsStart (enc op inc f fs fe) = fs := by
  apply BitVec.eq_of_getLsbD_eq; intro n hn
  simp [fieldFlagsStart, enc]
  interval_cases n <;> simp
theorem flagsEnd_enc : fieldFlagsEnd (enc op inc f fs fe) = fe := by
  apply BitVec.eq_of_getLsbD_eq; intro n hn
  simp [fieldFlagsEnd, enc]
  interval_cases n <;> simp

end

theorem compress (f : Byte) : Statement (.compress f) :=
  ⟨op_enc .., rsv_enc .., flags_enc .., by simp [batchFieldsZero, encode, inc_enc, flagsStart_enc, flagsEnd_enc]⟩

theorem compressXof (f : Byte) : Statement (.compressXof f) :=
  ⟨op_enc .., rsv_enc .., flags_enc .., by simp [batchFieldsZero, encode, inc_enc, flagsStart_enc, flagsEnd_enc]⟩

theorem hashMany (inc : Bool) (f fs fe : Byte) : Statement (.hashMany inc f fs fe) :=
  ⟨op_enc .., rsv_enc .., flags_enc .., inc_enc .., flagsStart_enc .., flagsEnd_enc ..⟩

end Sys2Proof.Laws.EncodeFields
end

