-- ==== Sys2Proof/Laws/Runs.lean ====
section
/-!
SUPPORT. When a command is accepted, and the first eight of the nine steps of R187, for whichever phase runs them.
-/

namespace Sys2Proof.Machine

/-! ### Acceptance -/

theorem all_id_toList {n : Nat} (v : Vector Bool n) : v.toList.all id = true ↔ ∀ k : Fin n, v[k] = true := by
  simp only [List.all_eq_true, id]
  constructor
  · exact fun h k => h _ (by simp)
  · intro h x hx
    obtain ⟨i, hi, rfl⟩ := List.getElem_of_mem hx
    simpa using h ⟨i, by simpa using hi⟩

theorem compressOperands_iff (w : Written) : w.compressOperands = true ↔ CompressOperandsWritten w := by
  simp only [Written.compressOperands, Bool.and_eq_true, all_id_toList, and_assoc]

theorem batchOperands_iff (w : Written) : w.batchOperands = true ↔ BatchOperandsWritten w := by
  simp only [Written.batchOperands, Bool.and_eq_true, all_id_toList, and_assoc]

/-- COMPRESS is accepted in every ready state. -/
theorem exec_compress_of_ready {s : State} (h : s.CompressReady) (f : Byte) :
    exec (.compress f) s = .next (s.accept (latchCompress .compress f s) .compressRun) := by
  obtain ⟨hb, hw, hl⟩ := h
  have hl' : ¬64#32 < s.regs.blockLen := by rwa [BitVec.not_lt]
  simp [exec, execCompress, request_of_idle hb, startCompress, hw.2.2.1, hl', (compressOperands_iff _).2 hw]

/-- COMPRESS_XOF is accepted in every ready state. -/
theorem exec_compressXof_of_ready {s : State} (h : s.CompressReady) (f : Byte) :
    exec (.compressXof f) s = .next (s.accept (latchCompress .compressXof f s) .xofRun) := by
  obtain ⟨hb, hw, hl⟩ := h
  have hl' : ¬64#32 < s.regs.blockLen := by rwa [BitVec.not_lt]
  simp [exec, execCompressXof, request_of_idle hb, startCompress, hw.2.2.1, hl', (compressOperands_iff _).2 hw]

/-- HASH_MANY is accepted in every ready state. -/
theorem exec_hashMany_of_ready {s : State} (h : s.BatchReady) (inc : Bool) (f fs fe : Byte) :
    exec (.hashMany inc f fs fe) s =
      .next (s.accept (latchBatch inc f fs fe s) (if s.regs.numInputs = 0#32 then .hmNext else .hmPtr)) := by
  obtain ⟨hb, hw, hl⟩ := h
  simp [exec, execHashMany, request_of_idle hb, startBatch, hw.2.2.2.2.1, hl, (batchOperands_iff _).2 hw]

/-! ### The pipeline -/

/-- The grid after `n` rounds. -/
def gridAfter (x : CompressInput) : Nat → Grid
  | 0 => initGrid x
  | n + 1 => if h : n < 7 then roundStep (gridAfter x n) (parseBlock x.block) ⟨n, h⟩ else gridAfter x n

theorem gridAfter_seven (x : CompressInput) : gridAfter x 7 = rounds (initGrid x) (parseBlock x.block) := by
  simp [gridAfter, rounds_eq]

/-- The state with step 0 of R187 and `n` rounds of the compression of `x` behind it. -/
def State.afterRounds (s : State) (x : CompressInput) (n : Nat) : State :=
  (s.withPipe { grid := gridAfter x n, m := parseBlock x.block, cvIn := x.cv }).withSeq
    { s.seq with rnd := Fin.ofNat 8 n, loaded := true }

section
variable (s : State) (x : CompressInput) (n : Nat)

@[simp] theorem State.afterRounds_regs : (s.afterRounds x n).regs = s.regs := rfl
@[simp] theorem State.afterRounds_written : (s.afterRounds x n).written = s.written := rfl
@[simp] theorem State.afterRounds_pipe :
    (s.afterRounds x n).pipe = { grid := gridAfter x n, m := parseBlock x.block, cvIn := x.cv } := rfl
@[simp] theorem State.afterRounds_job : (s.afterRounds x n).job = s.job := rfl
@[simp] theorem State.afterRounds_seq :
    (s.afterRounds x n).seq = { s.seq with rnd := Fin.ofNat 8 n, loaded := true } := rfl
@[simp] theorem State.afterRounds_accesses : (s.afterRounds x n).accesses = s.accesses := rfl
@[simp] theorem State.afterRounds_mem : (s.afterRounds x n).mem = s.mem := rfl
@[simp] theorem State.afterRounds_refused : (s.afterRounds x n).refused = s.refused := rfl
@[simp] theorem State.afterRounds_turns : (s.afterRounds x n).turns = s.turns := rfl
@[simp] theorem State.afterRounds_rdata : (s.afterRounds x n).rdata = s.rdata := rfl
@[simp] theorem State.afterRounds_mdata : (s.afterRounds x n).mdata = s.mdata := rfl

theorem State.pipeStep_of_unloaded (h : s.seq.loaded = false) : s.pipeStep x = s.afterRounds x 0 := by
  simp [State.pipeStep, h, State.afterRounds, gridAfter, loadPipe]

theorem State.pipeStep_afterRounds (h : n < 7) : (s.afterRounds x n).pipeStep x = s.afterRounds x (n + 1) := by
  have hn : n % 8 = n := by omega
  have hr : (s.afterRounds x n).seq.rnd.val < 7 := by simpa [hn] using h
  have e : (⟨(s.afterRounds x n).seq.rnd.val, hr⟩ : Fin 7) = ⟨n, h⟩ := by simp [hn]
  rw [State.pipeStep, if_pos (by simp), dif_pos hr, e]
  simp [State.afterRounds, gridAfter, h, State.withPipe, State.withSeq]
  exact Fin.ext (by simp [Fin.val_add])

theorem State.pipeDone_afterRounds_of_lt (h : n < 7) : (s.afterRounds x n).pipeDone = false := by
  simp [State.pipeDone, Fin.ext_iff]; omega

theorem State.pipeDone_afterRounds_seven : (s.afterRounds x 7).pipeDone = true := by
  simp [State.pipeDone]

end

/-- The first `n + 1` steps of R187 of a running COMPRESS. -/
theorem coreRun_compressRun {s : State} (h : s.seq.phase = .compressRun) (hl : s.seq.loaded = false) {n : Nat}
    (hn : n ≤ 7) : coreRun (n + 1) s = .next (s.afterRounds s.job.compressInput n) := by
  induction n with
  | zero =>
    have hd : s.pipeDone = false := by simp [State.pipeDone, hl]
    simp [coreRun, coreStep_compressRun h, compressRunStep, hd, State.pipeStep_of_unloaded _ _ hl]
  | succ n ih =>
    have hd := State.pipeDone_afterRounds_of_lt s s.job.compressInput n (by omega)
    rw [coreRun_add_of_next (ih (by omega)), coreRun, coreStep_compressRun (by simpa using h)]
    simp [compressRunStep, hd, State.pipeStep_afterRounds _ _ _ (show n < 7 by omega)]

/-- The first `n + 1` steps of R187 of a running COMPRESS_XOF. -/
theorem coreRun_xofRun {s : State} (h : s.seq.phase = .xofRun) (hl : s.seq.loaded = false) {n : Nat}
    (hn : n ≤ 7) : coreRun (n + 1) s = .next (s.afterRounds s.job.compressInput n) := by
  induction n with
  | zero =>
    have hd : s.pipeDone = false := by simp [State.pipeDone, hl]
    simp [coreRun, coreStep_xofRun h, xofRunStep, hd, State.pipeStep_of_unloaded _ _ hl]
  | succ n ih =>
    have hd := State.pipeDone_afterRounds_of_lt s s.job.compressInput n (by omega)
    rw [coreRun_add_of_next (ih (by omega)), coreRun, coreStep_xofRun (by simpa using h)]
    simp [xofRunStep, hd, State.pipeStep_afterRounds _ _ _ (show n < 7 by omega)]

/-- The block flags of HM_MIX, written to the sequencer at every step of it: after the first step they are in place. -/
def State.flagged (s : State) : State := s.withSeq { s.seq with bflags := s.currentFlags }

/-- The first `n + 1` steps of R187 of HM_MIX. -/
theorem coreRun_hmMix {s : State} (h : s.seq.phase = .hmMix) (hl : s.seq.loaded = false) {n : Nat} (hn : n ≤ 7) :
    coreRun (n + 1) s = .next (s.flagged.afterRounds s.flagged.seq.mixInput n) := by
  induction n with
  | zero =>
    have hd : s.flagged.pipeDone = false := by simp [State.flagged, State.pipeDone, hl]
    have hp : s.flagged.pipeStep s.flagged.seq.mixInput = s.flagged.afterRounds s.flagged.seq.mixInput 0 :=
      State.pipeStep_of_unloaded _ _ (by simpa [State.flagged] using hl)
    rw [coreRun, coreStep_hmMix h]
    change (match (if s.flagged.pipeDone then _ else Host.Outcome.next (s.flagged.pipeStep s.flagged.seq.mixInput)) with
      | .next t => coreRun 0 t | .fault f => .fault f | .refused r => .refused r) = _
    rw [hd, hp]
    rfl
  | succ n ih =>
    have hd := State.pipeDone_afterRounds_of_lt s.flagged s.flagged.seq.mixInput n (by omega)
    have hp := State.pipeStep_afterRounds s.flagged s.flagged.seq.mixInput n (show n < 7 by omega)
    rw [coreRun_add_of_next (ih (by omega)), coreRun, coreStep_hmMix (by simpa [State.flagged] using h)]
    have hf : (s.flagged.afterRounds s.flagged.seq.mixInput n).withSeq
        { (s.flagged.afterRounds s.flagged.seq.mixInput n).seq with
          bflags := (s.flagged.afterRounds s.flagged.seq.mixInput n).currentFlags } =
        s.flagged.afterRounds s.flagged.seq.mixInput n := rfl
    have hm : (s.flagged.afterRounds s.flagged.seq.mixInput n).seq.mixInput = s.flagged.seq.mixInput := rfl
    simp only [hmMixStep, hf, hd, hm, hp]
    rfl

end Sys2Proof.Machine
end

