-- ==== Sys2Proof/Laws/Step.lean ====
section
/-!
SUPPORT. Everything one step of the machine can do when it answers a next state. An invariant is proved case by case on this,
with no need to unfold the step.
-/

namespace Sys2Proof.Machine

/-- What a turn of another agent than the core and reset can do to the state it is taken on: a command, a rejection of a word that
is no command, a dropped write, an acknowledgement, a write to CTRL, a stored register, an answer to the host, or a byte stored
by the host. -/
inductive HostEffect (s : State) : State → Prop where
  | command {t : State} (i : Instr) (h : exec i s = .next t) : HostEffect s t
  | rejected (c : Cause) (h : s.regs.status.busy = false) : HostEffect s (s.reject c)
  | dropped (h : s.regs.status.busy = true) : HostEffect s s.dropWrite
  | statusWrite (d : Word) : HostEffect s (s.writeStatus d)
  | ctrlWrite (d : Word) : HostEffect s (s.writeCtrl d)
  | stored (r : WinReg) (d : Word) (h : ¬(r.busyLocked = true ∧ s.regs.status.busy = true)) :
      HostEffect s (s.storeReg r d)
  | answered (d : Option Word) : HostEffect s (s.withRdata d)
  | polled (d : Option Word) (ts : List Turn) : HostEffect s ((s.withRdata d).withTurns ts)
  | hostStore (a : Addr) (b : Byte)
      (h : (s.batchRunning && (s.batchReads a || s.batchWrites a)) = false) : HostEffect s (s.storeByte a b)
  | hostRead (b : Option Byte) : HostEffect s (s.withMdata b)

/-- What any turn can do: a core step, reset, or an effect of another agent. -/
inductive Effect (s : State) : State → Prop where
  | core {t : State} (h : coreStep s = .next t) : Effect s t
  | hardReset : Effect s s.hardReset
  | host {t : State} (h : HostEffect s t) : Effect s t

theorem writeCmd_next {d : Word} {s t : State} (h : writeCmd d s = .next t) : HostEffect s t := by
  unfold writeCmd at h
  split at h
  · exact .command _ h
  · rcases request_next h with ⟨hb, rfl⟩ | ⟨hb, h⟩
    · exact .dropped hb
    · cases h; exact .rejected _ hb

theorem writeReg_effect (s : State) (r : WinReg) (d : Word) : HostEffect s (s.writeReg r d) := by
  unfold State.writeReg
  split
  · next h => exact .dropped (by simp_all)
  · next h =>
    have h' : ¬(r.busyLocked = true ∧ s.regs.status.busy = true) := by simpa using h
    split
    · exact .statusWrite d
    · exact .ctrlWrite d
    · exact .stored _ d h'

theorem portWrite_next {width : Nat} {off : BitVec 8} {d : Word} {s t : State}
    (h : portWrite width off d s = .next t) : HostEffect s t := by
  unfold portWrite at h
  split at h
  · split at h
    · exact writeCmd_next h
    · cases h; exact writeReg_effect ..
  · cases h

theorem portRead_next {width : Nat} {off : BitVec 8} {s t : State} (h : portRead width off s = .next t) :
    let r := winRegOf (off.toNat / 4)
    wordAccess width off = true ∧ s.regWritten r = true ∧ t = s.withRdata (some (s.regValue r)) := by
  unfold portRead readReg at h
  split at h
  · next hw =>
    split at h
    · next hr => cases h; exact ⟨hw, hr, rfl⟩
    · cases h
  · cases h

/-- What a turn can do that is neither the core's nor reset. -/
theorem runTurn_host {τ : Turn} {s t : State} (hc : τ ≠ .core) (hr : τ ≠ .reset) (h : runTurn τ s = .next t) :
    HostEffect s t := by
  cases τ with
  | core => exact absurd rfl hc
  | reset => exact absurd rfl hr
  | regWrite width off d => exact portWrite_next h
  | regRead width off => obtain ⟨_, _, rfl⟩ := portRead_next h; exact .answered _
  | memWrite a b =>
    simp only [runTurn, hostMemWrite] at h
    split at h
    · cases h
    · next hr => cases h; exact .hostStore a b (by simpa using hr)
  | memRead a =>
    simp only [runTurn, hostMemRead] at h
    split at h
    · cases h
    · cases h; exact .hostRead _
  | waitIdle =>
    cases h
    split
    · exact .polled _ _
    · exact .answered _

theorem runTurn_next {τ : Turn} {s t : State} (h : runTurn τ s = .next t) : Effect s t := by
  by_cases hc : τ = .core
  · subst hc; exact .core h
  · by_cases hr : τ = .reset
    · subst hr; cases h; exact .hardReset
    · exact .host (runTurn_host hc hr h)

/-- Everything a step can do: the effect of one turn, on the state itself or on the state with that turn taken away. -/
theorem step_next {s t : State} (h : step s = .next t) :
    Effect s t ∨ ∃ τ rest, s.turns = τ :: rest ∧ Effect (s.withTurns rest) t := by
  unfold step nextTurn at h
  split at h
  · exact .inl (.core h)
  · next τ rest hs => exact .inr ⟨τ, rest, hs, runTurn_next h⟩

/-- An invariant that no pending turn can break holds after a step, if every effect keeps it. -/
theorem step_keeps {Inv : State → Prop} (hturns : ∀ s ts, Inv s → Inv (s.withTurns ts))
    (heffect : ∀ s t, Inv s → Effect s t → Inv t) {s t : State} (hi : Inv s) (h : step s = .next t) : Inv t := by
  rcases step_next h with h | ⟨_, rest, _, h⟩
  · exact heffect _ _ hi h
  · exact heffect _ _ (hturns _ rest hi) h

section
variable (s : State) (r : WinReg) (d : Word)

/-- A stored register changes neither STATUS nor CTRL nor anything but the register window and its validity bits. -/
@[simp] theorem State.storeReg_status : (s.storeReg r d).regs.status = s.regs.status := by cases r <;> rfl
@[simp] theorem State.storeReg_ie : (s.storeReg r d).regs.ie = s.regs.ie := by cases r <;> rfl
@[simp] theorem State.storeReg_pipe : (s.storeReg r d).pipe = s.pipe := by cases r <;> rfl
@[simp] theorem State.storeReg_job : (s.storeReg r d).job = s.job := by cases r <;> rfl
@[simp] theorem State.storeReg_seq : (s.storeReg r d).seq = s.seq := by cases r <;> rfl
@[simp] theorem State.storeReg_accesses : (s.storeReg r d).accesses = s.accesses := by cases r <;> rfl
@[simp] theorem State.storeReg_mem : (s.storeReg r d).mem = s.mem := by cases r <;> rfl
@[simp] theorem State.storeReg_refused : (s.storeReg r d).refused = s.refused := by cases r <;> rfl
@[simp] theorem State.storeReg_turns : (s.storeReg r d).turns = s.turns := by cases r <;> rfl
@[simp] theorem State.storeReg_rdata : (s.storeReg r d).rdata = s.rdata := by cases r <;> rfl
@[simp] theorem State.storeReg_mdata : (s.storeReg r d).mdata = s.mdata := by cases r <;> rfl

end

end Sys2Proof.Machine
end

