-- ==== Sys2Proof/Tests/Slice0.lean ====
section
/-!
SUPPORT. The model's own tests: words that are no command, words written out from the encoding, the datapath's vectors of
95_test_vectors.md, one-step tests, and for every obligation a state and operands that meet its hypotheses. Expected values come
from the spec (the vector or rule is named) or from hand calculation.
-/

namespace Sys2Proof.Tests

open Sys2Proof.Machine

/-! ### WellFormed: one ill-formed word per check (R98), and the legal ones beside it -/

theorem test_op3_refused : wordOpLegal 0b00000000000000000000000000000011#32 = false := by decide
theorem test_rsv_refused : wordRsvZero 0b00000000000000000000000000001000#32 = false := by decide
theorem test_inc_of_compress_refused : wordBatchFieldsZero 0b00000000000000000000000000000100#32 = false := by decide
theorem test_start_of_compress_refused :
    wordBatchFieldsZero 0b00000000000000010000101100000000#32 = false := by decide
theorem test_end_of_xof_refused : wordBatchFieldsZero 0b00000001000000000000101100000001#32 = false := by decide
theorem test_illformed_words :
    [0x00000003#32, 0x000000FB#32, 0x00000008#32, 0x00000081#32, 0x00000082#32, 0x00000004#32, 0x00010B00#32,
      0x01000B01#32].map wordWellFormed = List.replicate 8 false := by decide
theorem test_wellformed_words :
    [0x00000B00#32, 0x0000FF00#32, 0x00000B01#32, 0x02010006#32, 0xFFFFFF06#32, 0xFFFFFF02#32].map wordWellFormed =
      List.replicate 6 true := by decide
theorem test_terms_wellformed :
    (Instr.compress 0x0B#8).wellFormed = true ∧ (Instr.compressXof 0xFF#8).wellFormed = true ∧
      (Instr.hashMany true 0#8 1#8 2#8).wellFormed = true := by decide

/-! ### Decode: words written out bit by bit, FLAGS_END FLAGS_START FLAGS RSV INC OP (R91, R93) -/

theorem test_decode_compress :
    decode 0b00000000_00000000_00001011_00000_0_00#32 = .command (.compress 0x0B#8) := by decide
theorem test_decode_compress_xof :
    decode 0b00000000_00000000_00001011_00000_0_01#32 = .command (.compressXof 0x0B#8) := by decide
theorem test_decode_hash_many :
    decode 0b00000010_00000001_00000000_00000_1_10#32 = .command (.hashMany true 0#8 1#8 2#8) := by decide
theorem test_decode_hash_many_every_field :
    decode 0b10000001_01111110_11000011_00000_0_10#32 = .command (.hashMany false 0xC3#8 0x7E#8 0x81#8) := by decide
theorem test_decode_priority : decode 0x000000FB#32 = .rejected .illegalOp := by decide
theorem test_encode_spec_words :
    encode (.compress 0x0B#8) = 0x00000B00#32 ∧ encode (.hashMany true 0#8 1#8 2#8) = 0x02010006#32 := by decide
theorem test_decodeTableWord :
    decodeTableWord 32 0x02010006 = some (.hashMany true 0#8 1#8 2#8) ∧ decodeTableWord 32 3 = none := by decide

/-! ### The datapath's vectors -/

/-- The grid of rows of a flat view. -/
def gridOf (v : Words16) : Grid :=
  { row0 := #v[v[0], v[1], v[2], v[3]], row1 := #v[v[4], v[5], v[6], v[7]],
    row2 := #v[v[8], v[9], v[10], v[11]], row3 := #v[v[12], v[13], v[14], v[15]] }

/-- The input grid of MX-8 and MX-9. -/
def mx8Grid : Grid :=
  { row0 := lowRow ivRom, row1 := highRow ivRom, row2 := lowRow ivRom, row3 := #v[0#32, 0#32, 0x40#32, 0#32] }

/-- A row of equal lanes. -/
def flatRow (w : Word) : Row := Vector.replicate 4 w

theorem test_MX1_addv :
    addv #v[0xFFFFFFFF#32, 1#32, 0x80000000#32, 0x12345678#32]
      #v[1#32, 0xFFFFFFFF#32, 0x80000000#32, 0x11111111#32] = #v[0#32, 0#32, 0#32, 0x23456789#32] := by decide
theorem test_MX3_MX4_rotr :
    [16, 12, 8, 7].map (rotr32 0x12345678#32) = [0x56781234#32, 0x67812345#32, 0x78123456#32, 0xF02468AC#32] ∧
      rotr32 1#32 7 = 0x02000000#32 ∧ rotr32 0x80000000#32 16 = 0x00008000#32 := by decide
theorem test_MX6_diag :
    diag (gridOf (Vector.ofFn fun i => BitVec.ofNat 32 i.val)) =
      { row0 := #v[0, 1, 2, 3], row1 := #v[5, 6, 7, 4], row2 := #v[10, 11, 8, 9], row3 := #v[15, 12, 13, 14] } := by
  decide
theorem test_MX8_half :
    mixHalf mx8Grid (flatRow 0#32) 16 12 =
      { row0 := #v[0xBB1838E6, 0x566D1711, 0x5BF2CD1D, 0x0130C253],
        row1 := #v[0x300F3FEF, 0xC7E497C6, 0x6CF164F9, 0xB733C423],
        row2 := #v[0xA2F0A17F, 0xD27904F2, 0x09CC4F64, 0x67A2F66A],
        row3 := #v[0x38E6BB18, 0x1711566D, 0xCD5D5BF2, 0xC2530130] } := by decide +kernel
theorem test_MX10_mixG :
    mixG (gridOf #v[1, 2, 3, 4, 5, 6, 7, 8, 9, 10, 11, 12, 13, 14, 15, 16]) (flatRow 0x11111111#32)
        (flatRow 0x22222222#32) =
      { row0 := #v[0x452444DA, 0x450444AC, 0x44E4447E, 0x44844410],
        row1 := #v[0x9D9B3EBD, 0x03BF746A, 0x6123B620, 0x46066715],
        row2 := #v[0xDC6E4F6F, 0xCE6B2470, 0x806A0171, 0x12629A72],
        row3 := #v[0xCB543E55, 0xBD541355, 0x6F55F055, 0x01558955] } := by decide +kernel
theorem test_PS1_parse :
    (parseBlock (Vector.ofFn fun b => BitVec.ofNat 8 b.val))[0] = 0x03020100#32 ∧
      (parseBlock (Vector.ofFn fun b => BitVec.ofNat 8 b.val))[15] = 0x3F3E3D3C#32 := by decide +kernel
theorem test_SEL1_select :
    selectVectors (Vector.ofFn fun k => BitVec.ofNat 32 k.val) 1 =
      { xc := #v[2, 3, 7, 4], yc := #v[6, 10, 0, 13], xd := #v[1, 12, 9, 15], yd := #v[11, 5, 14, 8] } := by decide

/-- The compression input of CMP-1. -/
def cmp1 : CompressInput :=
  { cv := ivRom, block := Vector.replicate 64 0#8, blockLen := 0#32, counter := 0#64, flags := 0x0B#8 }

/-- The grid of PL-1 after round 6. -/
def pl1Round6 : Grid :=
  gridOf #v[0x3443FA28, 0x7634CDC6, 0x49D319AD, 0xBCB61AC1, 0x78F414D7, 0xAADB11A4, 0xF59BEAFB, 0x03F6DA91,
    0x8D0AE987, 0xD0953433, 0xA39E590D, 0xF57FC6F7, 0xB1D1DF4C, 0x1DC9D009, 0x3F087037, 0x61C4C575]

/-- The result of CMP-1. -/
def cmp1Out : Cv :=
  #v[0xB94913AF, 0xA6A1F9F5, 0xEA4D40A0, 0x49C9DC36, 0xC925CB9B, 0xB712C1AD, 0xCA939ACC, 0x62321FE4]

theorem test_PL1_round0 :
    roundStep (initGrid cmp1) (parseBlock cmp1.block) 0 =
      gridOf #v[0x775146DC, 0x91D99567, 0x8D7EB8E2, 0xBA28BE49, 0xBF7B53FF, 0xE7661B5D, 0x7F835244, 0x24BF2E76,
        0xE15F5DCD, 0x1AEB5F15, 0x809EAE90, 0xF32C027F, 0xE0253D07, 0x5D9F85CC, 0xAA5E2248, 0x180DAFF3] := by
  decide +kernel
theorem test_PL1_rounds : rounds (initGrid cmp1) (parseBlock cmp1.block) = pl1Round6 := by decide +kernel
theorem test_CMP1_finTrunc : finTrunc pl1Round6 = cmp1Out := by decide +kernel
theorem test_XOF1_finExt :
    finExt pl1Round6 ivRom =
      joinHalves cmp1Out #v[0xE7030FE0, 0x6BF29AB6, 0x9FF0AA7F, 0x503033CD, 0xE0DF8D33, 0x86CCB885, 0x208BA99C,
        0x3A24086C] := by decide +kernel
theorem test_R97_blockFlags :
    blockFlags 0x10#8 0x01#8 0x02#8 0#32 1#32 = 0x13#8 ∧ blockFlags 0x10#8 0x01#8 0x02#8 0#32 3#32 = 0x11#8 ∧
      blockFlags 0x10#8 0x01#8 0x02#8 1#32 3#32 = 0x10#8 ∧ blockFlags 0x10#8 0x01#8 0x02#8 2#32 3#32 = 0x12#8 := by
  decide

/-! ### States the tests stand on -/

/-- Idle, every operand register written, the values of 95_test_vectors.md section 2.6: CV = IV, NUM_INPUTS = 1, BLOCKS = 1, the
rest 0; the table is at 0x1000 and the output at 0x3000. -/
def idleState : State :=
  { State.reset with
    regs :=
      { Regs.reset with cv := ivRom, numInputs := 1#32, blocks := 1#32, inptrLo := 0x1000#32, outptrLo := 0x3000#32 }
    written := Written.reset.allOperands }

/-- COMPRESS flags=0x0B just accepted. -/
def compressAccepted : State := idleState.accept (latchCompress .compress 0x0B#8 idleState) .compressRun

/-- COMPRESS_XOF flags=0x0B just accepted. -/
def xofAccepted : State := idleState.accept (latchCompress .compressXof 0x0B#8 idleState) .xofRun

/-- HASH_MANY flags=0, start=1, end=2, inc=1 just accepted. -/
def batchAccepted : State := idleState.accept (latchBatch true 0#8 1#8 2#8 idleState) .hmPtr

/-- The same batch, standing at another phase. -/
def batchAt (phase : Phase) : State := batchAccepted.withSeq { batchAccepted.seq with phase := phase }

/-- A table entry 0x2000 at 0x1000. -/
def tableMem : Memory :=
  [(0x1000, 0x00#8), (0x1001, 0x20#8), (0x1002, 0#8), (0x1003, 0#8), (0x1004, 0#8), (0x1005, 0#8), (0x1006, 0#8),
    (0x1007, 0#8)]

/-- The same state on a platform that refuses every read. -/
def deaf (s : State) : State := { s with refused := [{ first := 0#64, last := BitVec.allOnes 64, kind := .read }] }

/-- The state with one turn pending. -/
def withTurn (s : State) (t : Turn) : State := s.withTurns [t]

/-! ### One step of each command -/

theorem test_compress_commit :
    let s := (compressAccepted.withPipe { grid := pl1Round6, m := Vector.replicate 16 0#32, cvIn := ivRom }).withSeq
      { compressAccepted.seq with rnd := 7, loaded := true }
    ∃ t, step s = .next t ∧ t.regs.cv = cmp1Out ∧ t.regs.res[15] = 0#32 ∧ t.regs.status.toWord = 2#32 :=
  ⟨_, rfl, by decide +kernel, by decide +kernel, by decide +kernel⟩
theorem test_compress_ER7_bad_block_len :
    exec (.compress 0x0B#8) { idleState with regs := { idleState.regs with blockLen := 65#32 } } =
      .next
        { idleState with
          regs :=
            { idleState.regs with
              blockLen := 65#32
              status := { busy := false, done := false, err := true, drop := false, cause := .badBlockLen } } } := rfl
theorem test_xof_commit :
    let s := (xofAccepted.withPipe { grid := pl1Round6, m := Vector.replicate 16 0#32, cvIn := ivRom }).withSeq
      { xofAccepted.seq with rnd := 7, loaded := true }
    ∃ t, step s = .next t ∧ t.regs.cv = ivRom ∧ t.regs.res[8] = 0xE7030FE0#32 ∧ t.regs.status.toWord = 2#32 :=
  ⟨_, rfl, by decide +kernel, by decide +kernel, by decide +kernel⟩
theorem test_xof_accepted :
    ∃ t, exec (.compressXof 0x0B#8) idleState = .next t ∧ t.seq.phase = .xofRun ∧ t.regs.status.toWord = 1#32 :=
  ⟨_, rfl, rfl, by decide⟩
theorem test_hash_many_HM8_completes_at_once :
    ∃ t u, exec (.hashMany true 0#8 1#8 2#8) { idleState with regs := { idleState.regs with numInputs := 0#32 } } =
        .next t ∧ step t = .next u ∧ u.regs.status.toWord = 2#32 ∧ u.mem = [] :=
  ⟨_, _, rfl, rfl, by decide, rfl⟩
theorem test_hash_many_reads_the_table_first :
    ∃ t, step { batchAccepted with mem := tableMem } = .next t ∧ t.seq.k = 1 ∧ t.accesses.read = [0x1000] :=
  ⟨_, rfl, rfl, by decide⟩

/-- CMD write of a reserved OP (ER-1): ERR and CAUSE 1. -/
theorem test_ER1_illegal_op :
    ∃ t, portWrite 32 0#8 3#32 idleState = .next t ∧ t.regs.status.toWord = 0x14#32 ∧ t.regs.cv = ivRom :=
  ⟨_, rfl, by decide, rfl⟩

/-! ### System memory -/

theorem test_memory_read_after_write :
    (Memory.set tableMem 0x1001 0xAA#8).get 0x1001 = some 0xAA#8 ∧
      (Memory.set tableMem 0x1001 0xAA#8).get 0x1002 = some 0#8 ∧ (Memory.set tableMem 0x0FFF 1#8).wf = true ∧
      Memory.get [] 5 = none := by decide
theorem test_address_wraps : tableAddr { Job.reset with inptr := BitVec.allOnes 64 } 0#32 1 = 0#64 := by decide

/-! ### For every obligation, a state and operands that meet its hypotheses, clause by clause -/

theorem test_witness_CommandsAreTheOpcodeTablesWords :
    ∃ r ∈ opcodeTable, decode 0x02010006#32 = .command (.hashMany true 0#8 1#8 2#8) ∧ r.covers 0x02010006#32 = true := by
  decide

/-- The four checks: each word or register at the value where its check begins to fail. -/
theorem test_witness_FirstFailingCheckRejects :
    idleState.regs.status.busy = false ∧ State.reset.regs.status.busy = false ∧
      fieldOp 3#32 = 3#2 ∧ fieldOp 0xFB#32 = 3#2 ∧
      (fieldOp 8#32 ≠ 3#2 ∧ fieldRsv 8#32 ≠ 0#5) ∧ (fieldOp 4#32 = 0#2 ∧ fieldInc 4#32 ≠ 0#1) ∧
      (fieldOp 0x00010B00#32 = 0#2 ∧ fieldFlagsStart 0x00010B00#32 ≠ 0#8) ∧
      (fieldOp 0x01000B01#32 = 1#2 ∧ fieldFlagsEnd 0x01000B01#32 ≠ 0#8) ∧
      (fieldOp 0x0B00#32 = 0#2 ∧ fieldRsv 0x0B00#32 = 0#5 ∧ batchFieldsZero 0x0B00#32 = true) ∧
      State.reset.written.blockLen = false ∧ idleState.written.blockLen = true ∧ 64#32 < 65#32 ∧
      (fieldOp 0x02010006#32 = 2#2 ∧ fieldRsv 0x02010006#32 = 0#5) ∧ State.reset.written.blocks = false ∧
      idleState.written.blocks = true := by
  decide

theorem test_witness_AcceptanceLatchesTheOperands :
    idleState.regs.status.busy = false ∧ idleState.written.blockLen = true ∧ (64#32 ≤ 64#32) ∧
      CompressOperandsWritten idleState.written ∧
      ¬CompressOperandsWritten { Written.reset with blockLen := true } ∧
      idleState.written.blocks = true ∧ idleState.regs.blocks ≠ 0#32 ∧ BatchOperandsWritten idleState.written ∧
      ¬BatchOperandsWritten { Written.reset with blocks := true } := by
  decide

theorem test_witness_IssuingChangesOnlyStatusAndTheJob :
    (∃ t, exec (.compress 0x0B#8) idleState = .next t) ∧ idleState.regs.status.busy = false ∧
      (∃ t, exec (.compress 0x0B#8) compressAccepted = .next t) ∧ compressAccepted.regs.status.busy = true :=
  ⟨⟨_, rfl⟩, rfl, ⟨_, rfl⟩, rfl⟩

/-- Also for CompressXofRunsToItsCommit and ResultsStayOldUntilTheCommit, with n = 0 and n = 8. -/
theorem test_witness_CompressRunsToItsCommit :
    idleState.CompressReady ∧ { idleState with regs := { idleState.regs with blockLen := 64#32 } }.CompressReady ∧
      (0 ≤ 8 ∧ 8 ≤ 8) := by
  decide

theorem test_witness_CompressLeavesEveryOperandRegisterButCv :
    (∃ t, exec (.compressXof 1#8) idleState = .next t) ∧ compressAccepted.seq.phase = .compressRun ∧
      (∃ t, coreStep compressAccepted = .next t) ∧ xofAccepted.seq.phase = .xofRun ∧
      ∃ t, coreStep xofAccepted = .next t :=
  ⟨⟨_, rfl⟩, rfl, ⟨_, rfl⟩, rfl, ⟨_, rfl⟩⟩

/-- Two states that differ in a register neither command reads. -/
def idleOther : State := { idleState with regs := { idleState.regs with numInputs := 7#32 } }

theorem test_witness_SameLatchedOperandsSameResult :
    idleState.CompressReady ∧ idleOther.CompressReady ∧
      ∃ t t', exec (.compress 0x0B#8) idleState = .next t ∧ exec (.compress 0x0B#8) idleOther = .next t' ∧
        t.job.cv = t'.job.cv ∧ t.job.blk = t'.job.blk ∧ t.job.blockLen = t'.job.blockLen ∧
        t.job.counter = t'.job.counter ∧ t.job.flags = t'.job.flags ∧
        (∃ u, coreRun 9 t = .next u) ∧ ∃ u, coreRun 9 t' = .next u :=
  ⟨by decide, by decide, _, _, rfl, rfl, rfl, rfl, rfl, rfl, rfl, ⟨_, rfl⟩, ⟨_, rfl⟩⟩

theorem test_witness_BadRegisterAccessStops :
    ¬(16 = 32 ∧ (0x10#8).toNat % 4 = 0) ∧ ¬(32 = 32 ∧ (0x12#8).toNat % 4 = 0) ∧ ¬(32 = 32 ∧ (0xFF#8).toNat % 4 = 0) := by
  decide

/-- BLOCK_LEN, CV0 and BLK15: the first storage register, and both ends of the arrays' range. -/
theorem test_witness_StoredRegisterReadsBack :
    idleState.regs.status.busy = false ∧ ∀ off ∈ [0x10#8, 0x40#8, 0xBC#8], off.toNat % 4 = 0 ∧
      (winRegOf (off.toNat / 4)).busyLocked = true ∧ winRegOf (off.toNat / 4) ≠ .cmd := by
  decide

theorem test_witness_RegisterReadsHaveNoSideEffect :
    ∃ t, portRead 32 0x04#8 idleState = .next t ∧ t.rdata = some 0#32 := ⟨_, rfl, by decide⟩

theorem test_witness_ReservedAndReadOnlyIgnoreWrites :
    (∀ off ∈ [0x0C#8, 0x24#8, 0x60#8, 0x7C#8], off.toNat % 4 = 0 ∧
      (off = 0x0C#8 ∨ off = 0x24#8 ∨ (0x60 ≤ off.toNat ∧ off.toNat ≤ 0x7C))) ∧
    ∀ off ∈ [0x38#8, 0x3C#8, 0xC0#8, 0xFC#8], off.toNat % 4 = 0 ∧ (off = 0x38#8 ∨ off = 0x3C#8 ∨ 0xC0 ≤ off.toNat) := by
  decide

theorem test_witness_BusyLockDropsWrites :
    compressAccepted.regs.status.busy = true ∧ ∀ off ∈ [0x00#8, 0x10#8, 0x34#8, 0x40#8, 0xBC#8],
      off.toNat % 4 = 0 ∧ (winRegOf (off.toNat / 4)).busyLocked = true := by
  decide

/-- ER-16 and RS-1 of 95_test_vectors.md: after reset a COMPRESS with no operand written, and a read of CV0 or RES0. -/
theorem test_ER16_RS1_uninit_read :
    step (withTurn State.reset (issue (.compress 0x0B#8))) = .fault .uninitRead ∧
      step (withTurn State.reset (rd (.cv 0))) = .fault .uninitRead ∧
      step (withTurn State.reset (rd (.res 0))) = .fault .uninitRead :=
  ⟨rfl, rfl, rfl⟩

/-- A register unwritten and written; commands whose checked register is unwritten, and whose check passes with another operand
register unwritten, at BLOCK_LEN = 64 and BLOCKS = 1; and the two kinds of step that stop. -/
theorem test_witness_UnwrittenRegistersStop :
    (WinReg.blockLen.busyLocked = true ∧ WinReg.blockLen ≠ .cmd) ∧ (∃ k : Fin 16, WinReg.res 15 = .res k) ∧
      (0xFC#8).toNat % 4 = 0 ∧ State.reset.regWritten (.res 15) = false ∧ idleState.regWritten (.blk 15) = true ∧
      State.reset.regs.status.busy = false ∧ ¬OperandsWritten (.compress 0x0B#8) State.reset.written ∧
      State.reset.written.blockLen = false ∧ State.reset.written.blocks = false ∧
      ¬OperandsWritten (.compressXof 0x0B#8) { Written.reset with blockLen := true } ∧ 64#32 ≤ 64#32 ∧
      ¬OperandsWritten (.hashMany true 0#8 1#8 2#8) { Written.reset with blocks := true } ∧ 1#32 ≠ 0#32 ∧
      step (withTurn State.reset (rd (.res 15))) = .fault .uninitRead := by
  refine ⟨by decide, ⟨15, rfl⟩, by decide, by decide, by decide, by decide, by decide, by decide, by decide, by decide,
    by decide, by decide, by decide, rfl⟩

theorem test_witness_IrqFollowsStatusAndEnable :
    (∃ t, portWrite 32 0x04#8 0x0000000E#32 idleState = .next t) ∧ (0x0000000E#32).getLsbD 1 = true ∧
      (0x0000000E#32).getLsbD 2 = true ∧ idleState.regs.status.busy = false ∧
      ∃ t, exec (.compress 0x0B#8) idleState = .next t ∧ t.regs.status.busy = true :=
  ⟨⟨_, rfl⟩, by decide, by decide, rfl, _, rfl, rfl⟩

theorem test_witness_NoInputsCompletesAtOnce :
    { idleState with regs := { idleState.regs with numInputs := 0#32 } }.BatchReady ∧
      idleState.regs.status.busy = false ∧ idleState.written.blocks = true := by
  decide

theorem test_witness_HmPtrReadsTheTableEntry :
    batchAccepted.seq.phase = .hmPtr ∧ batchAccepted.seq.k = 0 ∧
      ∀ n < 8, batchAccepted.admits (tableAddr batchAccepted.job batchAccepted.seq.i n) .read = true ∧
        (tableAddr batchAccepted.job batchAccepted.seq.i n).toNat ∉ batchAccepted.accesses.written := by
  decide

theorem test_witness_HmBlockReadsTheBlock :
    (batchAt .hmBlock).seq.phase = .hmBlock ∧ (batchAt .hmBlock).seq.k = 0 ∧
      ∀ n < 64, (batchAt .hmBlock).admits (blockAddr (batchAt .hmBlock).seq.base (batchAt .hmBlock).seq.j n) .read = true ∧
        (blockAddr (batchAt .hmBlock).seq.base (batchAt .hmBlock).seq.j n).toNat ∉ (batchAt .hmBlock).accesses.written := by
  decide

theorem test_witness_HmMixCompressesTheBlock :
    (batchAt .hmMix).seq.phase = .hmMix ∧ (batchAt .hmMix).seq.loaded = false := by
  decide

theorem test_witness_HmWriteWritesTheDigest :
    (batchAt .hmWrite).seq.phase = .hmWrite ∧ (batchAt .hmWrite).seq.k = 0 ∧
      ∀ n < 32, (batchAt .hmWrite).admits (digestAddr (batchAt .hmWrite).job (batchAt .hmWrite).seq.i n) .write = true ∧
        (digestAddr (batchAt .hmWrite).job (batchAt .hmWrite).seq.i n).toNat ∉ (batchAt .hmWrite).accesses.read := by
  decide

/-- The last input done, and none left. -/
theorem test_witness_HmNextAdvancesOrCompletes :
    (batchAt .hmNext).seq.phase = .hmNext ∧ (batchAt .hmNext).seq.i < (batchAt .hmNext).job.numInputs ∧
      ¬(1#32 < (batchAt .hmNext).job.numInputs) := by
  decide

theorem test_witness_RefusedAccessAborts :
    (deaf batchAccepted).nextAccess = some (0x1000#64, .read) ∧ (deaf batchAccepted).admits 0x1000#64 .read = false := by
  decide

/-- A byte the command has written is read; a byte it has read is written; and both with an empty record. -/
theorem test_witness_OverlapStopsAtTheAccess :
    batchAccepted.nextAccess = some (0x1000#64, .read) ∧ batchAccepted.admits 0x1000#64 .read = true ∧
      (0x1000#64).toNat ∈ (batchAccepted.withAccesses { read := [], written := [0x1000] }).accesses.written ∧
      (0x1000#64).toNat ∉ batchAccepted.accesses.written ∧
      (batchAt .hmWrite).nextAccess = some (0x3000#64, .write) ∧ (batchAt .hmWrite).admits 0x3000#64 .write = true ∧
      (0x3000#64).toNat ∈ ((batchAt .hmWrite).withAccesses { read := [0x3000], written := [] }).accesses.read ∧
      (0x3000#64).toNat ∉ (batchAt .hmWrite).accesses.read := by
  decide

/-- The last byte of a digest, admitted and refused, and a step with no write. -/
theorem test_witness_CoreStoresOnlyTheDigestByte :
    let s := (batchAt .hmWrite).withSeq { (batchAt .hmWrite).seq with k := 31 }
    let r : State := { s with refused := [{ first := 0#64, last := BitVec.allOnes 64, kind := .write }] }
    (∃ t, coreStep s = .next t) ∧ s.nextAccess = some (0x301F#64, .write) ∧ s.admits 0x301F#64 .write = true ∧
      s.seq.k.val < 32 ∧ (∃ t, coreStep r = .next t) ∧ r.nextAccess = some (0x301F#64, .write) ∧
      r.admits 0x301F#64 .write = false ∧ (∃ t, coreStep batchAccepted = .next t) ∧
      batchAccepted.nextAccess = some (0x1000#64, .read) :=
  ⟨⟨_, rfl⟩, by decide, by decide, by decide, ⟨_, rfl⟩, by decide, by decide, ⟨_, rfl⟩, by decide⟩

theorem test_witness_HashManyWritesNoOtherRegister :
    batchAccepted.seq.phase.ofBatch = true ∧ (∃ t, coreStep batchAccepted = .next t) ∧
      (deaf batchAccepted).seq.phase.ofBatch = true ∧ ∃ t, coreStep (deaf batchAccepted) = .next t :=
  ⟨rfl, ⟨_, rfl⟩, rfl, ⟨_, rfl⟩⟩

theorem test_witness_HashManyIgnoresBlockLenAndBlk :
    ∃ t, exec (.hashMany true 0#8 1#8 2#8) idleState = .next t := ⟨_, rfl⟩

/-- One input of one block at 0x2000, its table entry at 0x1000, its digest at 0x3000. -/
def contractState : State := { idleState with mem := tableMem }

theorem test_witness_HashManyEndsWithinTheBound : contractState.BatchReady := by decide

theorem test_witness_HashManyWritesEveryDigest :
    contractState.BatchReady ∧
      (contractState.accept (latchBatch true 0#8 1#8 2#8 contractState) .hmPtr).BatchContract := by
  refine ⟨by decide, fun a _ => rfl, fun a _ => rfl, fun a => ?_⟩
  rw [← batchReads_iff, ← batchWrites_iff]
  have hptr : (contractState.accept (latchBatch true 0#8 1#8 2#8 contractState) .hmPtr).tablePtr 0#32 = 0x2000#64 := by
    decide +kernel
  rintro ⟨hr, hw⟩
  change decide ((a - 0x3000#64).toNat < 32 * 1) = true at hw
  change (decide ((a - 0x1000#64).toNat < 8 * 1) || (List.range 1).any fun i => decide ((a -
    (contractState.accept (latchBatch true 0#8 1#8 2#8 contractState) .hmPtr).tablePtr (BitVec.ofNat 32 i)).toNat <
      64 * 1)) = true at hr
  simp only [Bool.or_eq_true, List.any_eq_true, List.mem_range, decide_eq_true_eq] at hr hw
  rcases hr with hr | ⟨i, hi, hr⟩
  · bv_omega
  · obtain rfl : i = 0 := by omega
    rw [hptr] at hr
    bv_omega

theorem test_witness_SingleAndTwoBlockDigests :
    batchAccepted.job.blocks = 1#32 ∧ (batchAccepted.withJob { batchAccepted.job with blocks := 2#32 }).job.blocks = 2#32 := by
  decide

/-- The first and the last byte of the table entry and of the output, and a byte of neither. -/
theorem test_witness_HostRaceStops :
    (batchAccepted.regs.status.busy = true ∧ batchAccepted.job.op = .hashMany) ∧
      batchAccepted.BatchReadsByte 0x1000#64 ∧ batchAccepted.BatchReadsByte 0x1007#64 ∧
      batchAccepted.BatchWritesByte 0x3000#64 ∧ batchAccepted.BatchWritesByte 0x301F#64 ∧
      ¬batchAccepted.BatchWritesByte 0x3020#64 ∧
      ¬((idleState.regs.status.busy = true ∧ idleState.job.op = .hashMany) ∧
        (idleState.BatchReadsByte 0x1000#64 ∨ idleState.BatchWritesByte 0x1000#64)) := by
  refine ⟨by decide, .inl ⟨0#32, 0, by decide⟩, .inl ⟨0#32, 7, by decide⟩, ⟨0#32, 0, by decide⟩, ⟨0#32, 31, by decide⟩,
    ?_, fun h => absurd h.1 (by decide)⟩
  rw [← batchWrites_iff]
  decide

/-- The invariants hold of a state with a command running, and it has a next state. -/
theorem test_witness_StepKeepsInvariants :
    batchAccepted.regs.status.Ok ∧ batchAccepted.PhaseAgrees ∧ batchAccepted.SequencerLegal ∧
      batchAccepted.CounterAgrees ∧ batchAccepted.mem.wf = true ∧ AddrsRising batchAccepted.accesses.read ∧
      AddrsRising batchAccepted.accesses.written ∧ ∃ t, step batchAccepted = .next t :=
  ⟨by decide, by decide, by decide, by decide, by decide, ⟨.nil, by decide⟩, ⟨.nil, by decide⟩, ⟨_, rfl⟩⟩

/-- The driver's counter in HM_MIX. -/
theorem test_witness_StepKeepsCounterOfTheInput :
    let s := (batchAt .hmBlock).withSeq { (batchAt .hmBlock).seq with k := 63 }
    s.CounterAgrees ∧ ∃ t, step s = .next t ∧ t.seq.phase = .hmMix :=
  ⟨by decide, _, rfl, rfl⟩

theorem test_witness_FaultAddressChangesOnlyOnAbortOrReset :
    (∃ t, step batchAccepted = .next t) ∧
      (∃ t, step (deaf batchAccepted) = .next t ∧ t.regs.faultAddrLo = 0x1000#32 ∧ t.seq.phase = .idle ∧
        t.regs.status.cause = .memError) ∧
      ∃ t, step (withTurn batchAccepted .reset) = .next t :=
  ⟨⟨_, rfl⟩, ⟨_, rfl, by decide, by decide, by decide⟩, ⟨_, rfl⟩⟩

theorem test_witness_IdleIsLeftOnlyByACommand :
    idleState.seq.phase = .idle ∧
      ∃ t, step (withTurn idleState (issue (.compress 0x0B#8))) = .next t ∧ t.seq.phase ≠ .idle :=
  ⟨rfl, _, rfl, by decide⟩

theorem test_witness_OthersCannotDisturbARunningCommand :
    batchAccepted.regs.status.busy = true ∧ (withTurn batchAccepted (wr .blockLen 5#32)).turns = [wr .blockLen 5#32] ∧
      wr .blockLen 5#32 ≠ .core ∧ wr .blockLen 5#32 ≠ .reset ∧
      ∃ t, step (withTurn batchAccepted (wr .blockLen 5#32)) = .next t ∧ t.regs.status.drop = true :=
  ⟨rfl, rfl, by decide, by decide, _, rfl, rfl⟩

theorem test_witness_ResetEventClearsTheCore : (withTurn batchAccepted .reset).turns = [.reset] := rfl

theorem test_witness_StepRunsTheDecodedCommand :
    (withTurn idleState (.regWrite 32 0#8 0x0B00#32)).turns = [.regWrite 32 0#8 0x0B00#32] ∧
      decode 0x0B00#32 = .command (.compress 0x0B#8) ∧ decode 3#32 = .rejected .illegalOp ∧
      compressAccepted.regs.status.busy = true ∧ idleState.regs.status.busy = false := by
  decide

/-- R22, R31, R34: both ends of the result window, unwritten at reset and written after a COMPRESS_XOF. -/
theorem test_witness_CmdAndReadOnlyRegistersRead :
    (0xC0#8).toNat = 0xC0 + 4 * (0 : Fin 16).val ∧ (0xFC#8).toNat = 0xC0 + 4 * (15 : Fin 16).val ∧
      State.reset.written.res[(15 : Fin 16)] = false ∧
      ∃ s : State, s.written.res[(0 : Fin 16)] = true ∧ s.written.res[(15 : Fin 16)] = true :=
  ⟨by decide, by decide, by decide,
    { State.reset with written := { State.reset.written with res := Vector.replicate 16 true } }, by decide, by decide⟩

/-- R180, R95 (spec/42_round_pipeline.md): row 3 is the counter's low word, its high word, the block length and the flags. -/
theorem test_initial_grid_header_lanes :
    (initGrid { cv := ivRom, block := Vector.replicate 64 0#8, blockLen := 64#32, counter := 0x0000000200000001#64,
                flags := 0x0B#8 }).row3 = #v[1#32, 2#32, 64#32, 11#32] := by
  simp only [initGrid]
  decide

theorem test_witness_StepTakesTheNextTurn :
    idleState.turns = [] ∧ (withTurn idleState .core).turns = [.core] ∧
      (withTurn idleState (wr .ctrl 1#32)).turns = [.regWrite 32 0x08#8 1#32] ∧
      (withTurn idleState (rd .ctrl)).turns = [.regRead 32 0x08#8] ∧
      (withTurn idleState (.memWrite 5#64 1#8)).turns = [.memWrite 5#64 1#8] ∧
      (withTurn idleState (.memRead 5#64)).turns = [.memRead 5#64] := by
  decide

theorem test_witness_WaitIdleEndsAfterACompression :
    (withTurn idleState .waitIdle).CompressReady ∧ (withTurn idleState .waitIdle).turns = [.waitIdle] ∧
      ∃ t, exec (.compress 0x0B#8) (withTurn idleState .waitIdle) = .next t :=
  ⟨by decide, rfl, _, rfl⟩

/-- The host's question: the very next step runs the command, from reset. -/
theorem test_withFetchWord_runs_the_command :
    step (State.reset.withFetchWord 32 0x00000B00) =
      exec (.compress 0x0B#8) ((State.reset.withFetchWord 32 0x00000B00).withTurns []) := rfl

end Sys2Proof.Tests
end

section
/-!
PROOFS. What one step is, by the list of pending turns (R5, R60, R355).
-/

namespace Sys2Proof.Machine

/-- With no turn pending, the core steps (R355). -/
theorem step_of_turns_nil {s : State} (h : s.turns = []) : step s = coreStep s := by
  simp only [step, nextTurn, h]

/-- A pending turn is taken, on the state from which it has been removed. -/
theorem step_of_turns_cons {s : State} {τ : Turn} {rest : List Turn} (h : s.turns = τ :: rest) :
    step s = runTurn τ (s.withTurns rest) := by
  simp only [step, nextTurn, h]

/-- Settles O56: the list of pending turns is empty or has a head, and the head's `runTurn` is the one action named. -/
theorem stepTakesTheNextTurn : Obligations.StepTakesTheNextTurn := by
  unfold Obligations.StepTakesTheNextTurn
  refine ⟨?noTurn, ?core, ?regWrite, ?regRead, ?memWrite, ?memRead⟩
  case noTurn => exact fun _ h => step_of_turns_nil h
  case core => exact fun _ _ h => step_of_turns_cons h
  case regWrite => exact fun _ _ _ _ _ h => step_of_turns_cons h
  case regRead => exact fun _ _ _ _ h => step_of_turns_cons h
  case memWrite => exact fun _ _ _ _ h => step_of_turns_cons h
  case memRead => exact fun _ _ _ h => step_of_turns_cons h

end Sys2Proof.Machine
end


section
/-!
PROOFS. Everything one core step can do when it answers a next state (R40, R187, R261), stated once: a statement about core
steps is proved case by case on it.
-/

namespace Sys2Proof.Machine

/-- The state that has noted the core's read of the byte at `a` (R76). -/
def State.noteRead (s : State) (a : Addr) : State :=
  s.withAccesses { s.accesses with read := addrInsert a.toNat s.accesses.read }

/-- The state that holds the byte `b` the core has written at `a`, and has noted the write (R76). -/
def State.noteWrite (s : State) (a : Addr) (b : Byte) : State :=
  (s.storeByte a b).withAccesses { s.accesses with written := addrInsert a.toNat s.accesses.written }

section
variable (s : State) (a : Addr) (b : Byte)

@[simp] theorem State.noteRead_regs : (s.noteRead a).regs = s.regs := rfl
@[simp] theorem State.noteRead_job : (s.noteRead a).job = s.job := rfl
@[simp] theorem State.noteWrite_regs : (s.noteWrite a b).regs = s.regs := rfl
@[simp] theorem State.noteWrite_job : (s.noteWrite a b).job = s.job := rfl
@[simp] theorem State.flagged_regs : s.flagged.regs = s.regs := rfl
@[simp] theorem State.flagged_job : s.flagged.job = s.job := rfl
@[simp] theorem State.flagged_seq : s.flagged.seq = { s.seq with bflags := s.currentFlags } := rfl

end

/-- What one core step can do: nothing in IDLE, an abort at a refused access, and in each running phase one step of it, the
last step of a phase apart from the others. -/
inductive CoreEffect (s : State) : State → Prop where
  | idle (hp : s.seq.phase = .idle) : CoreEffect s s
  | abort {a : Addr} {kind : AccessKind} (hn : s.nextAccess = some (a, kind)) (hr : s.admits a kind = false) :
      CoreEffect s (s.abortMem a)
  | compressPipe (hp : s.seq.phase = .compressRun) (hd : s.pipeDone = false) :
      CoreEffect s (s.pipeStep s.job.compressInput)
  | compressCommit (hp : s.seq.phase = .compressRun) (hd : s.pipeDone = true) : CoreEffect s s.commitCompress
  | xofPipe (hp : s.seq.phase = .xofRun) (hd : s.pipeDone = false) : CoreEffect s (s.pipeStep s.job.compressInput)
  | xofCommit (hp : s.seq.phase = .xofRun) (hd : s.pipeDone = true) : CoreEffect s s.commitXof
  | ptrByte {a : Addr} (hp : s.seq.phase = .hmPtr) (hn : s.nextAccess = some (a, .read))
      (ha : s.admits a .read = true) (ho : a.toNat ∉ s.accesses.written) (hk : s.seq.k.val < 7) :
      CoreEffect s ((s.noteRead a).withSeq
        { s.seq with base := setByte s.seq.base s.seq.k.val (s.memByte a), k := s.seq.k + 1 })
  | ptrLast {a : Addr} (hp : s.seq.phase = .hmPtr) (hn : s.nextAccess = some (a, .read))
      (ha : s.admits a .read = true) (ho : a.toNat ∉ s.accesses.written) (hk : ¬s.seq.k.val < 7) :
      CoreEffect s ((s.noteRead a).withSeq
        { s.seq with
          base := setByte s.seq.base s.seq.k.val (s.memByte a)
          k := 0, cv := s.job.cv, j := 0#32, phase := .hmBlock })
  | blockByte {a : Addr} (hp : s.seq.phase = .hmBlock) (hn : s.nextAccess = some (a, .read))
      (ha : s.admits a .read = true) (ho : a.toNat ∉ s.accesses.written) (hk : s.seq.k.val < 63) :
      CoreEffect s ((s.noteRead a).withSeq
        { s.seq with buf := s.seq.buf.set s.seq.k (s.memByte a), k := s.seq.k + 1 })
  | blockLast {a : Addr} (hp : s.seq.phase = .hmBlock) (hn : s.nextAccess = some (a, .read))
      (ha : s.admits a .read = true) (ho : a.toNat ∉ s.accesses.written) (hk : ¬s.seq.k.val < 63) :
      CoreEffect s ((s.noteRead a).withSeq
        { s.seq with buf := s.seq.buf.set s.seq.k (s.memByte a), k := 0, phase := .hmMix })
  | mixPipe (hp : s.seq.phase = .hmMix) (hd : s.pipeDone = false) :
      CoreEffect s (s.flagged.pipeStep s.flagged.seq.mixInput)
  | mixBlock (hp : s.seq.phase = .hmMix) (hd : s.pipeDone = true) (hj : s.seq.j + 1#32 < s.job.blocks) :
      CoreEffect s (s.flagged.withSeq
        { s.flagged.seq with
          cv := finTrunc s.pipe.grid, j := s.seq.j + 1#32, loaded := false, phase := .hmBlock })
  | mixLast (hp : s.seq.phase = .hmMix) (hd : s.pipeDone = true) (hj : ¬s.seq.j + 1#32 < s.job.blocks) :
      CoreEffect s (s.flagged.withSeq
        { s.flagged.seq with
          cv := finTrunc s.pipe.grid, j := s.seq.j + 1#32, loaded := false, phase := .hmWrite })
  | writeByte {a : Addr} (hp : s.seq.phase = .hmWrite) (hn : s.nextAccess = some (a, .write))
      (ha : s.admits a .write = true) (ho : a.toNat ∉ s.accesses.read) (hk : s.seq.k.val < 31) :
      CoreEffect s ((s.noteWrite a (digestByte s.seq.cv (Fin.ofNat 32 s.seq.k.val))).withSeq
        { s.seq with k := s.seq.k + 1 })
  | writeLast {a : Addr} (hp : s.seq.phase = .hmWrite) (hn : s.nextAccess = some (a, .write))
      (ha : s.admits a .write = true) (ho : a.toNat ∉ s.accesses.read) (hk : ¬s.seq.k.val < 31) :
      CoreEffect s ((s.noteWrite a (digestByte s.seq.cv (Fin.ofNat 32 s.seq.k.val))).withSeq
        { s.seq with k := 0, phase := .hmNext })
  | nextInput (hp : s.seq.phase = .hmNext) (hi : s.seq.i < s.job.numInputs) :
      CoreEffect s (s.withSeq
        { s.seq with
          ctr := if s.job.inc then s.seq.ctr + 1#64 else s.seq.ctr
          i := s.seq.i + 1#32
          phase := if s.seq.i + 1#32 < s.job.numInputs then .hmPtr else .hmNext })
  | complete (hp : s.seq.phase = .hmNext) (hi : ¬s.seq.i < s.job.numInputs) : CoreEffect s s.complete

section
variable {s t : State}

theorem hmPtrStep_next (hp : s.seq.phase = .hmPtr) (h : hmPtrStep s = .next t) : CoreEffect s t := by
  have hn : s.nextAccess = some (tableAddr s.job s.seq.i s.seq.k.val, .read) := by simp [State.nextAccess, hp]
  rcases coreRead_next h with ⟨hr, rfl⟩ | ⟨ha, ho, rfl⟩
  · exact .abort hn hr
  · by_cases hk : s.seq.k.val < 7
    · simpa [hk, State.noteRead] using CoreEffect.ptrByte hp hn ha ho hk
    · simpa [hk, State.noteRead] using CoreEffect.ptrLast hp hn ha ho hk

theorem hmBlockStep_next (hp : s.seq.phase = .hmBlock) (h : hmBlockStep s = .next t) : CoreEffect s t := by
  have hn : s.nextAccess = some (blockAddr s.seq.base s.seq.j s.seq.k.val, .read) := by
    simp [State.nextAccess, hp]
  rcases coreRead_next h with ⟨hr, rfl⟩ | ⟨ha, ho, rfl⟩
  · exact .abort hn hr
  · by_cases hk : s.seq.k.val < 63
    · simpa [hk, State.noteRead] using CoreEffect.blockByte hp hn ha ho hk
    · simpa [hk, State.noteRead] using CoreEffect.blockLast hp hn ha ho hk

/-- The block flags that HM_MIX refreshes do not bear on whether the compression is done. -/
theorem hmMixStep_next (hp : s.seq.phase = .hmMix) (h : hmMixStep s = .next t) : CoreEffect s t := by
  by_cases hd : s.pipeDone = true
  · have e : hmMixStep s = .next _ := if_pos hd
    cases e.symm.trans h
    by_cases hj : s.seq.j + 1#32 < s.job.blocks
    · simpa [hj, State.flagged] using CoreEffect.mixBlock hp hd hj
    · simpa [hj, State.flagged] using CoreEffect.mixLast hp hd hj
  · have e : hmMixStep s = .next _ := if_neg hd
    cases e.symm.trans h
    exact .mixPipe hp (by simpa using hd)

theorem hmWriteStep_next (hp : s.seq.phase = .hmWrite) (h : hmWriteStep s = .next t) : CoreEffect s t := by
  have hn : s.nextAccess = some (digestAddr s.job s.seq.i s.seq.k.val, .write) := by simp [State.nextAccess, hp]
  rcases coreWrite_next h with ⟨hr, rfl⟩ | ⟨ha, ho, rfl⟩
  · exact .abort hn hr
  · by_cases hk : s.seq.k.val < 31
    · simpa [hk, State.noteWrite] using CoreEffect.writeByte hp hn ha ho hk
    · simpa [hk, State.noteWrite] using CoreEffect.writeLast hp hn ha ho hk

theorem hmNextStep_next (hp : s.seq.phase = .hmNext) (h : hmNextStep s = .next t) : CoreEffect s t := by
  unfold hmNextStep at h
  split at h
  · next hi => cases h; exact .nextInput hp hi
  · next hi => cases h; exact .complete hp hi

/-- Everything a core step can do when it answers a next state. -/
theorem coreStep_next (h : coreStep s = .next t) : CoreEffect s t := by
  cases hp : s.seq.phase with
  | idle => cases (coreStep_idle hp).symm.trans h; exact .idle hp
  | compressRun =>
    rcases compressRunStep_next ((coreStep_compressRun hp).symm.trans h) with ⟨hd, rfl⟩ | ⟨hd, rfl⟩
    · exact .compressCommit hp hd
    · exact .compressPipe hp hd
  | xofRun =>
    rcases xofRunStep_next ((coreStep_xofRun hp).symm.trans h) with ⟨hd, rfl⟩ | ⟨hd, rfl⟩
    · exact .xofCommit hp hd
    · exact .xofPipe hp hd
  | hmPtr => exact hmPtrStep_next hp ((coreStep_hmPtr hp).symm.trans h)
  | hmBlock => exact hmBlockStep_next hp ((coreStep_hmBlock hp).symm.trans h)
  | hmMix => exact hmMixStep_next hp ((coreStep_hmMix hp).symm.trans h)
  | hmWrite => exact hmWriteStep_next hp ((coreStep_hmWrite hp).symm.trans h)
  | hmNext => exact hmNextStep_next hp ((coreStep_hmNext hp).symm.trans h)

end

end Sys2Proof.Machine
end

section
/-!
PROOFS. The latched job stays legal for its phase and the indices stay within their counts (R40, R182, R261).
-/

namespace Sys2Proof.Machine

/-- The latched job is a batch with at least one block (R302). -/
def Job.BatchLegal (job : Job) : Prop := job.op = .hashMany ∧ job.blocks ≠ 0#32

/-- What `State.SequencerLegal` asks of a job and a sequencer in the one phase given. -/
def LegalIn (job : Job) (q : Seq) : Phase → Prop
  | .idle => True
  | .compressRun => job.op = .compress ∧ job.blockLen ≤ 64#32
  | .xofRun => job.op = .compressXof ∧ job.blockLen ≤ 64#32
  | .hmPtr => job.BatchLegal ∧ q.i < job.numInputs ∧ q.k.val < 8 ∧ q.loaded = false
  | .hmBlock => job.BatchLegal ∧ q.i < job.numInputs ∧ q.j < job.blocks ∧ q.loaded = false
  | .hmMix => job.BatchLegal ∧ q.i < job.numInputs ∧ q.j < job.blocks ∧ q.k.val = 0
  | .hmWrite => job.BatchLegal ∧ q.i < job.numInputs ∧ q.k.val < 32 ∧ q.loaded = false
  | .hmNext => job.BatchLegal ∧ q.i ≤ job.numInputs ∧ q.k.val = 0 ∧ q.loaded = false

/-- Of the clauses of `State.SequencerLegal`, those of the phase the sequencer stands in are the ones that say something. -/
theorem sequencerLegal_iff (s : State) : s.SequencerLegal ↔ LegalIn s.job s.seq s.seq.phase := by
  cases hp : s.seq.phase <;> simp [State.SequencerLegal, LegalIn, Job.BatchLegal, Phase.ofBatch, hp]

theorem sequencerLegal_of_idle {s : State} (h : s.seq.phase = .idle) : s.SequencerLegal := by
  rw [sequencerLegal_iff, h]
  trivial

/-- Legality depends on the job latch and the sequencer alone. -/
theorem sequencerLegal_congr {s t : State} (hj : t.job = s.job) (hq : t.seq = s.seq) (h : s.SequencerLegal) :
    t.SequencerLegal := by
  rw [sequencerLegal_iff] at h ⊢
  rwa [hj, hq]

/-- The byte cursor counts up without wrapping while it is below its last value. -/
theorem val_cursor_succ {k : Fin 64} (h : k.val < 63) : (k + 1).val = k.val + 1 :=
  Fin.val_add_one_of_lt' (by omega)

theorem word_succ_le_of_lt {i n : Word} (h : i < n) : i + 1#32 ≤ n := by bv_omega

theorem word_pos_of_ne_zero {n : Word} (h : n ≠ 0#32) : 0#32 < n := by bv_omega

/-- A core step keeps the job legal and the indices within their counts. -/
theorem CoreEffect.keeps_sequencerLegal {s t : State} (hs : s.SequencerLegal) (h : CoreEffect s t) :
    t.SequencerLegal := by
  rw [sequencerLegal_iff] at hs
  cases h with
  | idle hp => exact sequencerLegal_of_idle hp
  | abort hn hr => exact sequencerLegal_of_idle rfl
  | compressCommit hp hd => exact sequencerLegal_of_idle (by simp)
  | xofCommit hp hd => exact sequencerLegal_of_idle (by simp)
  | complete hp hi => exact sequencerLegal_of_idle rfl
  | compressPipe hp hd =>
    rw [hp] at hs
    simpa [sequencerLegal_iff, hp, LegalIn] using hs
  | xofPipe hp hd =>
    rw [hp] at hs
    simpa [sequencerLegal_iff, hp, LegalIn] using hs
  | ptrByte hp hn ha ho hk =>
    rw [hp] at hs
    obtain ⟨hb, hi, -, hl⟩ := hs
    have hk' : (s.seq.k + 1).val < 8 := by rw [val_cursor_succ (by omega)]; omega
    simpa [sequencerLegal_iff, hp, LegalIn] using ⟨hb, hi, hk', hl⟩
  | ptrLast hp hn ha ho hk =>
    rw [hp] at hs
    obtain ⟨hb, hi, -, hl⟩ := hs
    simpa [sequencerLegal_iff, LegalIn] using ⟨hb, hi, word_pos_of_ne_zero hb.2, hl⟩
  | blockByte hp hn ha ho hk =>
    rw [hp] at hs
    simpa [sequencerLegal_iff, hp, LegalIn] using hs
  | blockLast hp hn ha ho hk =>
    rw [hp] at hs
    obtain ⟨hb, hi, hj, -⟩ := hs
    simpa [sequencerLegal_iff, LegalIn] using ⟨hb, hi, hj⟩
  | mixPipe hp hd =>
    rw [hp] at hs
    simpa [sequencerLegal_iff, hp, LegalIn] using hs
  | mixBlock hp hd hj =>
    rw [hp] at hs
    obtain ⟨hb, hi, -, -⟩ := hs
    simpa [sequencerLegal_iff, LegalIn] using ⟨hb, hi, hj⟩
  | mixLast hp hd hj =>
    rw [hp] at hs
    obtain ⟨hb, hi, -, hk⟩ := hs
    have hk' : s.seq.k.val < 32 := by omega
    simpa [sequencerLegal_iff, LegalIn] using ⟨hb, hi, hk'⟩
  | writeByte hp hn ha ho hk =>
    rw [hp] at hs
    obtain ⟨hb, hi, -, hl⟩ := hs
    have hk' : (s.seq.k + 1).val < 32 := by rw [val_cursor_succ (by omega)]; omega
    simpa [sequencerLegal_iff, hp, LegalIn] using ⟨hb, hi, hk', hl⟩
  | writeLast hp hn ha ho hk =>
    rw [hp] at hs
    obtain ⟨hb, hi, -, hl⟩ := hs
    simpa [sequencerLegal_iff, LegalIn] using ⟨hb, BitVec.le_of_lt hi, hl⟩
  | nextInput hp hi =>
    rw [hp] at hs
    obtain ⟨hb, -, hk, hl⟩ := hs
    rw [sequencerLegal_iff]
    by_cases hi' : s.seq.i + 1#32 < s.job.numInputs
    · simpa [hi', LegalIn, hk, hl] using hb
    · simpa [hi', LegalIn, hk, hl] using ⟨hb, word_succ_le_of_lt hi⟩

/-- An accepted COMPRESS or COMPRESS_XOF has passed the check of its block length (R302). -/
theorem startCompress_keeps_sequencerLegal {op : Op} {ph : Phase} {f : Byte} {s t : State} (hs : s.SequencerLegal)
    (hph : ∀ job q, job.op = op → job.blockLen ≤ 64#32 → LegalIn job q ph)
    (h : startCompress op ph f s = .next t) : t.SequencerLegal := by
  rcases startCompress_next h with ⟨_, rfl⟩ | ⟨hl, _, rfl⟩
  · exact sequencerLegal_congr rfl rfl hs
  · exact (sequencerLegal_iff _).2 (hph _ _ rfl (BitVec.not_lt.mp hl))

/-- An accepted HASH_MANY has passed the check of BLOCKS (R302), and with no input it stands at its completion (R263). -/
theorem startBatch_keeps_sequencerLegal {inc : Bool} {f fs fe : Byte} {s t : State} (hs : s.SequencerLegal)
    (h : startBatch inc f fs fe s = .next t) : t.SequencerLegal := by
  rcases startBatch_next h with ⟨_, rfl⟩ | ⟨hb, _, rfl⟩
  · exact sequencerLegal_congr rfl rfl hs
  · have hjob : (latchBatch inc f fs fe s).BatchLegal := ⟨rfl, hb⟩
    rw [sequencerLegal_iff]
    by_cases hn : s.regs.numInputs = 0#32
    · have h0 : 0#32 ≤ (latchBatch inc f fs fe s).numInputs := Nat.zero_le _
      simpa [hn, LegalIn] using ⟨hjob, h0⟩
    · have hpos : 0#32 < (latchBatch inc f fs fe s).numInputs := word_pos_of_ne_zero hn
      simpa [hn, LegalIn] using ⟨hjob, hpos⟩

/-- Issuing a command keeps the job legal for its phase. -/
theorem exec_keeps_sequencerLegal {i : Instr} {s t : State} (hs : s.SequencerLegal) (h : exec i s = .next t) :
    t.SequencerLegal := by
  cases i with
  | compress f =>
    rcases request_next h with ⟨_, rfl⟩ | ⟨_, h⟩
    · exact sequencerLegal_congr rfl rfl hs
    · exact startCompress_keeps_sequencerLegal (ph := .compressRun) hs (fun _ _ ho hl => ⟨ho, hl⟩) h
  | compressXof f =>
    rcases request_next h with ⟨_, rfl⟩ | ⟨_, h⟩
    · exact sequencerLegal_congr rfl rfl hs
    · exact startCompress_keeps_sequencerLegal (ph := .xofRun) hs (fun _ _ ho hl => ⟨ho, hl⟩) h
  | hashMany inc f fs fe =>
    rcases request_next h with ⟨_, rfl⟩ | ⟨_, h⟩
    · exact sequencerLegal_congr rfl rfl hs
    · exact startBatch_keeps_sequencerLegal hs h

/-- No agent outside the core touches the job latch or the sequencer, but for an accepted command. -/
theorem HostEffect.keeps_sequencerLegal {s t : State} (hs : s.SequencerLegal) (h : HostEffect s t) :
    t.SequencerLegal := by
  cases h with
  | command i h => exact exec_keeps_sequencerLegal hs h
  | stored r d h => exact sequencerLegal_congr (by simp) (by simp) hs
  | rejected | dropped | statusWrite | ctrlWrite | answered | polled | hostStore | hostRead =>
    exact sequencerLegal_congr rfl rfl hs

/-- Settles O48: case by case on what a turn can do; each phase hands the next one indices within their counts. -/
theorem stepKeepsSequencerLegal : Obligations.StepKeepsSequencerLegal := by
  unfold Obligations.StepKeepsSequencerLegal
  intro s t hs h
  refine step_keeps (Inv := State.SequencerLegal) (fun _ _ hs => sequencerLegal_congr rfl rfl hs) ?_ hs h
  intro s t hs h
  cases h with
  | core h => exact (coreStep_next h).keeps_sequencerLegal hs
  | hardReset => exact sequencerLegal_of_idle rfl
  | host h => exact h.keeps_sequencerLegal hs

end Sys2Proof.Machine
end

section
/-!
PROOFS. The register window (R21, R22, R34, R35, R44, R62, R64): which register stands where, what a register
transaction does once it is well formed, and what a register reads after a store.
-/

namespace Sys2Proof.Machine

/-! ### The register map -/

theorem winRegOf_eq_cmd {n : Nat} (h : winRegOf n = .cmd) : n = 0 := by
  unfold winRegOf at h
  split at h
  case h_1 => rfl
  case h_15 => split_ifs at h
  all_goals cases h

/-- R35: the reserved words between CV and BLK. -/
theorem winRegOf_reserved {n : Nat} (h1 : 24 ≤ n) (h2 : n < 32) : winRegOf n = .reserved := by
  interval_cases n <;> rfl

/-- R34: the results stand in the last sixteen words. -/
theorem winRegOf_res (k : Fin 16) : winRegOf (48 + k.val) = .res k := by
  fin_cases k <;> rfl

/-- Settles O20: the four ranges word by word, and the sixteen single offsets. -/
theorem registerMapIsTheSpecs : Obligations.RegisterMapIsTheSpecs := by
  unfold Obligations.RegisterMapIsTheSpecs
  refine ⟨?cv, ?blk, ?res, ?gap, ?single⟩
  case res => exact fun k => by rw [← winRegOf_res k]; congr 1; omega
  case gap => exact fun k => winRegOf_reserved (by omega) (by omega)
  case cv => decide
  case blk => decide
  case single => rfl

/-! ### A register transaction at a word offset -/

section
variable {off : BitVec 8} (ho : off.toNat % 4 = 0) (s : State)
include ho

theorem portRead_word : portRead 32 off s = readReg (winRegOf (off.toNat / 4)) s := by
  simp [portRead, wordAccess, ho]

theorem portWrite_word {d : Word} (hc : winRegOf (off.toNat / 4) ≠ .cmd) :
    portWrite 32 off d s = .next (s.writeReg (winRegOf (off.toNat / 4)) d) := by
  have hw : wordAccess 32 off = true := by simp [wordAccess, ho]
  rw [portWrite, if_pos hw]
  split
  · next h => exact absurd h hc
  · rfl

end

section
variable {s : State} {r : WinReg}

theorem readReg_of_written (h : s.regWritten r = true) :
    readReg r s = .next { s with rdata := some (s.regValue r) } := if_pos h

theorem readReg_of_unwritten (h : s.regWritten r = false) : readReg r s = .fault .uninitRead := by
  simp [readReg, h]

/-- A storage register takes a write at an idle core. -/
theorem writeReg_of_storage {d : Word} (hb : s.regs.status.busy = false) (hl : r.busyLocked = true) :
    s.writeReg r d = s.storeReg r d := by
  cases r <;> simp_all [State.writeReg, WinReg.busyLocked]

/-- R35: reserved offsets and read-only registers ignore writes, whether or not the core is busy. -/
theorem writeReg_of_ignored {d : Word} (hl : r.busyLocked = false) (hs : r ≠ .status) (hc : r ≠ .ctrl) :
    s.writeReg r d = s := by
  cases r <;> simp_all [State.writeReg, State.storeReg, WinReg.busyLocked]

end

/-! ### Reading after a store -/

section
variable (s : State) {r r' : WinReg} (d : Word)

/-- A store changes the register window and its validity bits alone. -/
theorem storeReg_frame :
    s.storeReg r d = { s with regs := (s.storeReg r d).regs, written := (s.storeReg r d).written } := by
  cases r <;> rfl

theorem regValue_storeReg_same (hl : r.busyLocked = true) (hc : r ≠ .cmd) : (s.storeReg r d).regValue r = d := by
  cases r <;> simp_all [State.storeReg, State.regValue, WinReg.busyLocked]

theorem regWritten_storeReg_same (hl : r.busyLocked = true) : (s.storeReg r d).regWritten r = true := by
  cases r <;> simp_all [State.storeReg, State.regWritten, WinReg.busyLocked]

/-- A store leaves every other register and its validity bit alone: two words of one array are told apart by their index, and
any two other registers are different fields. -/
theorem storeReg_other (h : r' ≠ r) :
    (s.storeReg r d).regValue r' = s.regValue r' ∧ (s.storeReg r d).regWritten r' = s.regWritten r' := by
  cases r with
  | cv k =>
    cases r' with
    | cv k' =>
      have hk : k.val ≠ k'.val := fun e => h (by rw [Fin.ext e])
      exact ⟨Vector.getElem_set_ne k.isLt k'.isLt hk, Vector.getElem_set_ne k.isLt k'.isLt hk⟩
    | _ => exact ⟨rfl, rfl⟩
  | blk k =>
    cases r' with
    | blk k' =>
      have hk : k.val ≠ k'.val := fun e => h (by rw [Fin.ext e])
      exact ⟨Vector.getElem_set_ne k.isLt k'.isLt hk, Vector.getElem_set_ne k.isLt k'.isLt hk⟩
    | _ => exact ⟨rfl, rfl⟩
  | _ => cases r' <;> simp_all [State.storeReg, State.regValue, State.regWritten]

end

/-- Settles O22: the write is a store, and a store is read back at its own register and leaves every other one alone. -/
theorem storedRegisterReadsBack : Obligations.StoredRegisterReadsBack := by
  unfold Obligations.StoredRegisterReadsBack
  intro s off d hb ho hl hc
  refine ⟨s.storeReg (winRegOf (off.toNat / 4)) d, ?write, storeReg_frame s d, ?read, ?others⟩
  case write => rw [portWrite_word ho s hc, writeReg_of_storage hb hl]
  case read =>
    rw [portRead_word ho, readReg_of_written (regWritten_storeReg_same s d hl), regValue_storeReg_same s d hl hc]
  case others => exact fun _ hr => storeReg_other s d hr

/-- A write to a register that is not busy-locked and not STATUS or CTRL leaves the machine as it is. -/
theorem portWrite_of_ignored {s : State} {off : BitVec 8} {d : Word} {r : WinReg} (ho : off.toNat % 4 = 0)
    (hr : winRegOf (off.toNat / 4) = r) (hl : r.busyLocked = false) (hs : r ≠ .status) (hc : r ≠ .ctrl) :
    portWrite 32 off d s = .next s := by
  subst hr
  have hcmd : winRegOf (off.toNat / 4) ≠ .cmd := fun e => by simp [e, WinReg.busyLocked] at hl
  rw [portWrite_word ho s hcmd, writeReg_of_ignored hl hs hc]

/-- The offsets R35 reserves. -/
theorem winRegOf_of_reserved_offset {off : BitVec 8}
    (h : off = 0x0C#8 ∨ off = 0x24#8 ∨ (0x60 ≤ off.toNat ∧ off.toNat ≤ 0x7C)) :
    winRegOf (off.toNat / 4) = .reserved := by
  rcases h with rfl | rfl | ⟨h1, h2⟩
  · rfl
  · rfl
  · exact winRegOf_reserved (by omega) (by omega)

theorem winRegOf_of_res_offset {off : BitVec 8} {k : Fin 16} (h : off.toNat = 0xC0 + 4 * k.val) :
    winRegOf (off.toNat / 4) = .res k := by
  rw [← winRegOf_res k]
  congr 1
  omega

/-- Settles O24: a reserved offset reads 0, and no write reaches it or a read-only register. -/
theorem reservedAndReadOnlyIgnoreWrites : Obligations.ReservedAndReadOnlyIgnoreWrites := by
  unfold Obligations.ReservedAndReadOnlyIgnoreWrites
  refine fun s off d ho => ⟨fun h => ⟨?read, ?reserved⟩, fun h => ?readOnly⟩
  case read =>
    rw [portRead_word ho, winRegOf_of_reserved_offset h]
    rfl
  case reserved => exact portWrite_of_ignored ho (winRegOf_of_reserved_offset h) rfl (by decide) (by decide)
  case readOnly =>
    rcases h with rfl | rfl | h
    · exact portWrite_of_ignored ho (r := .faultAddrLo) rfl rfl (by decide) (by decide)
    · exact portWrite_of_ignored ho (r := .faultAddrHi) rfl rfl (by decide) (by decide)
    · have hr := winRegOf_of_res_offset (off := off) (k := ⟨(off.toNat - 0xC0) / 4, by omega⟩) (by simp only; omega)
      exact portWrite_of_ignored ho hr rfl (by simp) (by simp)

/-- Settles O60: CMD and FAULT_ADDR are always readable; RES words by their validity bits. -/
theorem cmdAndReadOnlyRegistersRead : Obligations.CmdAndReadOnlyRegistersRead := by
  unfold Obligations.CmdAndReadOnlyRegistersRead
  refine fun s => ⟨?cmd, ?lo, ?hi, fun k off hoff => ?res⟩
  case cmd => exact (portRead_word rfl s).trans (readReg_of_written rfl)
  case lo => exact (portRead_word rfl s).trans (readReg_of_written rfl)
  case hi => exact (portRead_word rfl s).trans (readReg_of_written rfl)
  case res =>
    rw [portRead_word (by omega), winRegOf_of_res_offset hoff]
    exact ⟨readReg_of_written (r := .res k), readReg_of_unwritten (r := .res k)⟩

end Sys2Proof.Machine
end

section
/-!
PROOFS. CTRL, STATUS and the interrupt output (R23, R24, R43, R304, R310).
-/

namespace Sys2Proof.Machine

theorem portWrite_ctrl (s : State) (d : Word) : portWrite 32 0x08#8 d s = .next (s.writeCtrl d) :=
  portWrite_word (off := 0x08#8) rfl s (by decide)

theorem portWrite_status (s : State) (d : Word) : portWrite 32 0x04#8 d s = .next (s.writeStatus d) :=
  portWrite_word (off := 0x04#8) rfl s (by decide)

/-- Settles O25: a write to CTRL sets IE, a read answers it in bit 0. -/
theorem ctrlHoldsInterruptEnable : Obligations.CtrlHoldsInterruptEnable := by
  unfold Obligations.CtrlHoldsInterruptEnable
  refine ⟨fun s d => ⟨portWrite_ctrl s d, ?read⟩, rfl⟩
  case read => exact (portRead_word (off := 0x08#8) rfl s).trans (readReg_of_written rfl)

/-! ### The word form of STATUS -/

section
variable (st : Status)

theorem toWord_busy : st.toWord.getLsbD 0 = st.busy := by
  simp only [Status.toWord, BitVec.getLsbD_append]
  simp
theorem toWord_done : st.toWord.getLsbD 1 = st.done := by
  simp only [Status.toWord, BitVec.getLsbD_append]
  simp
theorem toWord_err : st.toWord.getLsbD 2 = st.err := by
  simp only [Status.toWord, BitVec.getLsbD_append]
  simp
theorem toWord_drop : st.toWord.getLsbD 3 = st.drop := by
  simp only [Status.toWord, BitVec.getLsbD_append]
  simp

theorem toWord_cause : st.toWord.extractLsb' 4 4 = st.cause.code := by
  apply BitVec.eq_of_getLsbD_eq
  intro n hn
  simp only [Status.toWord, BitVec.getLsbD_append, BitVec.getLsbD_extractLsb']
  interval_cases n <;> simp

theorem toWord_reserved : st.toWord.extractLsb' 8 24 = 0#24 := by
  apply BitVec.eq_of_getLsbD_eq
  intro n hn
  simp only [Status.toWord, BitVec.getLsbD_append, BitVec.getLsbD_extractLsb']
  interval_cases n <;> simp

end

/-- A bit cleared where a condition holds. -/
theorem ite_false_eq_and_not (c b : Bool) : (if c then false else b) = (b && !c) := by
  cases c <;> simp

/-- Settles O26: a write clears what it has a 1 for, and a read answers each field in its place. -/
theorem statusIsWriteOneToClear : Obligations.StatusIsWriteOneToClear := by
  unfold Obligations.StatusIsWriteOneToClear
  refine fun s d => ⟨⟨s.regs.status.clear d, portWrite_status s d, rfl, ?done, ?err, ?drop, rfl⟩,
    s.regs.status.toWord, ?read, toWord_busy _, toWord_done _, toWord_err _, toWord_drop _, ?cause, toWord_reserved _⟩
  case done => exact ite_false_eq_and_not _ _
  case err => exact ite_false_eq_and_not _ _
  case drop => exact ite_false_eq_and_not _ _
  case read => exact (portRead_word (off := 0x04#8) rfl s).trans (readReg_of_written rfl)
  case cause =>
    rw [toWord_cause]
    cases s.regs.status.cause <;> rfl

/-! ### The interrupt output -/

theorem irq_iff (s : State) :
    s.irq = true ↔ s.regs.ie = true ∧ (s.regs.status.done = true ∨ s.regs.status.err = true) := by
  simp [State.irq]

theorem irq_of_quiet {s : State} (hd : s.regs.status.done = false) (he : s.regs.status.err = false) :
    s.irq = false := by
  simp [State.irq, hd, he]

/-- Settles O29: acknowledging DONE and ERR leaves both clear, and so does acceptance, the one outcome of a command at
an idle core that sets BUSY. -/
theorem irqFollowsStatusAndEnable : Obligations.IrqFollowsStatusAndEnable := by
  unfold Obligations.IrqFollowsStatusAndEnable
  refine ⟨irq_iff, ?acknowledged, ?accepted⟩
  case acknowledged =>
    intro s t d h h1 h2
    cases (portWrite_status s d).symm.trans h
    exact irq_of_quiet (if_pos h1) (if_pos h2)
  case accepted =>
    intro i s t h hs ht
    rcases exec_next h with ⟨hb, _⟩ | ⟨_, c, rfl⟩ | ⟨_, job, ph, _, rfl⟩
    · exact absurd hb (by simp [hs])
    · exact absurd ht (by simp [Status.rejected, hs])
    · exact irq_of_quiet rfl rfl

end Sys2Proof.Machine
end

section
/-!
PROOFS. The byte view of BLK (R33) and its parse (R150).
-/

namespace Sys2Proof.Machine

/-- The four bytes of a word, put together again, are the word (R10). -/
theorem le32_byteOfWord (w : Word) :
    le32 (byteOfWord w 0) (byteOfWord w 1) (byteOfWord w 2) (byteOfWord w 3) = w := by
  simp only [le32, byteOfWord, Nat.reduceMul]
  rw [BitVec.extractLsb'_append_extractLsb'_eq_extractLsb' (start₂ := 24) (start₁ := 16) (len₁ := 8) rfl,
    BitVec.extractLsb'_append_extractLsb'_eq_extractLsb' (start₂ := 16) (start₁ := 8) (len₁ := 8) rfl,
    BitVec.extractLsb'_append_extractLsb'_eq_extractLsb' (start₂ := 8) (start₁ := 0) (len₁ := 8) rfl]
  exact BitVec.extractLsb'_eq_self

/-- Byte `4k + n` of the view is byte `n` of word `k`. -/
theorem getElem_blockBytes (w : Words16) {k n : Nat} (hk : k < 16) (hn : n < 4) :
    (blockBytes w)[4 * k + n]'(by omega) = byteOfWord w[k] n := by
  have hd : (4 * k + n) / 4 = k := by omega
  have hm : (4 * k + n) % 4 = n := by omega
  simp [blockBytes, hd, hm]

/-- Settles O19: word `k` is parsed from its own four bytes. -/
theorem parsingTheByteViewGivesTheWords : Obligations.ParsingTheByteViewGivesTheWords := by
  unfold Obligations.ParsingTheByteViewGivesTheWords
  intro w
  ext1 k hk
  calc (parseBlock (blockBytes w))[k]
    _ = le32 ((blockBytes w)[4 * k + 0]) ((blockBytes w)[4 * k + 1]) ((blockBytes w)[4 * k + 2])
          ((blockBytes w)[4 * k + 3]) := by simp only [parseBlock, Vector.getElem_ofFn, Nat.add_zero]
    _ = le32 (byteOfWord w[k] 0) (byteOfWord w[k] 1) (byteOfWord w[k] 2) (byteOfWord w[k] 3) := by
      simp only [getElem_blockBytes w hk, Nat.reduceLT]
    _ = w[k] := le32_byteOfWord w[k]

end Sys2Proof.Machine
end

section
/-!
PROOFS. UninitRead (R44, R302, R303, R308): which transactions stop with it, and that nothing else does.
-/

namespace Sys2Proof.Machine

/-- Reset clears the validity bit of every register it leaves unspecified (R44, R340). -/
theorem regWritten_hardReset (s : State) {r : WinReg}
    (h : r.busyLocked = true ∧ r ≠ .cmd ∨ ∃ k, r = .res k) : s.hardReset.regWritten r = false := by
  cases r <;> simp_all [WinReg.busyLocked, State.regWritten, Written.reset]

/-! ### Consuming an unwritten register -/

theorem startCompress_of_unwritten {op : Op} {ph : Phase} {f : Byte} {s : State}
    (hw : ¬CompressOperandsWritten s.written) (hl : s.written.blockLen = true → s.regs.blockLen ≤ 64#32) :
    startCompress op ph f s = .fault .uninitRead := by
  unfold startCompress
  split
  · rfl
  · next hb =>
    have hle : ¬64#32 < s.regs.blockLen := BitVec.not_lt.mpr (hl (by simpa using hb))
    have ho : s.written.compressOperands = false := by rwa [← Bool.not_eq_true, compressOperands_iff]
    rw [if_neg hle, if_pos ho]

theorem startBatch_of_unwritten {inc : Bool} {f fs fe : Byte} {s : State}
    (hw : ¬BatchOperandsWritten s.written) (hl : s.written.blocks = true → s.regs.blocks ≠ 0#32) :
    startBatch inc f fs fe s = .fault .uninitRead := by
  unfold startBatch
  split
  · rfl
  · next hb =>
    have hne : s.regs.blocks ≠ 0#32 := hl (by simpa using hb)
    have ho : s.written.batchOperands = false := by rwa [← Bool.not_eq_true, batchOperands_iff]
    rw [if_neg hne, if_pos ho]

theorem startCompress_fault {op : Op} {ph : Phase} {f : Byte} {s : State} {e : Fault}
    (h : startCompress op ph f s = .fault e) : ¬CompressOperandsWritten s.written := by
  unfold startCompress at h
  split at h
  · next hl => exact fun ⟨_, _, hl', _, _⟩ => by simp [hl] at hl'
  · split at h
    · cases h
    · split at h
      · next ho => exact fun hw => by simp [(compressOperands_iff _).2 hw] at ho
      · cases h

theorem startBatch_fault {inc : Bool} {f fs fe : Byte} {s : State} {e : Fault}
    (h : startBatch inc f fs fe s = .fault e) : ¬BatchOperandsWritten s.written := by
  unfold startBatch at h
  split at h
  · next hb => exact fun ⟨_, _, _, _, hb', _⟩ => by simp [hb] at hb'
  · split at h
    · cases h
    · split at h
      · next ho => exact fun hw => by simp [(batchOperands_iff _).2 hw] at ho
      · cases h

theorem request_fault {s : State} {f : State → Result} {e : Fault} (h : request s f = .fault e) :
    s.regs.status.busy = false ∧ f s = .fault e := by
  unfold request at h
  split at h
  · cases h
  · next hb => exact ⟨by simpa using hb, h⟩

/-- A command stops only at an idle core, and only where an operand register is unwritten. -/
theorem exec_fault {i : Instr} {s : State} {e : Fault} (h : exec i s = .fault e) :
    s.regs.status.busy = false ∧ ¬OperandsWritten i s.written := by
  cases i with
  | compress f => exact (request_fault h).imp_right startCompress_fault
  | compressXof f => exact (request_fault h).imp_right startCompress_fault
  | hashMany inc f fs fe => exact (request_fault h).imp_right startBatch_fault

/-! ### Nothing else is UninitRead -/

theorem coreRead_fault {a : Addr} {s : State} {k : Byte → State → State} {e : Fault}
    (h : coreRead a s k = .fault e) : e = .overlap := by
  unfold coreRead at h
  split at h
  · split at h
    · cases h; rfl
    · cases h
  · cases h

theorem coreWrite_fault {a : Addr} {b : Byte} {s : State} {k : State → State} {e : Fault}
    (h : coreWrite a b s k = .fault e) : e = .overlap := by
  unfold coreWrite at h
  split at h
  · split at h
    · cases h; rfl
    · cases h
  · cases h

/-- The one stop of a core step is Overlap (R76). -/
theorem coreStep_fault {s : State} {e : Fault} (h : coreStep s = .fault e) : e = .overlap := by
  cases hp : s.seq.phase with
  | idle => cases (coreStep_idle hp).symm.trans h
  | compressRun =>
    rw [coreStep_compressRun hp, compressRunStep] at h
    split at h <;> cases h
  | xofRun =>
    rw [coreStep_xofRun hp, xofRunStep] at h
    split at h <;> cases h
  | hmPtr => exact coreRead_fault ((coreStep_hmPtr hp).symm.trans h)
  | hmBlock => exact coreRead_fault ((coreStep_hmBlock hp).symm.trans h)
  | hmMix =>
    rw [coreStep_hmMix hp] at h
    simp only [hmMixStep] at h
    split at h <;> cases h
  | hmWrite => exact coreWrite_fault ((coreStep_hmWrite hp).symm.trans h)
  | hmNext =>
    rw [coreStep_hmNext hp, hmNextStep] at h
    split at h <;> cases h

/-- A register read is UninitRead only where the register is unwritten. -/
theorem portRead_uninitRead {width : Nat} {off : BitVec 8} {s : State}
    (h : portRead width off s = .fault .uninitRead) :
    width = 32 ∧ s.regWritten (winRegOf (off.toNat / 4)) = false := by
  unfold portRead readReg at h
  split at h
  · next hw =>
    simp only [wordAccess, Bool.and_eq_true, beq_iff_eq] at hw
    split at h
    · cases h
    · next hr => exact ⟨hw.1, by simpa using hr⟩
  · cases h

/-- A register write is UninitRead only where it is a command, at an idle core, with an unwritten operand register. -/
theorem portWrite_uninitRead {width : Nat} {off : BitVec 8} {d : Word} {s : State}
    (h : portWrite width off d s = .fault .uninitRead) :
    width = 32 ∧ off = 0x00#8 ∧ ∃ i, decode d = .command i ∧ s.regs.status.busy = false ∧
      ¬OperandsWritten i s.written := by
  unfold portWrite at h
  split at h
  · next hw =>
    simp only [wordAccess, Bool.and_eq_true, beq_iff_eq] at hw
    obtain ⟨hwidth, halign⟩ := hw
    split at h
    · next hcmd =>
      have h0 : off.toNat / 4 = 0 := winRegOf_eq_cmd hcmd
      refine ⟨hwidth, BitVec.eq_of_toNat_eq (by simp; omega), ?_⟩
      unfold writeCmd at h
      split at h
      · next i hd => exact ⟨i, hd, exec_fault h⟩
      · cases (request_fault h).2
    · cases h
  · cases h

theorem hostMemWrite_fault {a : Addr} {b : Byte} {s : State} {e : Fault} (h : hostMemWrite a b s = .fault e) :
    e = .hostRace := by
  unfold hostMemWrite at h
  split at h
  · cases h; rfl
  · cases h

theorem hostMemRead_fault {a : Addr} {s : State} {e : Fault} (h : hostMemRead a s = .fault e) : e = .hostRace := by
  unfold hostMemRead at h
  split at h
  · cases h; rfl
  · cases h

/-- The turns that can be UninitRead: a read of an unwritten register, and a command with an unwritten operand. -/
theorem runTurn_uninitRead {τ : Turn} {s : State} (h : runTurn τ s = .fault .uninitRead) :
    (∃ off, τ = .regRead 32 off ∧ s.regWritten (winRegOf (off.toNat / 4)) = false) ∨
    ∃ d i, τ = .regWrite 32 0x00#8 d ∧ decode d = .command i ∧ s.regs.status.busy = false ∧
      ¬OperandsWritten i s.written := by
  cases τ with
  | core => cases coreStep_fault h
  | regWrite width off d =>
    obtain ⟨rfl, rfl, i, hd⟩ := portWrite_uninitRead h
    exact .inr ⟨d, i, rfl, hd⟩
  | regRead width off =>
    obtain ⟨rfl, hr⟩ := portRead_uninitRead h
    exact .inl ⟨off, rfl, hr⟩
  | memWrite a b => cases hostMemWrite_fault h
  | memRead a => cases hostMemRead_fault h
  | reset => cases h
  | waitIdle => cases h

/-- Settles O28: by the validity bit for reads, by the operand checks for commands, and turn by turn for all else. -/
theorem unwrittenRegistersStop : Obligations.UnwrittenRegistersStop := by
  unfold Obligations.UnwrittenRegistersStop
  refine ⟨fun s => ⟨s.hardReset, rfl, fun r hr => regWritten_hardReset s hr⟩, ?reads, ?commands, ?onlyThese⟩
  case reads =>
    intro s off ho r
    rw [portRead_word ho]
    exact ⟨readReg_of_written, readReg_of_unwritten⟩
  case commands =>
    intro i s hb hw hl
    cases i with
    | compress f => exact (request_of_idle hb).trans (startCompress_of_unwritten hw hl)
    | compressXof f => exact (request_of_idle hb).trans (startCompress_of_unwritten hw hl)
    | hashMany inc f fs fe => exact (request_of_idle hb).trans (startBatch_of_unwritten hw hl)
  case onlyThese =>
    intro s h
    cases hs : s.turns with
    | nil => cases coreStep_fault ((step_of_turns_nil hs).symm.trans h)
    | cons τ rest =>
      rcases runTurn_uninitRead ((step_of_turns_cons hs).symm.trans h) with ⟨off, rfl, hr⟩ | ⟨d, i, rfl, hd⟩
      · exact .inl ⟨off, rest, rfl, hr⟩
      · exact .inr ⟨d, i, rest, rfl, hd⟩

end Sys2Proof.Machine
end

section
/-!
PROOFS. FAULT_ADDR (R31): it changes by an abort and by reset alone.
-/

namespace Sys2Proof.Machine

/-- The two halves of an address, put together again (R94). -/
theorem high32_append_low32 (a : Addr) : high32 a ++ low32 a = a :=
  (BitVec.extractLsb'_append_extractLsb'_eq_extractLsb' rfl).trans BitVec.extractLsb'_eq_self

/-- The FAULT_ADDR registers hold the same in both states. -/
def SameFaultAddr (s t : State) : Prop :=
  t.regs.faultAddrLo = s.regs.faultAddrLo ∧ t.regs.faultAddrHi = s.regs.faultAddrHi

/-- No stored register is FAULT_ADDR, and a command's acceptance or rejection changes STATUS alone of the window. -/
theorem HostEffect.keeps_faultAddr {s t : State} (h : HostEffect s t) : SameFaultAddr s t := by
  cases h with
  | command i h => rcases exec_next h with ⟨_, rfl⟩ | ⟨_, c, rfl⟩ | ⟨_, job, ph, _, rfl⟩ <;> exact ⟨rfl, rfl⟩
  | stored r d h => cases r <;> exact ⟨rfl, rfl⟩
  | rejected | dropped | statusWrite | ctrlWrite | answered | polled | hostStore | hostRead => exact ⟨rfl, rfl⟩

/-- A core step is an abort, at an access the platform refuses, or keeps FAULT_ADDR. -/
theorem CoreEffect.keeps_faultAddr_or_aborts {s t : State} (h : CoreEffect s t) :
    SameFaultAddr s t ∨ ∃ a kind, s.nextAccess = some (a, kind) ∧ s.admits a kind = false ∧ t = s.abortMem a := by
  cases h with
  | abort hn hr => exact .inr ⟨_, _, hn, hr, rfl⟩
  | _ => exact .inl (by simp [SameFaultAddr])

/-- Settles O51: turn by turn; the core's turn by what a core step can do. -/
theorem faultAddressChangesOnlyOnAbortOrReset : Obligations.FaultAddressChangesOnlyOnAbortOrReset := by
  unfold Obligations.FaultAddressChangesOnlyOnAbortOrReset
  intro s t h
  cases hs : s.turns with
  | nil =>
    rw [step_of_turns_nil hs] at h
    rcases (coreStep_next h).keeps_faultAddr_or_aborts with hk | ⟨a, kind, hn, hr, rfl⟩
    · exact .inl hk
    · exact .inr (.inl ⟨a, kind, hn, hr, high32_append_low32 a, rfl, rfl, .inl rfl⟩)
  | cons τ rest =>
    rw [step_of_turns_cons hs] at h
    by_cases hc : τ = .core
    · subst hc
      rcases (coreStep_next h).keeps_faultAddr_or_aborts with hk | ⟨a, kind, hn, hr, rfl⟩
      · exact .inl hk
      · exact .inr (.inl ⟨a, kind, hn, hr, high32_append_low32 a, rfl, rfl, .inr ⟨rest, rfl⟩⟩)
    · by_cases hr : τ = .reset
      · subst hr
        cases h
        exact .inr (.inr ⟨⟨rest, rfl⟩, rfl, rfl⟩)
      · exact .inl (runTurn_host hc hr h).keeps_faultAddr

end Sys2Proof.Machine
end

section
/-!
PROOFS. What one core step does to system memory and to the record of accesses (R65, R76): nothing, one byte read, or one
digest byte stored.
-/

namespace Sys2Proof.Machine

section
variable (s : State) (a : Addr) (b : Byte)

@[simp] theorem State.noteRead_mem : (s.noteRead a).mem = s.mem := rfl
@[simp] theorem State.noteRead_accesses :
    (s.noteRead a).accesses = { s.accesses with read := addrInsert a.toNat s.accesses.read } := rfl
@[simp] theorem State.noteWrite_mem : (s.noteWrite a b).mem = (s.storeByte a b).mem := rfl
@[simp] theorem State.noteWrite_accesses :
    (s.noteWrite a b).accesses = { s.accesses with written := addrInsert a.toNat s.accesses.written } := rfl
@[simp] theorem State.flagged_mem : s.flagged.mem = s.mem := rfl
@[simp] theorem State.flagged_accesses : s.flagged.accesses = s.accesses := rfl

end

/-- What a core step can do to system memory and the record of accesses: nothing, if it makes no access or its access is
refused; note an admitted read; or store one digest byte and note an admitted write. -/
inductive MemoryEffect (s t : State) : Prop where
  | quiet (hn : ∀ a kind, s.nextAccess = some (a, kind) → s.admits a kind = false)
      (hm : t.mem = s.mem) (hacc : t.accesses = s.accesses)
  | read (a : Addr) (hn : s.nextAccess = some (a, .read)) (ha : s.admits a .read = true)
      (hm : t.mem = s.mem) (hacc : t.accesses = (s.noteRead a).accesses)
  | write (a : Addr) (hn : s.nextAccess = some (a, .write)) (ha : s.admits a .write = true)
      (hm : t.mem = (s.storeByte a (digestByte s.seq.cv (Fin.ofNat 32 s.seq.k.val))).mem)
      (hacc : t.accesses = (s.noteWrite a (digestByte s.seq.cv (Fin.ofNat 32 s.seq.k.val))).accesses)

/-- A step that makes no access is quiet if it leaves memory and the record alone. -/
theorem MemoryEffect.quiet_of_none {s t : State} (hn : s.nextAccess = none) (hm : t.mem = s.mem)
    (hacc : t.accesses = s.accesses) : MemoryEffect s t :=
  .quiet (by simp [hn]) hm hacc

theorem CoreEffect.memoryEffect {s t : State} (h : CoreEffect s t) : MemoryEffect s t := by
  cases h with
  | abort hn hr =>
    refine .quiet (fun a kind h => ?_) rfl rfl
    cases hn.symm.trans h
    exact hr
  | ptrByte _ hn ha | ptrLast _ hn ha | blockByte _ hn ha | blockLast _ hn ha => exact .read _ hn ha rfl rfl
  | writeByte _ hn ha | writeLast _ hn ha => exact .write _ hn ha rfl rfl
  | idle hp | compressPipe hp | compressCommit hp | xofPipe hp | xofCommit hp | mixPipe hp | mixBlock hp | mixLast hp
  | nextInput hp | complete hp =>
    exact .quiet_of_none (by simp [State.nextAccess, hp]) (by simp) (by simp)

/-! ### The canonical form (R65, R76) -/

/-- An access noted keeps the record rising. -/
theorem addrsRising_addrInsert {l : List Nat} (h : AddrsRising l) (a : Addr) : AddrsRising (addrInsert a.toNat l) := by
  obtain ⟨hp, hlt⟩ := h
  refine ⟨addrInsert_pairwise hp, fun x hx => ?_⟩
  rcases mem_addrInsert.mp hx with rfl | hx
  · exact a.isLt
  · exact hlt x hx

theorem addrsRising_nil : AddrsRising [] := ⟨.nil, by simp⟩

/-- The canonical form depends on system memory and the record of accesses alone. -/
theorem memoryCanonical_congr {s t : State} (hs : s.MemoryCanonical) (hm : t.mem = s.mem)
    (hacc : t.accesses = s.accesses) : t.MemoryCanonical := by
  rwa [State.MemoryCanonical, hm, hacc]

/-- An emptied record is canonical, whatever it was. -/
theorem memoryCanonical_of_empty {s t : State} (hs : s.MemoryCanonical) (hm : t.mem = s.mem)
    (hacc : t.accesses = .empty) : t.MemoryCanonical := by
  rw [State.MemoryCanonical, hm, hacc]
  exact ⟨hs.1, addrsRising_nil, addrsRising_nil⟩

theorem MemoryEffect.keeps_memoryCanonical {s t : State} (hs : s.MemoryCanonical) (h : MemoryEffect s t) :
    t.MemoryCanonical := by
  cases h with
  | quiet _ hm hacc => exact memoryCanonical_congr hs hm hacc
  | read a _ _ hm hacc =>
    obtain ⟨hwf, hr, hw⟩ := hs
    rw [State.MemoryCanonical, hm, hacc]
    exact ⟨hwf, addrsRising_addrInsert hr a, hw⟩
  | write a _ _ hm hacc =>
    obtain ⟨hwf, hr, hw⟩ := hs
    rw [State.MemoryCanonical, hm, hacc]
    exact ⟨State.wf_storeByte hwf a _, hr, addrsRising_addrInsert hw a⟩

/-- Of the other agents, the host stores bytes, and an accepted command empties the record. -/
theorem HostEffect.keeps_memoryCanonical {s t : State} (hs : s.MemoryCanonical) (h : HostEffect s t) :
    t.MemoryCanonical := by
  cases h with
  | command i h =>
    rcases exec_next h with ⟨_, rfl⟩ | ⟨_, c, rfl⟩ | ⟨_, job, ph, _, rfl⟩
    · exact memoryCanonical_congr hs rfl rfl
    · exact memoryCanonical_congr hs rfl rfl
    · exact memoryCanonical_of_empty hs rfl rfl
  | hostStore a b h =>
    obtain ⟨hwf, hr, hw⟩ := hs
    exact ⟨State.wf_storeByte hwf a b, hr, hw⟩
  | stored r d h => exact memoryCanonical_congr hs (by simp) (by simp)
  | rejected | dropped | statusWrite | ctrlWrite | answered | polled | hostRead =>
    exact memoryCanonical_congr hs rfl rfl

/-- Settles O47: turn by turn; a store keeps memory rising, an access noted keeps the record rising, and acceptance and reset
empty it. -/
theorem stepKeepsMemoryCanonical : Obligations.StepKeepsMemoryCanonical := by
  unfold Obligations.StepKeepsMemoryCanonical
  intro s t hs h
  refine step_keeps (Inv := State.MemoryCanonical) (fun _ _ hs => memoryCanonical_congr hs rfl rfl) ?_ hs h
  intro s t hs h
  cases h with
  | core h => exact (coreStep_next h).memoryEffect.keeps_memoryCanonical hs
  | hardReset => exact memoryCanonical_of_empty hs rfl rfl
  | host h => exact h.keeps_memoryCanonical hs

/-! ### The overlap contract (R76) -/

section
variable {s : State} {a : Addr}

/-- A step whose next access is a read is that byte read. -/
theorem coreStep_eq_coreRead (hn : s.nextAccess = some (a, .read)) : ∃ k, coreStep s = coreRead a s k := by
  cases hp : s.seq.phase with
  | hmPtr =>
    obtain rfl : tableAddr s.job s.seq.i s.seq.k.val = a := by simpa [State.nextAccess, hp] using hn
    exact ⟨_, coreStep_hmPtr hp⟩
  | hmBlock =>
    obtain rfl : blockAddr s.seq.base s.seq.j s.seq.k.val = a := by simpa [State.nextAccess, hp] using hn
    exact ⟨_, coreStep_hmBlock hp⟩
  | _ => simp [State.nextAccess, hp] at hn

/-- A step whose next access is a write is that byte written. -/
theorem coreStep_eq_coreWrite (hn : s.nextAccess = some (a, .write)) : ∃ b k, coreStep s = coreWrite a b s k := by
  cases hp : s.seq.phase with
  | hmWrite =>
    obtain rfl : digestAddr s.job s.seq.i s.seq.k.val = a := by simpa [State.nextAccess, hp] using hn
    exact ⟨_, _, coreStep_hmWrite hp⟩
  | _ => simp [State.nextAccess, hp] at hn

theorem coreRead_of_written {k : Byte → State → State} (ha : s.admits a .read = true)
    (ho : a.toNat ∈ s.accesses.written) : coreRead a s k = .fault .overlap := by
  simp [coreRead, ha, ho]

theorem coreWrite_of_read {b : Byte} {k : State → State} (ha : s.admits a .write = true)
    (ho : a.toNat ∈ s.accesses.read) : coreWrite a b s k = .fault .overlap := by
  simp [coreWrite, ha, ho]

/-- A step whose admitted access is a read notes that read. -/
theorem MemoryEffect.accesses_of_read {t : State} (h : MemoryEffect s t) (hn : s.nextAccess = some (a, .read))
    (ha : s.admits a .read = true) : t.accesses = { s.accesses with read := addrInsert a.toNat s.accesses.read } := by
  cases h with
  | quiet hq => simp [hq a .read hn] at ha
  | read a' hn' _ _ hacc => cases hn.symm.trans hn'; exact hacc
  | write a' hn' => cases hn.symm.trans hn'

/-- A step whose admitted access is a write notes that write. -/
theorem MemoryEffect.accesses_of_write {t : State} (h : MemoryEffect s t) (hn : s.nextAccess = some (a, .write))
    (ha : s.admits a .write = true) :
    t.accesses = { s.accesses with written := addrInsert a.toNat s.accesses.written } := by
  cases h with
  | quiet hq => simp [hq a .write hn] at ha
  | read a' hn' => cases hn.symm.trans hn'
  | write a' hn' _ _ hacc => cases hn.symm.trans hn'; exact hacc

end

/-- A command that makes the core busy is accepted, and starts with an empty record. -/
theorem exec_accesses_of_accepted {i : Instr} {s t : State} (h : exec i s = .next t)
    (hidle : s.regs.status.busy = false) (hbusy : t.regs.status.busy = true) : t.accesses = .empty := by
  rcases exec_next h with ⟨hb, _⟩ | ⟨_, c, rfl⟩ | ⟨_, job, ph, _, rfl⟩
  · simp [hidle] at hb
  · simp [Status.rejected, hidle] at hbusy
  · rfl

/-- Settles O37: an access is `coreRead` or `coreWrite` of its address, which stop on overlap and else note it. -/
theorem overlapStopsAtTheAccess : Obligations.OverlapStopsAtTheAccess := by
  unfold Obligations.OverlapStopsAtTheAccess
  refine ⟨?read, ?write, ?accept⟩
  case read =>
    intro s a hn ha
    obtain ⟨k, hk⟩ := coreStep_eq_coreRead hn
    refine ⟨fun ho => hk.trans (coreRead_of_written ha ho), fun ho => ?_⟩
    have hnext := hk.trans (coreRead_of_allowed ha ho)
    have hacc := (coreStep_next hnext).memoryEffect.accesses_of_read hn ha
    exact ⟨_, hnext, by simp [hacc], by simp [hacc]⟩
  case write =>
    intro s a hn ha
    obtain ⟨b, k, hk⟩ := coreStep_eq_coreWrite hn
    refine ⟨fun ho => hk.trans (coreWrite_of_read ha ho), fun ho => ?_⟩
    have hnext := hk.trans (coreWrite_of_allowed ha ho)
    have hacc := (coreStep_next hnext).memoryEffect.accesses_of_write hn ha
    exact ⟨_, hnext, by simp [hacc], by simp [hacc]⟩
  case accept => exact fun i s t h hidle hbusy => exec_accesses_of_accepted h hidle hbusy

/-! ### The frame of a core step on system memory (R65, R68) -/

/-- Settles O38: of the three things a core step can do to memory, only an admitted write stores a byte, at its address. -/
theorem coreStoresOnlyTheDigestByte : Obligations.CoreStoresOnlyTheDigestByte := by
  unfold Obligations.CoreStoresOnlyTheDigestByte
  intro s t h
  cases (coreStep_next h).memoryEffect with
  | quiet hq hm =>
    have hsame := State.memByte_congr hm
    refine ⟨fun _ _ x _ => hsame x, fun a hn ha _ => ?_, fun a _ _ => hsame a, fun _ => hsame⟩
    simp [hq a .write hn] at ha
  | read a hn _ hm =>
    have hsame := State.memByte_congr hm
    refine ⟨fun _ _ x _ => hsame x, fun b hb => ?_, fun b _ _ => hsame b, fun _ => hsame⟩
    cases hn.symm.trans hb
  | write a hn ha hm =>
    refine ⟨fun b hb x hx => ?other, fun b hb _ _ => ?stored, fun b hb hr => ?refused, fun hno => absurd hn (hno a)⟩
    case other =>
      cases hn.symm.trans hb
      rw [State.memByte_congr hm, State.memByte_storeByte_of_ne _ _ hx]
    case stored =>
      cases hn.symm.trans hb
      rw [State.memByte_congr hm, State.memByte_storeByte_same]
    case refused =>
      cases hn.symm.trans hb
      simp [ha] at hr

end Sys2Proof.Machine
end

section
/-!
PROOFS. The host's accesses to system memory (R75) and its register transactions (R62, R64).
-/

namespace Sys2Proof.Machine

/-! ### System memory -/

section
variable {s : State} {a : Addr} {b : Byte}

/-- The test of a host write is the race of R75, in the bytes of the batch. -/
theorem writeRace_iff : (s.batchRunning && (s.batchReads a || s.batchWrites a)) = true ↔
    (s.regs.status.busy = true ∧ s.job.op = .hashMany) ∧ (s.BatchReadsByte a ∨ s.BatchWritesByte a) := by
  rw [Bool.and_eq_true, Bool.or_eq_true, batchRunning_iff, batchReads_iff, batchWrites_iff]

/-- The test of a host read is the race of R75, in the bytes of the batch. -/
theorem readRace_iff : (s.batchRunning && s.batchWrites a) = true ↔
    (s.regs.status.busy = true ∧ s.job.op = .hashMany) ∧ s.BatchWritesByte a := by
  rw [Bool.and_eq_true, batchRunning_iff, batchWrites_iff]

end

/-- Settles O45: the two tests are R75's races; without one a write stores its byte and a read answers it. -/
theorem hostRaceStops : Obligations.HostRaceStops := by
  unfold Obligations.HostRaceStops
  intro s a b running
  refine ⟨fun hr ha => if_pos (writeRace_iff.2 ⟨hr, ha⟩), fun hr ha => if_pos (readRace_iff.2 ⟨hr, ha⟩), fun h => ?write,
    fun h => if_neg (mt readRace_iff.1 h)⟩
  case write =>
    have hstore : hostMemWrite a b s = .next (s.storeByte a b) := if_neg (mt writeRace_iff.1 h)
    exact ⟨_, hstore, s.memByte_storeByte_same a b, fun x hx => s.memByte_storeByte_of_ne b hx⟩

/-! ### The register window -/

theorem wordAccess_iff {width : Nat} {off : BitVec 8} :
    wordAccess width off = true ↔ width = 32 ∧ off.toNat % 4 = 0 := by
  simp [wordAccess]

/-- Settles O21: both transactions look at the width and the offset first. -/
theorem badRegisterAccessStops : Obligations.BadRegisterAccessStops := by
  unfold Obligations.BadRegisterAccessStops
  intro s width off d h
  have hw : ¬wordAccess width off = true := mt wordAccess_iff.1 h
  exact ⟨if_neg hw, if_neg hw⟩

/-- What a register holds does not depend on what the host was answered before. -/
theorem readReg_withRdata (r : WinReg) (s : State) (d : Option Word) : readReg r (s.withRdata d) = readReg r s := by
  cases r <;> rfl

/-- Settles O23: a read that answers only sets the answer, and no register depends on the answer. -/
theorem registerReadsHaveNoSideEffect : Obligations.RegisterReadsHaveNoSideEffect := by
  unfold Obligations.RegisterReadsHaveNoSideEffect
  intro s t off h
  obtain ⟨hw, _, rfl⟩ := portRead_next h
  refine ⟨⟨_, rfl⟩, ?_⟩
  rw [portRead_word (wordAccess_iff.1 hw).2] at h ⊢
  exact (readReg_withRdata ..).trans h

end Sys2Proof.Machine
end

section
/-!
PROOFS. The encoding (R91 to R93, R98): the six fields are the whole of a command word, the decoder reads an instruction
exactly where the fields are the instruction's, and a row of the opcode table asks for the same fields.
-/

namespace Sys2Proof

open Laws.EncodeFields

/-! ### A word is its fields -/

/-- The layout of R91: the six fields, from bit 31 down, are all of the word. -/
theorem append_fields (d : Word) :
    fieldFlagsEnd d ++ fieldFlagsStart d ++ fieldFlags d ++ fieldRsv d ++ fieldInc d ++ fieldOp d = d := by
  apply BitVec.eq_of_getLsbD_eq
  intro n hn
  simp only [fieldFlagsEnd, fieldFlagsStart, fieldFlags, fieldRsv, fieldInc, fieldOp, BitVec.getLsbD_append,
    BitVec.getLsbD_extractLsb']
  interval_cases n <;> simp

/-- Two words with the same fields are equal. -/
theorem word_eq_iff {d e : Word} :
    d = e ↔ fieldOp d = fieldOp e ∧ fieldInc d = fieldInc e ∧ fieldRsv d = fieldRsv e ∧
      fieldFlags d = fieldFlags e ∧ fieldFlagsStart d = fieldFlagsStart e ∧ fieldFlagsEnd d = fieldFlagsEnd e := by
  refine ⟨fun h => by simp [h], ?_⟩
  rintro ⟨ho, hi, hr, hf, hs, he⟩
  rw [← append_fields d, ← append_fields e, ho, hi, hr, hf, hs, he]

theorem batchFieldsZero_iff {d : Word} :
    batchFieldsZero d = true ↔ fieldInc d = 0#1 ∧ fieldFlagsStart d = 0#8 ∧ fieldFlagsEnd d = 0#8 := by
  simp [batchFieldsZero, and_assoc]

/-- The four values of OP (R92). -/
theorem op_cases (op : BitVec 2) : op = 0#2 ∨ op = 1#2 ∨ op = 2#2 ∨ op = 3#2 := by
  revert op; decide

/-! ### What the decoder reads -/

/-- Every field of the word `d` is the one the instruction is encoded with (R91, R92, R98). -/
def FieldsAre (d : Word) (i : Instr) : Prop :=
  fieldOp d = opOf i ∧ fieldRsv d = 0#5 ∧
    match i with
    | .compress f | .compressXof f => fieldFlags d = f ∧ batchFieldsZero d = true
    | .hashMany inc f fs fe =>
      fieldFlags d = f ∧ fieldInc d = BitVec.ofBool inc ∧ fieldFlagsStart d = fs ∧ fieldFlagsEnd d = fe

theorem fieldsAre_encode (i : Instr) : FieldsAre (encode i) i := by
  cases i with
  | compress f => exact compress f
  | compressXof f => exact compressXof f
  | hashMany inc f fs fe => exact hashMany inc f fs fe

/-- The fields of an instruction make one word. -/
theorem FieldsAre.unique {d e : Word} {i : Instr} (hd : FieldsAre d i) (he : FieldsAre e i) : d = e := by
  obtain ⟨hop, hrsv, hd⟩ := hd
  obtain ⟨hop', hrsv', he⟩ := he
  rw [word_eq_iff, hop, hop', hrsv, hrsv']
  cases i <;> simp_all [batchFieldsZero_iff]

theorem bit_eq_ofBool (v : BitVec 1) : v = BitVec.ofBool (v == 1#1) := by
  revert v; decide

theorem ofBool_eq_one_iff (b : Bool) : (BitVec.ofBool b == 1#1) = b := by
  cases b <;> rfl

/-- What the decoder reads is what the word says: branch by branch of the decoder. -/
theorem fieldsAre_of_decode {d : Word} {i : Instr} (h : decode d = .command i) : FieldsAre d i := by
  unfold decode at h
  split_ifs at h with hop3 hrsv hop2 hzero hop0 <;> cases h
  · exact ⟨hop2, not_not.mp hrsv, rfl, bit_eq_ofBool _, rfl, rfl⟩
  · exact ⟨hop0, not_not.mp hrsv, rfl, by simpa using hzero⟩
  · have hop1 : fieldOp d = 1#2 := ((op_cases _).resolve_left hop0).resolve_right (not_or.2 ⟨hop2, hop3⟩)
    exact ⟨hop1, not_not.mp hrsv, rfl, by simpa using hzero⟩

/-- The decoder reads an instruction exactly where the fields of the word are the instruction's. -/
theorem decode_eq_command_iff {d : Word} {i : Instr} : decode d = .command i ↔ FieldsAre d i := by
  refine ⟨fieldsAre_of_decode, fun h => ?_⟩
  cases i with
  | compress f =>
    obtain ⟨hop, hrsv, rfl, hzero⟩ := h
    simp [decode, hop, hrsv, hzero, opOf]
  | compressXof f =>
    obtain ⟨hop, hrsv, rfl, hzero⟩ := h
    simp [decode, hop, hrsv, hzero, opOf]
  | hashMany inc f fs fe =>
    obtain ⟨hop, hrsv, rfl, hinc, rfl, rfl⟩ := h
    simp [decode, hop, hrsv, hinc, opOf, ofBool_eq_one_iff]

/-- Settles O1: the word of an instruction has the instruction's fields. -/
theorem decodeOfEncodeIsTheInstruction : Obligations.DecodeOfEncodeIsTheInstruction := by
  unfold Obligations.DecodeOfEncodeIsTheInstruction
  exact fun i _ => decode_eq_command_iff.2 (fieldsAre_encode i)

/-- Settles O2: the word that decodes and the word of what it decodes to have the same fields. -/
theorem encodeOfDecodeIsTheWord : Obligations.EncodeOfDecodeIsTheWord := by
  unfold Obligations.EncodeOfDecodeIsTheWord
  exact fun d i h => (fieldsAre_encode i).unique (decode_eq_command_iff.1 h)

/-- Settles O4: the decoder computes, and each word is a literal. -/
theorem specWordsDecode : Obligations.SpecWordsDecode := by
  unfold Obligations.SpecWordsDecode
  decide

/-! ### The reserved encodings and the opcode table -/

/-- R98, by OP: RSV is zero, and under OP 0 and 1 the HASH_MANY fields too. -/
theorem wordWellFormed_iff {d : Word} :
    wordWellFormed d = true ↔
      fieldRsv d = 0#5 ∧ ((fieldOp d = 0#2 ∨ fieldOp d = 1#2) ∧ batchFieldsZero d = true ∨ fieldOp d = 2#2) := by
  have e : wordWellFormed d = (fieldOp d != 3#2 && fieldRsv d == 0#5 &&
      (!(fieldOp d == 0#2 || fieldOp d == 1#2) || batchFieldsZero d)) := rfl
  rcases op_cases (fieldOp d) with hop | hop | hop | hop <;> simp [e, hop]

/-- The words that decode are those R98 does not reserve. -/
theorem decodes_iff_wordWellFormed {d : Word} : (∃ i, decode d = .command i) ↔ wordWellFormed d = true := by
  simp only [decode_eq_command_iff, wordWellFormed_iff]
  constructor
  · rintro ⟨i, hi⟩
    cases i with
    | compress f => obtain ⟨hop, hrsv, -, hzero⟩ := hi; exact ⟨hrsv, .inl ⟨.inl hop, hzero⟩⟩
    | compressXof f => obtain ⟨hop, hrsv, -, hzero⟩ := hi; exact ⟨hrsv, .inl ⟨.inr hop, hzero⟩⟩
    | hashMany inc f fs fe => obtain ⟨hop, hrsv, -⟩ := hi; exact ⟨hrsv, .inr hop⟩
  · rintro ⟨hrsv, ⟨hop | hop, hzero⟩ | hop⟩
    · exact ⟨.compress _, hop, hrsv, rfl, hzero⟩
    · exact ⟨.compressXof _, hop, hrsv, rfl, hzero⟩
    · exact ⟨.hashMany _ _ _ _, hop, hrsv, rfl, bit_eq_ofBool _, rfl, rfl⟩

/-- A masked word matches a pattern field by field. -/
theorem masked_eq_iff {d m p : Word} :
    d &&& m = p ↔ fieldOp d &&& fieldOp m = fieldOp p ∧ fieldInc d &&& fieldInc m = fieldInc p ∧
      fieldRsv d &&& fieldRsv m = fieldRsv p ∧ fieldFlags d &&& fieldFlags m = fieldFlags p ∧
      fieldFlagsStart d &&& fieldFlagsStart m = fieldFlagsStart p ∧
      fieldFlagsEnd d &&& fieldFlagsEnd m = fieldFlagsEnd p := by
  simp only [word_eq_iff, fieldOp, fieldInc, fieldRsv, fieldFlags, fieldFlagsStart, fieldFlagsEnd,
    BitVec.extractLsb'_and]

/-- The mask of COMPRESS and COMPRESS_XOF asks for every field but FLAGS. -/
theorem compressMask_iff {d : Word} {op : BitVec 2} :
    d &&& 0xFFFF00FF#32 = enc op false 0#8 0#8 0#8 ↔
      fieldOp d = op ∧ fieldRsv d = 0#5 ∧ batchFieldsZero d = true := by
  rw [masked_eq_iff, op_enc, inc_enc, rsv_enc, flags_enc, flagsStart_enc, flagsEnd_enc, batchFieldsZero_iff]
  change _ &&& BitVec.allOnes 2 = op ∧ _ &&& BitVec.allOnes 1 = 0#1 ∧ _ &&& BitVec.allOnes 5 = 0#5 ∧ _ &&& 0#8 = 0#8 ∧
    _ &&& BitVec.allOnes 8 = 0#8 ∧ _ &&& BitVec.allOnes 8 = 0#8 ↔ _
  simp only [BitVec.and_allOnes, BitVec.and_zero, true_and, and_left_comm]

/-- The mask of HASH_MANY asks for OP and RSV. -/
theorem batchMask_iff {d : Word} : d &&& 0x000000FB#32 = 0x00000002#32 ↔ fieldOp d = 2#2 ∧ fieldRsv d = 0#5 := by
  rw [masked_eq_iff]
  change _ &&& BitVec.allOnes 2 = 2#2 ∧ _ &&& 0#1 = 0#1 ∧ _ &&& BitVec.allOnes 5 = 0#5 ∧ _ &&& 0#8 = 0#8 ∧
    _ &&& 0#8 = 0#8 ∧ _ &&& 0#8 = 0#8 ↔ _
  simp only [BitVec.and_allOnes, BitVec.and_zero, and_true, true_and]

theorem mem_opcodeTable {r : OpcodeRow} :
    r ∈ opcodeTable ↔ r = ⟨"COMPRESS", 0xFFFF00FF#32, 0x00000000#32⟩ ∨
      r = ⟨"COMPRESS_XOF", 0xFFFF00FF#32, 0x00000001#32⟩ ∨ r = ⟨"HASH_MANY", 0x000000FB#32, 0x00000002#32⟩ := by
  simp [opcodeTable]

/-- A row of the opcode table covers the words of its OP that R98 does not reserve. -/
theorem covers_iff {d : Word} {r : OpcodeRow} (hr : r ∈ opcodeTable) :
    r.covers d = true ↔ wordWellFormed d = true ∧ fieldOp d = fieldOp r.pattern := by
  have hmask : r.covers d = true ↔ d &&& r.mask = r.pattern := beq_iff_eq
  rw [hmask, wordWellFormed_iff]
  rcases mem_opcodeTable.1 hr with rfl | rfl | rfl
  · refine (compressMask_iff (op := 0#2)).trans ?_
    change _ ↔ _ ∧ fieldOp d = 0#2
    by_cases hop : fieldOp d = 0#2 <;> simp [hop]
  · refine (compressMask_iff (op := 1#2)).trans ?_
    change _ ↔ _ ∧ fieldOp d = 1#2
    by_cases hop : fieldOp d = 1#2 <;> simp [hop]
  · refine batchMask_iff.trans ?_
    change _ ↔ _ ∧ fieldOp d = 2#2
    by_cases hop : fieldOp d = 2#2 <;> simp [hop]

/-- A row of the opcode table is an instruction's when its pattern has the instruction's OP. -/
theorem mnemonic_eq_iff {r : OpcodeRow} (hr : r ∈ opcodeTable) (i : Instr) :
    r.mnemonic = i.mnemonic ↔ opOf i = fieldOp r.pattern := by
  rcases mem_opcodeTable.1 hr with rfl | rfl | rfl <;> cases i <;> simp [Instr.mnemonic, opOf, fieldOp]

/-- Every instruction has its row in the opcode table. -/
theorem exists_row (i : Instr) : ∃ r ∈ opcodeTable, r.mnemonic = i.mnemonic := by
  cases i <;> simp [opcodeTable, Instr.mnemonic]

/-- The one row that covers a command word is its instruction's. -/
theorem covers_of_decode {d : Word} {i : Instr} (h : decode d = .command i) {r : OpcodeRow} (hr : r ∈ opcodeTable) :
    r.covers d = true ↔ r.mnemonic = i.mnemonic := by
  have hop : fieldOp d = opOf i := (fieldsAre_of_decode h).1
  rw [covers_iff hr, mnemonic_eq_iff hr, hop, and_iff_right (decodes_iff_wordWellFormed.1 ⟨i, h⟩)]

/-- Settles O3: commands and rows are both the words R98 does not reserve, told apart by OP. -/
theorem commandsAreTheOpcodeTablesWords : Obligations.CommandsAreTheOpcodeTablesWords := by
  unfold Obligations.CommandsAreTheOpcodeTablesWords
  refine fun d => ⟨decodes_iff_wordWellFormed, ⟨?covered, ?decodes⟩, fun i h r hr => covers_of_decode h hr⟩
  case covered =>
    rintro ⟨i, h⟩
    obtain ⟨r, hr, hn⟩ := exists_row i
    exact ⟨r, hr, (covers_of_decode h hr).2 hn⟩
  case decodes =>
    rintro ⟨r, hr, hc⟩
    exact decodes_iff_wordWellFormed.2 ((covers_iff hr).1 hc).1

end Sys2Proof
end

section
/-!
PROOFS. The CMD write (R90, R301, R302): the command a word stands for is issued, and a word that is no command is dropped
or rejected.
-/

namespace Sys2Proof.Machine

section
variable {s : State} {d : Word}

/-- CMD stands at offset 0 (R22). -/
theorem portWrite_cmd : portWrite 32 0x00#8 d s = writeCmd d s := rfl

theorem writeCmd_of_command {i : Instr} (h : decode d = .command i) : writeCmd d s = exec i s := by
  simp only [writeCmd, h]

theorem writeCmd_of_rejected_busy {e : DecodeError} (h : decode d = .rejected e) (hb : s.regs.status.busy = true) :
    writeCmd d s = .next s.dropWrite := by
  simp only [writeCmd, h, request_of_busy hb]

theorem writeCmd_of_rejected_idle {e : DecodeError} (h : decode d = .rejected e) (hb : s.regs.status.busy = false) :
    writeCmd d s = .next (s.reject (errorCause e)) := by
  simp only [writeCmd, h, request_of_idle hb]

end

/-- Settles O55: the turn is a CMD write, and the decoder's answer and BUSY say which of the three it is. -/
theorem stepRunsTheDecodedCommand : Obligations.StepRunsTheDecodedCommand := by
  unfold Obligations.StepRunsTheDecodedCommand
  intro s d rest hturns
  have hstep : step s = writeCmd d (s.withTurns rest) := (step_of_turns_cons hturns).trans portWrite_cmd
  rw [hstep]
  refine ⟨fun i h => writeCmd_of_command h, fun e h hb => writeCmd_of_rejected_busy h hb, fun e h hb => ?rejected⟩
  case rejected =>
    refine (writeCmd_of_rejected_idle (s := s.withTurns rest) h hb).trans ?_
    cases e <;> rfl

end Sys2Proof.Machine
end

section
/-!
PROOFS. WAITIDLE over a running compression (R100, R355): two steps of the loop are a poll and a core step, a compression is
nine core steps from its commit, and the poll after the commit ends the loop.
-/

namespace Sys2Proof.Machine

/-! ### Two steps of the loop -/

theorem run_succ_of_next {k : Nat} {s t : State} (h : step s = .next t) :
    Sys2Proof.core.run (k + 1) s = Sys2Proof.core.run k t := by
  have e : Sys2Proof.core.step s = .next t := h
  simp only [Host.Core.run, e]

/-- The state whose STATUS the host has just read. -/
def State.polled (s : State) : State := s.withRdata (some s.regs.status.toWord)

section
variable (s : State)

@[simp] theorem State.polled_regs : s.polled.regs = s.regs := rfl
@[simp] theorem State.polled_seq : s.polled.seq = s.seq := rfl
@[simp] theorem State.polled_turns : s.polled.turns = s.turns := rfl

end

section
variable {s : State}

theorem pollIdle_of_idle (hb : s.regs.status.busy = false) : pollIdle s = .next s.polled := by
  simp [pollIdle, hb, State.polled]

theorem pollIdle_of_busy (hb : s.regs.status.busy = true) :
    pollIdle s = .next (s.polled.withTurns (.core :: .waitIdle :: s.turns)) := by
  simp [pollIdle, hb, State.polled]

end

section
variable {s : State} {rest : List Turn} (ht : s.turns = .waitIdle :: rest)
include ht

/-- The poll that finds BUSY = 0 ends the loop. -/
theorem step_waitIdle_of_idle (hb : s.regs.status.busy = false) : step s = .next (s.polled.withTurns rest) :=
  (step_of_turns_cons ht).trans (pollIdle_of_idle hb)

/-- The poll that finds BUSY = 1 is followed by a core step and the next poll. -/
theorem run_waitIdle_of_busy {k : Nat} {t : State} (hb : s.regs.status.busy = true)
    (hc : coreStep s.polled = .next t) : Sys2Proof.core.run (k + 2) s = Sys2Proof.core.run k t := by
  have hpoll : step s = .next (s.polled.withTurns (.core :: .waitIdle :: rest)) :=
    (step_of_turns_cons ht).trans (pollIdle_of_busy hb)
  have hcore : step (s.polled.withTurns (.core :: .waitIdle :: rest)) = .next t := by
    rw [← hc, step_of_turns_cons rfl, ← ht]
    rfl
  rw [run_succ_of_next hpoll, run_succ_of_next hcore]

end

/-! ### A compression counts down to its commit -/

/-- A COMPRESS or COMPRESS_XOF is running. -/
def State.Compressing (s : State) : Prop := s.seq.phase = .compressRun ∨ s.seq.phase = .xofRun

/-- The core steps up to and with the commit of the compression in progress (R187). -/
def State.stepsLeft (s : State) : Nat := if s.seq.loaded then 8 - s.seq.rnd.val else 9

/-- The last step of the nine is the commit. -/
theorem pipeDone_iff_stepsLeft (s : State) : s.pipeDone = true ↔ s.stepsLeft = 1 := by
  rw [pipeDone_iff, State.stepsLeft, Fin.ext_iff]
  split
  · next hl => simp only [hl, true_and]; omega
  · next hl => simp [hl]

theorem stepsLeft_pipeStep {s : State} (x : CompressInput) (h : s.pipeDone = false) :
    (s.pipeStep x).stepsLeft + 1 = s.stepsLeft := by
  rcases s.pipeStep_cases x with ⟨hl, e⟩ | ⟨hl, hr, e⟩ | ⟨hl, hr, _⟩
  · simp [e, State.stepsLeft, hl]
  · simp [e, State.stepsLeft, hl, Fin.val_add]; omega
  · simp [State.pipeDone, hl, Fin.ext_iff] at h; omega

section
variable {s : State} (hp : s.Compressing)
include hp

theorem coreStep_of_pipe (hd : s.pipeDone = false) : coreStep s = .next (s.pipeStep s.job.compressInput) := by
  rcases hp with hp | hp
  · simp [coreStep_compressRun hp, compressRunStep, hd]
  · simp [coreStep_xofRun hp, xofRunStep, hd]

/-- The commit ends the command: BUSY 0, DONE 1 (R224, R230). -/
theorem coreStep_of_pipeDone (hd : s.pipeDone = true) :
    ∃ t, coreStep s = .next t ∧ t.turns = s.turns ∧ t.regs.status = s.regs.status.completed := by
  rcases hp with hp | hp
  · exact ⟨s.commitCompress, by simp [coreStep_compressRun hp, compressRunStep, hd], by simp, by simp⟩
  · exact ⟨s.commitXof, by simp [coreStep_xofRun hp, xofRunStep, hd], by simp, by simp⟩

end

/-! ### The loop ends -/

/-- WAITIDLE is over: the turns behind it are next, and the STATUS it has read says that the command is done. -/
def State.WaitOver (rest : List Turn) (u : State) : Prop :=
  u.turns = rest ∧ u.regs.status.busy = false ∧ u.regs.status.done = true ∧ u.rdata = some u.regs.status.toWord

/-- The poll that finds a completed command. -/
theorem run_waitIdle_of_completed {rest : List Turn} {s : State} {st : Status} (ht : s.turns = .waitIdle :: rest)
    (hst : s.regs.status = st.completed) : ∃ u, Sys2Proof.core.run 1 s = .next u ∧ u.WaitOver rest := by
  have hb : s.regs.status.busy = false := by rw [hst]; rfl
  have hd : s.regs.status.done = true := by rw [hst]; rfl
  exact ⟨_, run_succ_of_next (step_waitIdle_of_idle ht hb), rfl, hb, hd, rfl⟩

/-- With `n + 1` core steps to the commit, the loop takes `n + 2` polls. -/
theorem run_waitIdle_of_stepsLeft {rest : List Turn} {n : Nat} {s : State} (ht : s.turns = .waitIdle :: rest)
    (hb : s.regs.status.busy = true) (hp : s.Compressing) (hn : s.stepsLeft = n + 1) :
    ∃ u, Sys2Proof.core.run (2 * n + 3) s = .next u ∧ u.WaitOver rest := by
  induction n generalizing s with
  | zero =>
    have hd : s.polled.pipeDone = true := (pipeDone_iff_stepsLeft _).2 hn
    obtain ⟨t, hc, htt, hst⟩ := coreStep_of_pipeDone (s := s.polled) hp hd
    rw [run_waitIdle_of_busy ht hb hc]
    exact run_waitIdle_of_completed (htt.trans ht) hst
  | succ n ih =>
    have hd : s.polled.pipeDone = false := by
      rw [Bool.eq_false_iff, Ne, pipeDone_iff_stepsLeft]
      exact fun h1 => absurd (hn.symm.trans h1) (by omega)
    have hc := coreStep_of_pipe (s := s.polled) hp hd
    have hleft := (stepsLeft_pipeStep s.polled.job.compressInput hd).trans hn
    rw [show 2 * (n + 1) + 3 = 2 * n + 3 + 2 by omega, run_waitIdle_of_busy ht hb hc]
    exact ih (by simpa using ht) (by simpa using hb) (by simpa [State.Compressing] using hp) (by omega)

/-- Settles O57: an accepted compression is nine core steps from its commit. -/
theorem waitIdleEndsAfterACompression : Obligations.WaitIdleEndsAfterACompression := by
  unfold Obligations.WaitIdleEndsAfterACompression
  intro s t i flags rest hready hi hturns hexec
  have haccept : ∃ job ph, t = s.accept job ph ∧ (ph = .compressRun ∨ ph = .xofRun) := by
    rcases hi with rfl | rfl
    · cases (exec_compress_of_ready hready flags).symm.trans hexec
      exact ⟨_, _, rfl, .inl rfl⟩
    · cases (exec_compressXof_of_ready hready flags).symm.trans hexec
      exact ⟨_, _, rfl, .inr rfl⟩
  obtain ⟨job, ph, rfl, hph⟩ := haccept
  exact run_waitIdle_of_stepsLeft (n := 8) hturns rfl hph rfl

end Sys2Proof.Machine
end

section
/-!
PROOFS. The state mixer (R123 to R127): lane rotations that add up to a whole turn cancel, and the mixing step works on each
lane by itself.
-/

namespace Sys2Proof.Machine

/-! ### The lane rotations -/

/-- R123: LROT(LROT(a, j), 4 - j) = a. -/
theorem lrot_lrot_of_add_eq_four (a : Row) {j k : Nat} (h : j + k = 4) : lrot (lrot a j) k = a := by
  ext1 c hc
  have hturn : ((c + k) % 4 + j) % 4 = c := by omega
  simp only [getElem_lrot, hturn]

theorem undiag_diag (S : Grid) : undiag (diag S) = S := by
  simp only [undiag, diag, lrot_lrot_of_add_eq_four]

theorem diag_undiag (S : Grid) : diag (undiag S) = S := by
  simp only [undiag, diag, lrot_lrot_of_add_eq_four]

/-- Settles O15: in every row the two rotations add up to four lanes. -/
theorem undiagUndoesDiag : Obligations.UndiagUndoesDiag :=
  fun S => ⟨undiag_diag S, diag_undiag S⟩

/-! ### One lane of the mixing step -/

/-- Lane `c` of a grid, from row 0 to row 3: the operands `(a, b, c, d)` of the scalar function. -/
def Grid.lane (S : Grid) (c : Fin 4) : Word × Word × Word × Word := (S.row0[c], S.row1[c], S.row2[c], S.row3[c])

/-- One half of the scalar function (R126, R127), with the rotations `p` and `q`. -/
def gHalf (v : Word × Word × Word × Word) (m : Word) (p q : Nat) : Word × Word × Word × Word :=
  let (a, b, c, d) := v
  let a' := a + b + m
  let d' := rotr32 (d ^^^ a') p
  let c' := c + d'
  let b' := rotr32 (b ^^^ c') q
  (a', b', c', d')

/-- R127: `g` is its two halves, with rotations 16 and 12, then 8 and 7. -/
theorem gScalar_eq_gHalf_gHalf (a b c d mx my : Word) :
    gScalar a b c d mx my = gHalf (gHalf (a, b, c, d) mx 16 12) my 8 7 := rfl

/-- R126: a lane of the half-step depends on that lane alone. -/
theorem lane_mixHalf (S : Grid) (x : Row) (p q : Nat) (c : Fin 4) :
    (mixHalf S x p q).lane c = gHalf (S.lane c) x[c] p q := by
  simp only [Grid.lane, mixHalf, gHalf, Fin.getElem_fin, getElem_addv, getElem_xorv, getElem_rotrv]

/-- Settles O16, one half-step after the other. -/
theorem mixingStepIsScalarPerLane : Obligations.MixingStepIsScalarPerLane := by
  unfold Obligations.MixingStepIsScalarPerLane
  intro S x y c
  calc (mixG S x y).lane c
    _ = gHalf ((mixHalf S x 16 12).lane c) y[c] 8 7 := lane_mixHalf ..
    _ = gHalf (gHalf (S.lane c) x[c] 16 12) y[c] 8 7 := by rw [lane_mixHalf]
    _ = gScalar S.row0[c] S.row1[c] S.row2[c] S.row3[c] x[c] y[c] := (gScalar_eq_gHalf_gHalf ..).symm

end Sys2Proof.Machine
end

section
/-!
PROOFS. The message schedule (R153 to R159): the ROM's rows, and the round in scalar form. A pass of a round is four scalar
mixes at sixteen distinct words of the flat view, so each lane of the pass can be read off alone.
-/

namespace Sys2Proof.Machine

/-- Settles O18, each clause on the ROM's entries. -/
theorem scheduleRowsFollowThePermutation : Obligations.ScheduleRowsFollowThePermutation := by
  unfold Obligations.ScheduleRowsFollowThePermutation
  refine ⟨?identity, ?permuted, ?everyIndex⟩
  case identity => decide
  case permuted => decide
  case everyIndex => decide

/-! ### Four words of a flat view -/

/-- The words of `v` at the four places `p`: the operands `(a, b, c, d)` of the scalar function. -/
def wordsAt (v : Words16) (p : Fin 4 → Fin 16) : Word × Word × Word × Word := (v[p 0], v[p 1], v[p 2], v[p 3])

/-- `gScalar` on the four words of a lane. -/
def gLane (w : Word × Word × Word × Word) (mx my : Word) : Word × Word × Word × Word :=
  gScalar w.1 w.2.1 w.2.2.1 w.2.2.2 mx my

/-- `mixAt` at the four places `p`. -/
def mixWords (v : Words16) (p : Fin 4 → Fin 16) (mx my : Word) : Words16 := mixAt v (p 0) (p 1) (p 2) (p 3) mx my

/-- R127: G mixes each lane by the scalar function. -/
theorem lane_mixG (S : Grid) (x y : Row) (c : Fin 4) : (mixG S x y).lane c = gLane (S.lane c) x[c] y[c] :=
  mixingStepIsScalarPerLane S x y c

theorem wordsAt_eq_iff {v w : Words16} {p : Fin 4 → Fin 16} : wordsAt v p = wordsAt w p ↔ ∀ r, v[p r] = w[p r] := by
  simp [wordsAt, Fin.forall_fin_succ]

theorem wordsAt_mixWords_self (v : Words16) {p : Fin 4 → Fin 16} (hp : Function.Injective p) (mx my : Word) :
    wordsAt (mixWords v p mx my) p = gLane (wordsAt v p) mx my := by
  have hne : ∀ {i j : Fin 4}, i ≠ j → (p i).val ≠ (p j).val := fun h e => h (hp (Fin.ext e))
  simp [wordsAt, mixWords, mixAt, gLane, hne]

theorem getElem_mixWords_of_ne (v : Words16) {p : Fin 4 → Fin 16} {k : Fin 16} (h : ∀ r, p r ≠ k) (mx my : Word) :
    (mixWords v p mx my)[k] = v[k] := by
  have hne : ∀ r, (p r).val ≠ k.val := fun r e => h r (Fin.ext e)
  simp [mixWords, mixAt, hne]

theorem wordsAt_mixWords_of_disjoint (v : Words16) {p p' : Fin 4 → Fin 16} (h : ∀ r r', p r ≠ p' r') (mx my : Word) :
    wordsAt (mixWords v p mx my) p' = wordsAt v p' :=
  wordsAt_eq_iff.mpr fun r' => getElem_mixWords_of_ne v (fun r => h r r') mx my

/-! ### One pass of a round -/

/-- One pass in scalar form: the four mixes, lane `c` of the pass at the places `q c`. -/
def mixLanes (v : Words16) (q : Fin 4 → Fin 4 → Fin 16) (x y : Row) : Words16 :=
  mixWords (mixWords (mixWords (mixWords v (q 0) x[0] y[0]) (q 1) x[1] y[1]) (q 2) x[2] y[2]) (q 3) x[3] y[3]

/-- The lanes of a pass do not meet, so each of them is mixed as if alone. -/
theorem wordsAt_mixLanes (v : Words16) {q : Fin 4 → Fin 4 → Fin 16} (hq : Function.Injective2 q) (x y : Row) (c : Fin 4) :
    wordsAt (mixLanes v q x y) (q c) = gLane (wordsAt v (q c)) x[c] y[c] := by
  have hself (w : Words16) (i : Fin 4) (mx my : Word) :
      wordsAt (mixWords w (q i) mx my) (q i) = gLane (wordsAt w (q i)) mx my :=
    wordsAt_mixWords_self w (hq.right i) mx my
  have hother (w : Words16) {i j : Fin 4} (hij : i ≠ j) (mx my : Word) :
      wordsAt (mixWords w (q i) mx my) (q j) = wordsAt w (q j) :=
    wordsAt_mixWords_of_disjoint w (fun _ _ e => hij (hq e).1) mx my
  fin_cases c <;> simp [mixLanes, hself, hother]

/-- A pass in row form on the grid `S` is the pass in scalar form on `v`, where the lanes of `S` are the words of `v` at `q`. -/
theorem eq_mixLanes_of_lanes {v w : Words16} {q : Fin 4 → Fin 4 → Fin 16} (hinj : Function.Injective2 q)
    (hsurj : ∀ k, ∃ c r, q c r = k) {S : Grid} {x y : Row} (hv : ∀ c, wordsAt v (q c) = S.lane c)
    (hw : ∀ c, wordsAt w (q c) = (mixG S x y).lane c) : w = mixLanes v q x y := by
  have hlane (c : Fin 4) : wordsAt w (q c) = wordsAt (mixLanes v q x y) (q c) := by
    rw [hw, lane_mixG, wordsAt_mixLanes v hinj, hv]
  ext1 k hk
  obtain ⟨c, r, hcr⟩ := hsurj ⟨k, hk⟩
  simpa [hcr] using wordsAt_eq_iff.mp (hlane c) r

/-! ### The two passes -/

/-- Row `r` of column `c` in the flat view (R9). -/
def columnIndex (c r : Fin 4) : Fin 16 := ⟨4 * r + c, by omega⟩

/-- Row `r` of diagonal `c` in the flat view (R159): row `r` is read `r` lanes further on. -/
def diagonalIndex (c r : Fin 4) : Fin 16 := ⟨4 * r + (c + r) % 4, by omega⟩

theorem columnIndex_injective2 : Function.Injective2 columnIndex := by unfold Function.Injective2; decide
theorem diagonalIndex_injective2 : Function.Injective2 diagonalIndex := by unfold Function.Injective2; decide

/-- R9: the columns of the flat view are the lanes of the grid. -/
theorem wordsAt_flat_columnIndex (S : Grid) (c : Fin 4) : wordsAt S.flat (columnIndex c) = S.lane c := by
  fin_cases c <;> rfl

/-- R124: the diagonals of the flat view are the lanes of DIAG's grid. -/
theorem wordsAt_flat_diagonalIndex (S : Grid) (c : Fin 4) : wordsAt S.flat (diagonalIndex c) = (diag S).lane c := by
  fin_cases c <;> rfl

theorem flat_columnPass (S : Grid) (x y : Row) : (mixG S x y).flat = mixLanes S.flat columnIndex x y :=
  eq_mixLanes_of_lanes columnIndex_injective2 (by decide) (wordsAt_flat_columnIndex S) (wordsAt_flat_columnIndex _)

theorem flat_diagonalPass (S : Grid) (x y : Row) :
    (undiag (mixG (diag S) x y)).flat = mixLanes S.flat diagonalIndex x y :=
  eq_mixLanes_of_lanes diagonalIndex_injective2 (by decide) (wordsAt_flat_diagonalIndex S) fun c => by
    rw [wordsAt_flat_diagonalIndex, diag_undiag]

/-- R158, R159: SELECT's vectors give each pass of the scalar form its message words. -/
theorem scalarRound_eq_mixLanes (v m : Words16) (r : Fin 7) :
    scalarRound v m r =
      mixLanes (mixLanes v columnIndex (selectVectors m r).xc (selectVectors m r).yc) diagonalIndex
        (selectVectors m r).xd (selectVectors m r).yd := rfl

/-- Settles O17, the diagonal pass after the column pass. -/
theorem roundAgreesWithScalarForm : Obligations.RoundAgreesWithScalarForm := by
  unfold Obligations.RoundAgreesWithScalarForm
  intro S m r
  rw [roundStep, flat_diagonalPass, flat_columnPass, scalarRound_eq_mixLanes]

end Sys2Proof.Machine
end

section
/-!
PROOFS. The round pipeline (R180, R186, R188, R189, R191): the initial grid, and each word of the two outputs from the rows
after round 6.
-/

namespace Sys2Proof.Machine

/-! ### The initial grid -/

/-- R180, row by row. -/
theorem initGrid_eq (x : CompressInput) :
    initGrid x =
      { row0 := lowRow x.cv
        row1 := highRow x.cv
        row2 := lowRow ivRom
        row3 := headerRow x.counter x.blockLen x.flags } := by
  rw [initGrid]

/-- R156: the first four IV words. -/
theorem lowRow_ivRom : lowRow ivRom = #v[0x6A09E667#32, 0xBB67AE85#32, 0x3C6EF372#32, 0xA54FF53A#32] := rfl

/-- Settles O58: rows 0 and 1 are the halves of the chaining value, row 2 the ROM's, and row 3 the header's four lanes. -/
theorem initialGridIsTheSpecs : Obligations.InitialGridIsTheSpecs := by
  unfold Obligations.InitialGridIsTheSpecs
  intro x
  rw [initGrid_eq]
  exact ⟨fun k => ⟨getElem_lowRow x.cv k k.isLt, getElem_highRow x.cv k k.isLt⟩, lowRow_ivRom, rfl, rfl, rfl, rfl⟩

/-! ### The words of the two outputs -/

section
variable (S : Grid) (cv : Cv)

/-- R186: `out[0..3]`. -/
theorem getElem_finTrunc_low (c : Nat) (h : c < 4) : (finTrunc S)[c]'(by omega) = S.row0[c] ^^^ S.row2[c] := by
  simp only [finTrunc, getElem_joinRows_low _ _ c h, getElem_xorv]

/-- R186: `out[4..7]`. -/
theorem getElem_finTrunc_high (c : Nat) (h : c < 4) : (finTrunc S)[4 + c]'(by omega) = S.row1[c] ^^^ S.row3[c] := by
  simp only [finTrunc, getElem_joinRows_high _ _ c h, getElem_xorv]

/-- R188: `out[0..7]` are FIN_TRUNC's words. -/
theorem getElem_finExt_low (k : Nat) (h : k < 8) : (finExt S cv)[k]'(by omega) = (finTrunc S)[k] := by
  simp only [finExt, getElem_joinHalves_low _ _ k h]

/-- R188: `out[8..11]`. -/
theorem getElem_finExt_row2 (c : Nat) (h : c < 4) : (finExt S cv)[8 + c]'(by omega) = S.row2[c] ^^^ cv[c]'(by omega) := by
  simp only [finExt, getElem_joinHalves_high _ _ c (by omega), getElem_joinRows_low _ _ c h, getElem_xorv, getElem_lowRow]

/-- R188: `out[12..15]`. -/
theorem getElem_finExt_row3 (c : Nat) (h : c < 4) :
    (finExt S cv)[12 + c]'(by omega) = S.row3[c] ^^^ cv[4 + c]'(by omega) := by
  have hplace : 12 + c = 8 + (4 + c) := by omega
  simp only [hplace, finExt, getElem_joinHalves_high _ _ (4 + c) (by omega), getElem_joinRows_high _ _ c h, getElem_xorv,
    getElem_highRow]

end

/-- Settles O13: both modes finish the same rounds, and FIN_EXT begins with FIN_TRUNC's words. -/
theorem extendedBeginsWithTruncated : Obligations.ExtendedBeginsWithTruncated :=
  fun x k => getElem_finExt_low (rounds (initGrid x) (parseBlock x.block)) x.cv k k.isLt

/-- Settles O14, row 2 and row 3 of FIN_EXT. -/
theorem extendedSecondHalf : Obligations.ExtendedSecondHalf := by
  unfold Obligations.ExtendedSecondHalf
  intro x k S
  exact ⟨getElem_finExt_row2 S x.cv k k.isLt, getElem_finExt_row3 S x.cv k k.isLt⟩

/-- Settles O59: the words of FIN_TRUNC, which are also the first of the extended output (O13). -/
theorem firstEightWordsXorTheRows : Obligations.FirstEightWordsXorTheRows := by
  unfold Obligations.FirstEightWordsXorTheRows
  intro x k S
  have hlow : (compressFn x)[k.val]'(by omega) = S.row0[k] ^^^ S.row2[k] := getElem_finTrunc_low S k k.isLt
  have hhigh : (compressFn x)[4 + k.val]'(by omega) = S.row1[k] ^^^ S.row3[k] := getElem_finTrunc_high S k k.isLt
  exact ⟨hlow, hhigh, (extendedBeginsWithTruncated x ⟨k, by omega⟩).trans hlow,
    (extendedBeginsWithTruncated x ⟨4 + k, by omega⟩).trans hhigh⟩

end Sys2Proof.Machine
end

section
/-!
PROOFS. COMPRESS and COMPRESS_XOF from acceptance to commit (R220 to R232): the eight steps before the commit leave the
register window alone, and the ninth commits the compression of the latched operands.
-/

namespace Sys2Proof.Machine

/-! ### The nine steps -/

/-- R185: after seven rounds the grid is ready to be finalised to `compress_fn`. -/
theorem finTrunc_gridAfter_seven (x : CompressInput) : finTrunc (gridAfter x 7) = compressFn x := by
  rw [gridAfter_seven, compressFn]

/-- R185: after seven rounds the grid is ready to be finalised to `compress_xof_fn`. -/
theorem finExt_gridAfter_seven (x : CompressInput) : finExt (gridAfter x 7) x.cv = compressXofFn x := by
  rw [gridAfter_seven, compressXofFn]

/-- R220: the compression input of the latched job is that of the operand registers. -/
theorem compressInput_latchCompress (op : Op) (flags : Byte) (s : State) :
    (latchCompress op flags s).compressInput = s.regs.compressInput flags := rfl

section
variable {s : State} (hl : s.seq.loaded = false)
include hl

/-- The first `n + 1` steps of R187 of either command. -/
theorem coreRun_compressing (hp : s.Compressing) {n : Nat} (hn : n ≤ 7) :
    coreRun (n + 1) s = .next (s.afterRounds s.job.compressInput n) :=
  hp.elim (fun h => coreRun_compressRun h hl hn) (fun h => coreRun_xofRun h hl hn)

/-- The ninth step is taken with step 0 of R187 and all seven rounds behind it. -/
theorem coreRun_nine_compressing (hp : s.Compressing) {u : State}
    (h : coreStep (s.afterRounds s.job.compressInput 7) = .next u) : coreRun 9 s = .next u := by
  rw [coreRun_add_of_next (m := 8) (n := 1) (coreRun_compressing hl hp le_rfl)]
  exact coreRun_succ_of_next h

theorem coreRun_nine_compressRun (hp : s.seq.phase = .compressRun) :
    coreRun 9 s = .next (s.afterRounds s.job.compressInput 7).commitCompress := by
  apply coreRun_nine_compressing hl (.inl hp)
  rw [coreStep_compressRun (s := s.afterRounds _ 7) hp, compressRunStep, if_pos (State.pipeDone_afterRounds_seven ..)]

theorem coreRun_nine_xofRun (hp : s.seq.phase = .xofRun) :
    coreRun 9 s = .next (s.afterRounds s.job.compressInput 7).commitXof := by
  apply coreRun_nine_compressing hl (.inr hp)
  rw [coreStep_xofRun (s := s.afterRounds _ 7) hp, xofRunStep, if_pos (State.pipeDone_afterRounds_seven ..)]

/-- R226: up to the commit, the register window and its validity bits are those of the accepted command. -/
theorem coreRun_compressing_window (hp : s.Compressing) {n : Nat} (hn : n ≤ 8) :
    ∃ u, coreRun n s = .next u ∧ u.regs = s.regs ∧ u.written = s.written := by
  cases n with
  | zero => exact ⟨s, rfl, rfl, rfl⟩
  | succ n => exact ⟨_, coreRun_compressing hl hp (by omega), rfl, rfl⟩

end

/-! ### The two commits -/

section
variable (s : State) (x : CompressInput)

/-- R224: what the commit of COMPRESS leaves in the register window. -/
theorem commitCompress_afterRounds_regs :
    (s.afterRounds x 7).commitCompress.regs =
      { s.regs with
        status := s.regs.status.completed
        cv := compressFn x
        res := joinHalves (compressFn x) (Vector.replicate 8 0#32) } := by
  rw [State.commitCompress_regs, State.afterRounds_regs, State.afterRounds_pipe, finTrunc_gridAfter_seven]

/-- R230: what the commit of COMPRESS_XOF leaves in the register window. -/
theorem commitXof_afterRounds_regs :
    (s.afterRounds x 7).commitXof.regs =
      { s.regs with status := s.regs.status.completed, res := compressXofFn x } := by
  rw [State.commitXof_regs, State.afterRounds_regs, State.afterRounds_pipe, finExt_gridAfter_seven]

end

/-- Settles O8: acceptance, eight steps of the pipeline, and the commit. -/
theorem compressRunsToItsCommit : Obligations.CompressRunsToItsCommit := by
  unfold Obligations.CompressRunsToItsCommit
  intro s flags hready
  refine ⟨_, _, exec_compress_of_ready hready flags, coreRun_nine_compressRun rfl rfl, ?_⟩
  rw [State.accept_job, compressInput_latchCompress, commitCompress_afterRounds_regs]
  refine ⟨rfl, fun k => getElem_joinHalves_low _ _ k k.isLt, fun k => ?high, ?frame⟩
  case high => exact (getElem_joinHalves_high _ _ k k.isLt).trans (Vector.getElem_replicate ..)
  case frame => simp

/-- Settles O9: acceptance, eight steps of the pipeline, and the commit. -/
theorem compressXofRunsToItsCommit : Obligations.CompressXofRunsToItsCommit := by
  unfold Obligations.CompressXofRunsToItsCommit
  intro s flags hready
  refine ⟨_, _, exec_compressXof_of_ready hready flags, coreRun_nine_xofRun rfl rfl, ?_⟩
  rw [State.accept_job, compressInput_latchCompress, commitXof_afterRounds_regs]
  refine ⟨rfl, ?frame⟩
  case frame => simp

/-! ### Until the commit -/

/-- R221: a ready core accepts either command, and then runs it. -/
theorem exec_of_compressReady {s : State} (hready : s.CompressReady) {i : Instr} {flags : Byte}
    (hi : i = .compress flags ∨ i = .compressXof flags) :
    ∃ job ph, exec i s = .next (s.accept job ph) ∧ (ph = .compressRun ∨ ph = .xofRun) := by
  rcases hi with rfl | rfl
  · exact ⟨_, _, exec_compress_of_ready hready flags, .inl rfl⟩
  · exact ⟨_, _, exec_compressXof_of_ready hready flags, .inr rfl⟩

/-- Settles O10: acceptance changes STATUS alone of the register window, and the steps before the commit nothing of it. -/
theorem resultsStayOldUntilTheCommit : Obligations.ResultsStayOldUntilTheCommit := by
  unfold Obligations.ResultsStayOldUntilTheCommit
  intro s flags n hready hn i hi
  obtain ⟨job, ph, hexec, hph⟩ := exec_of_compressReady (i := i) (flags := flags) hready (by simpa using hi)
  obtain ⟨u, hrun, hregs, hwritten⟩ := coreRun_compressing_window (s := s.accept job ph) rfl hph hn
  refine ⟨_, u, hexec, hrun, ?_⟩
  rw [hregs]
  exact ⟨rfl, rfl, rfl, rfl, hwritten⟩

/-! ### The registers left alone -/

/-- R228: of the register window, only STATUS, CV and RES can differ. -/
def SameWindowButResults (s t : State) : Prop :=
  t.regs = { s.regs with status := t.regs.status, cv := t.regs.cv, res := t.regs.res }

/-- Issuing a command changes STATUS alone of the register window. -/
theorem exec_sameWindowButResults {i : Instr} {s t : State} (h : exec i s = .next t) : SameWindowButResults s t := by
  rcases exec_next h with ⟨_, rfl⟩ | ⟨_, c, rfl⟩ | ⟨_, job, ph, _, rfl⟩ <;> exact rfl

/-- Everything a step of a running COMPRESS or COMPRESS_XOF can do. -/
theorem coreStep_compressing_next {s t : State} (hp : s.Compressing) (h : coreStep s = .next t) :
    t = s.pipeStep s.job.compressInput ∨ t = s.commitCompress ∨ t = s.commitXof := by
  rcases hp with hp | hp
  · rcases compressRunStep_next ((coreStep_compressRun hp).symm.trans h) with ⟨_, ht⟩ | ⟨_, ht⟩
    · exact .inr (.inl ht)
    · exact .inl ht
  · rcases xofRunStep_next ((coreStep_xofRun hp).symm.trans h) with ⟨_, ht⟩ | ⟨_, ht⟩
    · exact .inr (.inr ht)
    · exact .inl ht

theorem coreStep_sameWindowButResults {s t : State} (hp : s.Compressing) (h : coreStep s = .next t) :
    SameWindowButResults s t := by
  rcases coreStep_compressing_next hp h with rfl | rfl | rfl
  · simp [SameWindowButResults]
  · exact rfl
  · exact rfl

/-- Settles O11: what is neither STATUS nor CV nor RES is the same after acceptance and after every step. -/
theorem compressLeavesEveryOperandRegisterButCv : Obligations.CompressLeavesEveryOperandRegisterButCv := by
  unfold Obligations.CompressLeavesEveryOperandRegisterButCv
  intro s t h
  have hsame : SameWindowButResults s t := by
    rcases h with ⟨flags, h | h⟩ | ⟨hp, h⟩
    · exact exec_sameWindowButResults h
    · exact exec_sameWindowButResults h
    · exact coreStep_sameWindowButResults hp h
  rw [hsame]
  exact ⟨rfl, rfl, rfl, rfl, rfl, rfl, rfl, rfl, rfl, rfl, rfl, rfl, rfl⟩

/-! ### Repeatability -/

/-- R221: the compression input is the five latched operands. -/
theorem Job.compressInput_congr {j j' : Job} (hcv : j.cv = j'.cv) (hblk : j.blk = j'.blk)
    (hlen : j.blockLen = j'.blockLen) (hctr : j.counter = j'.counter) (hflags : j.flags = j'.flags) :
    j.compressInput = j'.compressInput := by
  simp only [Job.compressInput, hcv, hblk, hlen, hctr, hflags]

/-- Settles O12: the commits are functions of the compression input; COMPRESS_XOF leaves CV as it was latched. -/
theorem sameLatchedOperandsSameResult : Obligations.SameLatchedOperandsSameResult := by
  unfold Obligations.SameLatchedOperandsSameResult
  intro s s' t t' u u' flags i hi hs hs' ht ht' hcv hblk hlen hctr hflags hu hu'
  have hx := Job.compressInput_congr hcv hblk hlen hctr hflags
  rcases hi with rfl | rfl
  · cases (exec_compress_of_ready hs flags).symm.trans ht
    cases (exec_compress_of_ready hs' flags).symm.trans ht'
    cases (coreRun_nine_compressRun rfl rfl).symm.trans hu
    cases (coreRun_nine_compressRun rfl rfl).symm.trans hu'
    rw [commitCompress_afterRounds_regs, commitCompress_afterRounds_regs, hx]
    exact ⟨rfl, rfl⟩
  · cases (exec_compressXof_of_ready hs flags).symm.trans ht
    cases (exec_compressXof_of_ready hs' flags).symm.trans ht'
    cases (coreRun_nine_xofRun rfl rfl).symm.trans hu
    cases (coreRun_nine_xofRun rfl rfl).symm.trans hu'
    rw [commitXof_afterRounds_regs, commitXof_afterRounds_regs, hx]
    exact ⟨rfl, hcv⟩

end Sys2Proof.Machine
end

section
/-!
PROOFS. A running command and the agents outside the core (R221, R303, R311, R350): what they can do while BUSY = 1.
-/

namespace Sys2Proof.Machine

/-- The command that runs in `s` runs on in `t` as if nothing had happened; of the register window only STATUS, with BUSY
kept, and IE can differ. -/
def SameRunningCommand (s t : State) : Prop :=
  t.job = s.job ∧ t.seq = s.seq ∧ t.pipe = s.pipe ∧ t.accesses = s.accesses ∧ t.written = s.written ∧
    t.refused = s.refused ∧ t.regs.status.busy = true ∧
    t.regs = { s.regs with status := t.regs.status, ie := t.regs.ie }

/-- R35: what is not busy-locked is no storage the host writes. -/
theorem storeReg_of_not_busyLocked {s : State} {r : WinReg} {d : Word} (hl : r.busyLocked = false) :
    s.storeReg r d = s := by
  cases r <;> simp_all [WinReg.busyLocked, State.storeReg]

/-- While BUSY = 1 a command request is dropped (R301), and so is a write to any storage register (R350). -/
theorem HostEffect.sameRunningCommand_of_busy {s t : State} (hb : s.regs.status.busy = true) (h : HostEffect s t) :
    SameRunningCommand s t := by
  cases h with
  | command i h =>
    rcases exec_next h with ⟨_, rfl⟩ | ⟨hidle, _⟩ | ⟨hidle, _⟩
    · exact ⟨rfl, rfl, rfl, rfl, rfl, rfl, hb, rfl⟩
    · exact absurd hb (by simp [hidle])
    · exact absurd hb (by simp [hidle])
  | rejected c hidle => exact absurd hb (by simp [hidle])
  | stored r d h =>
    have hl : r.busyLocked = false := by simpa [hb] using h
    rw [storeReg_of_not_busyLocked hl]
    exact ⟨rfl, rfl, rfl, rfl, rfl, rfl, hb, rfl⟩
  | dropped | statusWrite | ctrlWrite | answered | polled | hostStore | hostRead =>
    exact ⟨rfl, rfl, rfl, rfl, rfl, rfl, hb, rfl⟩

/-- Settles O53: the turn is an effect of another agent, taken on a busy core. -/
theorem othersCannotDisturbARunningCommand : Obligations.OthersCannotDisturbARunningCommand := by
  unfold Obligations.OthersCannotDisturbARunningCommand
  intro s t τ rest hb hturns hc hr h
  have hturn : runTurn τ (s.withTurns rest) = .next t := (step_of_turns_cons hturns).symm.trans h
  exact (runTurn_host hc hr hturn).sameRunningCommand_of_busy (s := s.withTurns rest) hb

end Sys2Proof.Machine
end

section
/-!
PROOFS. The counter of the batch driver (R267, R269, R270): it starts as the latched counter, every input advances it with its
own index, and nothing else touches it.
-/

namespace Sys2Proof.Machine

/-! ### The counter of an input -/

/-- R270: the first input takes the start counter. -/
theorem inputCounter_zero (job : Job) : inputCounter job 0#32 = job.counter := by
  simp [inputCounter]

/-- An input index below the count goes up without wrapping. -/
theorem word_succ_toNat {i n : Word} (h : i < n) : (i + 1#32).toNat = i.toNat + 1 := by bv_omega

/-- R269, R270: the next input takes the counter HM_NEXT advances to. The index must not wrap, as the counter is wider. -/
theorem inputCounter_succ (job : Job) {i n : Word} (h : i < n) :
    inputCounter job (i + 1#32) = if job.inc then inputCounter job i + 1#64 else inputCounter job i := by
  have hwide : (i + 1#32).setWidth 64 = i.setWidth 64 + 1#64 := by
    apply BitVec.eq_of_toNat_eq
    have hs := word_succ_toNat h
    have hn := n.isLt
    have hlt : i.toNat < n.toNat := h
    simp only [BitVec.toNat_setWidth, BitVec.toNat_add, BitVec.toNat_ofNat] at hs ⊢
    omega
  cases hinc : job.inc <;> simp [inputCounter, hinc, hwide, BitVec.add_assoc]

/-! ### The invariant -/

/-- Outside HASH_MANY the invariant says nothing. -/
theorem counterAgrees_of_not_batch {s : State} (h : s.seq.phase.ofBatch = false) : s.CounterAgrees :=
  fun hb => absurd hb (by simp [h])

/-- The invariant is kept where the job, the input and the counter are, by a step that does not enter a batch. -/
theorem counterAgrees_of_same_input {s t : State} (hs : s.CounterAgrees) (hp : s.seq.phase.ofBatch = true)
    (hj : t.job = s.job) (hi : t.seq.i = s.seq.i) (hc : t.seq.ctr = s.seq.ctr) : t.CounterAgrees := by
  intro _
  rw [hj, hi, hc]
  exact hs hp

/-- The invariant depends on the job latch and the sequencer alone. -/
theorem counterAgrees_congr {s t : State} (hs : s.CounterAgrees) (hj : t.job = s.job) (hq : t.seq = s.seq) :
    t.CounterAgrees := by
  rwa [State.CounterAgrees, hj, hq]

/-- An accepted command stands at input 0 with the latched counter (R260). -/
theorem counterAgrees_accept (s : State) (job : Job) (ph : Phase) : (s.accept job ph).CounterAgrees :=
  fun _ => ⟨Nat.zero_le _, (inputCounter_zero job).symm⟩

theorem CoreEffect.keeps_counterAgrees {s t : State} (hs : s.CounterAgrees) (h : CoreEffect s t) :
    t.CounterAgrees := by
  cases h with
  | idle => exact hs
  | abort | complete => exact counterAgrees_of_not_batch rfl
  | compressPipe hp | xofPipe hp => exact counterAgrees_of_not_batch (by simp [hp, Phase.ofBatch])
  | compressCommit | xofCommit => exact counterAgrees_of_not_batch (by simp [Phase.ofBatch])
  | ptrByte hp | ptrLast hp | blockByte hp | blockLast hp | mixBlock hp | mixLast hp | writeByte hp | writeLast hp =>
    exact counterAgrees_of_same_input hs (by simp [hp, Phase.ofBatch]) rfl rfl rfl
  | mixPipe hp => exact counterAgrees_of_same_input hs (by simp [hp, Phase.ofBatch]) (by simp) (by simp) (by simp)
  | nextInput hp hi =>
    obtain ⟨-, hc⟩ := hs (by simp [hp, Phase.ofBatch])
    exact fun _ => ⟨word_succ_le_of_lt hi, by simp [inputCounter_succ s.job hi, hc]⟩

theorem HostEffect.keeps_counterAgrees {s t : State} (hs : s.CounterAgrees) (h : HostEffect s t) :
    t.CounterAgrees := by
  cases h with
  | command i h =>
    rcases exec_next h with ⟨_, rfl⟩ | ⟨_, c, rfl⟩ | ⟨_, job, ph, _, rfl⟩
    · exact counterAgrees_congr hs rfl rfl
    · exact counterAgrees_congr hs rfl rfl
    · exact counterAgrees_accept s job ph
  | stored r d h => exact counterAgrees_congr hs (by simp) (by simp)
  | rejected | dropped | statusWrite | ctrlWrite | answered | polled | hostStore | hostRead =>
    exact counterAgrees_congr hs rfl rfl

theorem step_keeps_counterAgrees {s t : State} (hs : s.CounterAgrees) (h : step s = .next t) : t.CounterAgrees := by
  refine step_keeps (Inv := State.CounterAgrees) (fun _ _ hs => counterAgrees_congr hs rfl rfl) ?_ hs h
  intro s t hs h
  cases h with
  | core h => exact (coreStep_next h).keeps_counterAgrees hs
  | hardReset => exact counterAgrees_of_not_batch rfl
  | host h => exact h.keeps_counterAgrees hs

/-- Settles O49: the invariant is kept turn by turn, and the compression input of HM_MIX takes the driver's counter. -/
theorem stepKeepsCounterOfTheInput : Obligations.StepKeepsCounterOfTheInput := by
  unfold Obligations.StepKeepsCounterOfTheInput
  intro s t hs h
  have ht := step_keeps_counterAgrees hs h
  refine ⟨ht, fun hp => ?mix⟩
  case mix => exact (ht (by simp [hp, Phase.ofBatch])).2

end Sys2Proof.Machine
end

section
/-!
PROOFS. HASH_MANY at its edges (R263, R266, R269, R271, R274): what issuing it reads, its first and last step, the registers a
step of it leaves alone, and the digest of the shortest inputs.
-/

namespace Sys2Proof.Machine

/-! ### HM_NEXT -/

section
variable {s : State} (hp : s.seq.phase = .hmNext)
include hp

/-- R269: HM_NEXT while an input remains to be left. -/
theorem coreStep_hmNext_of_lt (hi : s.seq.i < s.job.numInputs) :
    coreStep s =
      .next (s.withSeq
        { s.seq with
          ctr := if s.job.inc then s.seq.ctr + 1#64 else s.seq.ctr
          i := s.seq.i + 1#32
          phase := if s.seq.i + 1#32 < s.job.numInputs then .hmPtr else .hmNext }) := by
  rw [coreStep_hmNext hp, hmNextStep, if_pos hi]

/-- R271: the completion. -/
theorem coreStep_hmNext_of_not_lt (hi : ¬s.seq.i < s.job.numInputs) : coreStep s = .next s.complete := by
  rw [coreStep_hmNext hp, hmNextStep, if_neg hi]

end

/-- Settles O35, by whether an input remains. -/
theorem hmNextAdvancesOrCompletes : Obligations.HmNextAdvancesOrCompletes := by
  unfold Obligations.HmNextAdvancesOrCompletes
  intro s hp
  refine ⟨coreStep_hmNext_of_lt hp, fun hi => ?complete⟩
  case complete => exact ⟨s.complete, coreStep_hmNext_of_not_lt hp hi, rfl, rfl, rfl, rfl⟩

/-! ### No input -/

theorem exec_hashMany_of_no_blocks {s : State} {inc : Bool} {flags fs fe : Byte} (hidle : s.regs.status.busy = false)
    (hw : s.written.blocks = true) (hb : s.regs.blocks = 0#32) :
    exec (.hashMany inc flags fs fe) s = .next (s.reject .badBlocks) := by
  simp [exec, execHashMany, request_of_idle hidle, startBatch, hw, hb]

/-- Settles O30: with no input the command is accepted into HM_NEXT, whose next step completes it. -/
theorem noInputsCompletesAtOnce : Obligations.NoInputsCompletesAtOnce := by
  unfold Obligations.NoInputsCompletesAtOnce
  intro s inc flags fs fe hn
  refine ⟨fun hready => ?accepted, exec_hashMany_of_no_blocks⟩
  case accepted =>
    have haccept := exec_hashMany_of_ready hready inc flags fs fe
    rw [if_pos hn] at haccept
    have hnone : ¬0#32 < (latchBatch inc flags fs fe s).numInputs := by
      rw [show (latchBatch inc flags fs fe s).numInputs = 0#32 from hn]
      decide
    exact ⟨_, _, haccept, rfl, rfl, coreStep_hmNext_of_not_lt rfl hnone, rfl, rfl, rfl, rfl⟩

/-! ### The registers a step leaves alone (R271, R307) -/

/-- The validity bits, the job, the platform and the host's side are the same in both states. -/
def SameSurroundings (s t : State) : Prop :=
  t.written = s.written ∧ t.job = s.job ∧ t.refused = s.refused ∧ t.turns = s.turns ∧ t.rdata = s.rdata ∧
    t.mdata = s.mdata

theorem CoreEffect.keeps_surroundings {s t : State} (hp : s.seq.phase.ofBatch = true) (h : CoreEffect s t) :
    SameSurroundings s t := by
  cases h with
  | compressPipe hp' | compressCommit hp' | xofPipe hp' | xofCommit hp' => simp [hp', Phase.ofBatch] at hp
  | mixPipe => simp [SameSurroundings, State.flagged]
  | idle | abort | ptrByte | ptrLast | blockByte | blockLast | mixBlock | mixLast | writeByte | writeLast | nextInput
  | complete => exact ⟨rfl, rfl, rfl, rfl, rfl, rfl⟩

theorem CoreEffect.keeps_registers_or_aborts {s t : State} (hp : s.seq.phase.ofBatch = true) (h : CoreEffect s t) :
    t.regs = { s.regs with status := t.regs.status } ∨
      ∃ a kind, s.nextAccess = some (a, kind) ∧ s.admits a kind = false ∧ t = s.abortMem a := by
  cases h with
  | abort hn hr => exact .inr ⟨_, _, hn, hr, rfl⟩
  | compressPipe hp' | compressCommit hp' | xofPipe hp' | xofCommit hp' => simp [hp', Phase.ofBatch] at hp
  | mixPipe => exact .inl (by simp)
  | idle | ptrByte | ptrLast | blockByte | blockLast | mixBlock | mixLast | writeByte | writeLast | nextInput
  | complete => exact .inl rfl

/-- Settles O39, by what a core step of a batch can do. -/
theorem hashManyWritesNoOtherRegister : Obligations.HashManyWritesNoOtherRegister := by
  unfold Obligations.HashManyWritesNoOtherRegister
  intro s t hp h
  have heffect := coreStep_next h
  obtain ⟨hw, hj, hr, ht, hrd, hmd⟩ := heffect.keeps_surroundings hp
  refine ⟨hw, hj, hr, ht, hrd, hmd, (heffect.keeps_registers_or_aborts hp).imp_right ?abort⟩
  case abort =>
    rintro ⟨a, kind, hn, hrefused, rfl⟩
    exact ⟨a, kind, hn, hrefused, rfl⟩

/-! ### The registers issuing does not read (R266, D9) -/

/-- Other values in BLOCK_LEN and BLK, with other validity bits. -/
def State.withBlockOperands (s : State) (len : Word) (blk : Words16) (w : Bool) (wb : Vector Bool 16) : State :=
  { s with
    regs := { s.regs with blockLen := len, blk := blk }
    written := { s.written with blockLen := w, blk := wb } }

/-- The checks of HASH_MANY and its latch are blind to BLOCK_LEN and BLK. -/
theorem startBatch_withBlockOperands {inc : Bool} {flags fs fe : Byte} {s t : State} (len : Word) (blk : Words16)
    (w : Bool) (wb : Vector Bool 16) (h : startBatch inc flags fs fe s = .next t) :
    startBatch inc flags fs fe (s.withBlockOperands len blk w wb) = .next (t.withBlockOperands len blk w wb) := by
  unfold startBatch at h
  split at h
  · cases h
  · next hw =>
    split at h
    · next hb =>
      cases h
      exact (if_neg hw).trans (if_pos hb)
    · next hb =>
      split at h
      · cases h
      · next ho =>
        cases h
        exact (if_neg hw).trans ((if_neg hb).trans (if_neg ho))

/-- Settles O40: a dropped request sets DROP, and the checks and the latch do not see the two registers. -/
theorem hashManyIgnoresBlockLenAndBlk : Obligations.HashManyIgnoresBlockLenAndBlk := by
  unfold Obligations.HashManyIgnoresBlockLenAndBlk
  intro s t inc flags fs fe len blk w wb h
  rcases request_next h with ⟨hb, rfl⟩ | ⟨hb, h⟩
  · exact request_of_busy (s := s.withBlockOperands len blk w wb) hb
  · exact (request_of_idle (s := s.withBlockOperands len blk w wb) hb).trans (startBatch_withBlockOperands len blk w wb h)

/-! ### The digest of the shortest inputs (R274) -/

/-- R267: the only block of an input gets both extra flags. -/
theorem blockFlags_only (flags fs fe : Byte) : blockFlags flags fs fe 0#32 1#32 = flags ||| fs ||| fe := rfl

/-- R267: the first of two blocks. -/
theorem blockFlags_first_of_two (flags fs fe : Byte) : blockFlags flags fs fe 0#32 2#32 = flags ||| fs := by
  simp [blockFlags]

/-- R267: the second of two blocks. -/
theorem blockFlags_second_of_two (flags fs fe : Byte) : blockFlags flags fs fe 1#32 2#32 = flags ||| fe := by
  simp [blockFlags]

/-- Settles O43: the one block is compressed from the key, with both extra flags. -/
theorem singleBlockDigestIsOneCompression : Obligations.SingleBlockDigestIsOneCompression := by
  unfold Obligations.SingleBlockDigestIsOneCompression
  intro s i hb
  have hlen : s.job.blocks.toNat = 1 := by rw [hb]; rfl
  rw [State.inputDigest, hlen]
  simp only [State.inputCv, hb, blockFlags_only]

/-- Settles O44: the first block is compressed from the key, the second from what the first gives. -/
theorem twoBlockDigestIsTwoChainedCompressions : Obligations.TwoBlockDigestIsTwoChainedCompressions := by
  unfold Obligations.TwoBlockDigestIsTwoChainedCompressions
  intro s i hb
  have hlen : s.job.blocks.toNat = 2 := by rw [hb]; rfl
  rw [State.inputDigest, hlen]
  simp only [State.inputCv, hb, blockFlags_first_of_two, blockFlags_second_of_two]

end Sys2Proof.Machine
end

section
/-!
PROOFS. The phases of the batch driver one by one (R262, R264, R267, R268): the byte each step of a loop names, and the state
after the whole phase.
-/

namespace Sys2Proof.Machine

/-- The first steps of a loop: each of its states but the last is one core step before the next. -/
theorem coreRun_loop {f : Nat → State} {s done : State} {N : Nat} (h0 : f 0 = s)
    (h : ∀ n ≤ N, coreStep (f n) = .next (if n < N then f (n + 1) else done)) {n : Nat} (hn : n ≤ N) :
    coreRun n s = .next (f n) := by
  subst h0
  exact coreRun_along (fun m hm => (h m hm.le).trans (by rw [if_pos hm])) n hn

/-- What changed from `s` to a state built on it by new accesses, memory and sequencer. -/
theorem State.eq_of_loop_frame {s t : State} {m : Memory} {a : Accesses} {q : Seq}
    (h : t = ((s.withMem m).withAccesses a).withSeq q) :
    t = { s with seq := t.seq, accesses := t.accesses, mem := t.mem } := by
  subst h
  rfl

section
variable {s : State}

/-- At the start of a byte loop the cursor stands at 0. -/
theorem State.withSeq_cursor_zero (h0 : s.seq.k = 0) : s.withSeq { s.seq with k := Fin.ofNat 64 0 } = s := by
  obtain ⟨_, _, _, _, q, _, _, _, _, _, _⟩ := s
  cases q
  cases h0
  rfl

/-! ### HM_PTR -/

theorem State.ptrAfter_zero (h0 : s.seq.k = 0) : s.ptrAfter 0 = s := State.withSeq_cursor_zero h0

theorem State.ptrAfter_nextAccess (hp : s.seq.phase = .hmPtr) {n : Nat} (hn : n < 64) :
    (s.ptrAfter n).nextAccess = some (tableAddr s.job s.seq.i n, .read) := by
  have hk : n % 64 = n := by omega
  simp [State.nextAccess, State.ptrAfter, hp, hk]

/-- HM_PTR changes the sequencer and the record of accesses alone. -/
theorem State.ptrDone_eq (s : State) :
    s.ptrDone = { s with seq := s.ptrDone.seq, accesses := s.ptrDone.accesses } :=
  (State.eq_of_loop_frame (m := s.mem) (by rw [State.ptrDone]; rfl)).trans (by rw [State.ptrDone_mem])

/-- The pointer is the eight bytes of the table entry (R67). -/
theorem extract_tablePtr (s : State) (i : Word) (n : Fin 8) :
    (s.tablePtr i).extractLsb' (8 * n.val) 8 = s.memByte (tableAddr s.job i n.val) := by
  rw [State.tablePtr, extract_le64]
  simp

/-- Settles O31: the run stands before each of the eight reads in turn, and ends with the pointer in `base`. -/
theorem hmPtrReadsTheTableEntry : Obligations.HmPtrReadsTheTableEntry := by
  unfold Obligations.HmPtrReadsTheTableEntry
  intro s hp h0 h
  have hstep : ∀ n ≤ 7, coreStep (s.ptrAfter n) = .next (if n < 7 then s.ptrAfter (n + 1) else s.ptrDone) :=
    fun n hn => coreStep_ptrAfter hp (by omega) (h n (by omega)).1 (h n (by omega)).2
  refine ⟨fun n hn =>
      ⟨_, coreRun_loop (State.ptrAfter_zero h0) hstep (by omega), State.ptrAfter_nextAccess hp (by omega)⟩,
    s.ptrDone, coreRun_hmPtr hp h0 h, s.ptrDone_eq, by simp, by simp, fun n => ?byte⟩
  case byte => rw [State.ptrDone_seq, State.baseAfter_eight, extract_tablePtr]

/-! ### HM_BLOCK -/

theorem State.bufAfter_zero (s : State) : s.bufAfter 0 = s.seq.buf := by
  ext1 k hk
  simp [State.bufAfter]

theorem State.blockAfter_zero (h0 : s.seq.k = 0) : s.blockAfter 0 = s := by
  rw [State.blockAfter, State.bufAfter_zero]
  exact State.withSeq_cursor_zero h0

theorem State.blockAfter_nextAccess (hp : s.seq.phase = .hmBlock) {n : Nat} (hn : n < 64) :
    (s.blockAfter n).nextAccess = some (blockAddr s.seq.base s.seq.j n, .read) := by
  have hk : n % 64 = n := by omega
  simp [State.nextAccess, State.blockAfter, hp, hk]

/-- HM_BLOCK changes the sequencer and the record of accesses alone. -/
theorem State.blockDone_eq (s : State) :
    s.blockDone = { s with seq := s.blockDone.seq, accesses := s.blockDone.accesses } :=
  (State.eq_of_loop_frame (m := s.mem) (by rw [State.blockDone]; rfl)).trans (by rw [State.blockDone_mem])

/-- The whole buffer comes from the block. -/
theorem State.bufAfter_sixtyFour (s : State) :
    s.bufAfter 64 = Vector.ofFn fun b : Fin 64 => s.memByte (blockAddr s.seq.base s.seq.j b.val) := by
  ext1 k hk
  simp [State.bufAfter]

/-- Settles O32: the run stands before each of the sixty-four reads in turn, and ends with the block in the buffer. -/
theorem hmBlockReadsTheBlock : Obligations.HmBlockReadsTheBlock := by
  unfold Obligations.HmBlockReadsTheBlock
  intro s hp h0 h
  have hstep : ∀ n ≤ 63, coreStep (s.blockAfter n) = .next (if n < 63 then s.blockAfter (n + 1) else s.blockDone) :=
    fun n hn => coreStep_blockAfter hp (by omega) (h n (by omega)).1 (h n (by omega)).2
  refine ⟨fun n hn => ⟨_, coreRun_loop (State.blockAfter_zero h0) hstep (by omega), State.blockAfter_nextAccess hp hn⟩,
    s.blockDone, coreRun_hmBlock hp h0 h, s.blockDone_eq, by simp, by simp, fun b => ?byte⟩
  case byte => simp [State.bufAfter_sixtyFour]

/-! ### HM_MIX -/

/-- The state after HM_MIX: the block is compressed, fed forward, and the next block or HM_WRITE follows (R267). -/
def State.mixDone (s : State) : State :=
  (s.flagged.afterRounds s.flagged.seq.mixInput 7).withSeq
    { s.flagged.seq with
      rnd := 7
      cv := compressFn s.flagged.seq.mixInput
      j := s.seq.j + 1#32
      loaded := false
      phase := if s.seq.j + 1#32 < s.job.blocks then .hmBlock else .hmWrite }

section
variable (s : State)

@[simp] theorem State.mixDone_regs : s.mixDone.regs = s.regs := rfl
@[simp] theorem State.mixDone_written : s.mixDone.written = s.written := rfl
@[simp] theorem State.mixDone_job : s.mixDone.job = s.job := rfl
@[simp] theorem State.mixDone_seq :
    s.mixDone.seq =
      { s.flagged.seq with
        rnd := 7
        cv := compressFn s.flagged.seq.mixInput
        j := s.seq.j + 1#32
        loaded := false
        phase := if s.seq.j + 1#32 < s.job.blocks then .hmBlock else .hmWrite } := rfl
@[simp] theorem State.mixDone_accesses : s.mixDone.accesses = s.accesses := rfl
@[simp] theorem State.mixDone_mem : s.mixDone.mem = s.mem := rfl
@[simp] theorem State.mixDone_refused : s.mixDone.refused = s.refused := rfl

end

/-- The last step of HM_MIX. -/
theorem hmMixStep_of_pipeDone (hd : s.pipeDone = true) :
    hmMixStep s =
      .next (s.flagged.withSeq
        { s.flagged.seq with
          cv := finTrunc s.pipe.grid
          j := s.seq.j + 1#32
          loaded := false
          phase := if s.seq.j + 1#32 < s.job.blocks then .hmBlock else .hmWrite }) := if_pos hd

/-- After seven rounds that step feeds the compression of the block forward. -/
theorem coreStep_mix_afterRounds_seven (hp : s.seq.phase = .hmMix) :
    coreStep (s.flagged.afterRounds s.flagged.seq.mixInput 7) = .next s.mixDone := by
  rw [coreStep_hmMix (by simpa using hp), hmMixStep_of_pipeDone (State.pipeDone_afterRounds_seven ..), State.mixDone,
    ← finTrunc_gridAfter_seven]
  rfl

/-- HM_MIX, whole: the nine steps of R187. -/
theorem coreRun_nine_hmMix (hp : s.seq.phase = .hmMix) (hl : s.seq.loaded = false) :
    coreRun 9 s = .next s.mixDone := by
  rw [coreRun_add_of_next (m := 8) (n := 1) (coreRun_hmMix hp hl le_rfl)]
  exact coreRun_succ_of_next (coreStep_mix_afterRounds_seven hp)

/-- Settles O33: eight steps of the pipeline, and the step that feeds the result forward. -/
theorem hmMixCompressesTheBlock : Obligations.HmMixCompressesTheBlock := by
  unfold Obligations.HmMixCompressesTheBlock
  intro s hp hl
  exact ⟨s.mixDone, coreRun_nine_hmMix hp hl, rfl, rfl, rfl, rfl, rfl, rfl, rfl, rfl⟩

/-! ### HM_WRITE -/

theorem State.writeAfter_zero (h0 : s.seq.k = 0) : s.writeAfter 0 = s := State.withSeq_cursor_zero h0

theorem State.writeAfter_nextAccess (hp : s.seq.phase = .hmWrite) {n : Nat} (hn : n < 64) :
    (s.writeAfter n).nextAccess = some (digestAddr s.job s.seq.i n, .write) := by
  have hk : n % 64 = n := by omega
  simp [State.nextAccess, State.writeAfter, hp, hk]

/-- HM_WRITE changes the sequencer, the record of accesses and memory alone. -/
theorem State.writeDone_eq (s : State) :
    s.writeDone = { s with seq := s.writeDone.seq, accesses := s.writeDone.accesses, mem := s.writeDone.mem } :=
  State.eq_of_loop_frame (by rw [State.writeDone])

/-- A digest byte reads back after HM_WRITE. -/
theorem State.writeDone_memByte_digest (s : State) (n : Fin 32) :
    s.writeDone.memByte (digestAddr s.job s.seq.i n.val) = digestByte s.seq.cv n := by
  have hget := s.digestMem_get le_rfl n.isLt
  simp [State.memByte, hget]

/-- Every other byte reads as before HM_WRITE. -/
theorem State.writeDone_memByte_of_ne (s : State) {a : Addr} (h : ∀ n < 32, a ≠ digestAddr s.job s.seq.i n) :
    s.writeDone.memByte a = s.memByte a := by
  have hget := s.digestMem_get_of_ne 32 (fun n hn e => h n hn (BitVec.eq_of_toNat_eq e))
  simp [State.memByte, hget]

/-- Settles O34: the run stands before each of the thirty-two writes in turn, and ends with the digest in memory. -/
theorem hmWriteWritesTheDigest : Obligations.HmWriteWritesTheDigest := by
  unfold Obligations.HmWriteWritesTheDigest
  intro s hp h0 h
  have hstep : ∀ n ≤ 31, coreStep (s.writeAfter n) = .next (if n < 31 then s.writeAfter (n + 1) else s.writeDone) :=
    fun n hn => coreStep_writeAfter hp (by omega) (h n (by omega)).1 (h n (by omega)).2
  exact ⟨fun n hn =>
      ⟨_, coreRun_loop (State.writeAfter_zero h0) hstep (by omega), State.writeAfter_nextAccess hp (by omega)⟩,
    s.writeDone, coreRun_hmWrite hp h0 h, s.writeDone_eq, s.writeDone_seq, s.writeDone_memByte_digest,
    fun _ ha => s.writeDone_memByte_of_ne ha⟩

end

end Sys2Proof.Machine
end

section
/-!
PROOFS. A whole batch (R260, R270, R271, R355): what holds at every phase boundary of a batch that keeps its contract, one lemma
per phase that it holds again at the next boundary, and the two loops over blocks and inputs.
-/

namespace Sys2Proof.Machine

/-! ### Runs to a condition -/

/-- The next `n` core steps end in a state that satisfies `P`. -/
def State.Reaches (s : State) (n : Nat) (P : State → Prop) : Prop := ∃ t, coreRun n s = .next t ∧ P t

theorem State.Reaches.trans {s : State} {m n : Nat} {P Q : State → Prop} (h : s.Reaches m P)
    (hPQ : ∀ t, P t → t.Reaches n Q) : s.Reaches (m + n) Q := by
  obtain ⟨t, hrun, ht⟩ := h
  obtain ⟨u, hrun', hu⟩ := hPQ t ht
  exact ⟨u, (coreRun_add_of_next hrun).trans hrun', hu⟩

/-- A loop of `N` rounds, each of `c` core steps. -/
theorem reaches_loop {P : Nat → State → Prop} {c N : Nat}
    (hround : ∀ n < N, ∀ s, P n s → s.Reaches c (P (n + 1))) {s : State} (h : P 0 s) :
    s.Reaches (N * c) (P N) := by
  induction N with
  | zero => exact ⟨s, by rw [Nat.zero_mul, coreRun_zero], h⟩
  | succ N ih =>
    rw [Nat.succ_mul]
    exact (ih fun n hn => hround n (by omega)).trans (hround N (by omega))

/-! ### Counts as words -/

theorem ofNat_lt_iff {n : Nat} {w : Word} (h : n ≤ w.toNat) : BitVec.ofNat 32 n < w ↔ n < w.toNat := by
  have hw := w.isLt
  rw [BitVec.lt_def, BitVec.toNat_ofNat, Nat.mod_eq_of_lt (by omega)]

theorem ofNat_succ (n : Nat) : BitVec.ofNat 32 n + 1#32 = BitVec.ofNat 32 (n + 1) := (BitVec.ofNat_add n 1).symm

/-- An index below its successor is the index itself or below it. -/
theorem eq_or_lt_of_lt_succ {i k n : Word} (hk : k < n) (h : i < k + 1#32) : i = k ∨ i < k := by
  have hs := word_succ_toNat hk
  bv_omega

/-! ### The phase boundaries -/

/-- What holds in `u` at every phase boundary of the batch accepted in `t`: nothing but the driver's own state and the output
buffer has changed, the counter is the input's, every access was one of the batch's, and the digests of the inputs behind are
in place. -/
structure Underway (t u : State) : Prop where
  regs : u.regs = t.regs
  written : u.written = t.written
  job : u.job = t.job
  refused : u.refused = t.refused
  cursor : u.seq.k = 0
  unloaded : u.seq.loaded = false
  counter : u.seq.ctr = inputCounter t.job u.seq.i
  reads : ∀ a : Addr, a.toNat ∈ u.accesses.read → t.BatchReadsByte a
  writes : ∀ a : Addr, a.toNat ∈ u.accesses.written → t.BatchWritesByte a
  digests : ∀ (i : Word) (b : Fin 32), i < u.seq.i → u.memByte (digestAddr t.job i b.val) = digestByte (t.inputDigest i) b
  others : ∀ a : Addr, ¬t.BatchWritesByte a → u.memByte a = t.memByte a

/-- Before input `n`, or before the completion. -/
structure AtInput (t : State) (n : Nat) (u : State) : Prop extends Underway t u where
  input : u.seq.i = BitVec.ofNat 32 n
  phase : u.seq.phase = if n < t.job.numInputs.toNat then .hmPtr else .hmNext

/-- Before block `m` of input `n`, or before its digest is written. -/
structure AtBlock (t : State) (n m : Nat) (u : State) : Prop extends Underway t u where
  input : u.seq.i = BitVec.ofNat 32 n
  block : u.seq.j = BitVec.ofNat 32 m
  base : u.seq.base = t.tablePtr u.seq.i
  cv : u.seq.cv = t.inputCv u.seq.i m
  phase : u.seq.phase = if m < t.job.blocks.toNat then .hmBlock else .hmWrite

section
variable {t u : State}

/-! ### What a phase leaves as it was -/

/-- A run of reads of the batch's bytes, with nothing else changed, keeps what holds at a phase boundary. -/
theorem Underway.after_reads {v : State} (h : Underway t u) (f : Nat → Addr) (n : Nat)
    (hf : ∀ m < n, t.BatchReadsByte (f m)) (hacc : v.accesses = u.accesses.afterReads f n)
    (hsame : v.regs = u.regs ∧ v.written = u.written ∧ v.job = u.job ∧ v.refused = u.refused ∧ v.mem = u.mem)
    (hk : v.seq.k = 0) (hl : v.seq.loaded = false) (hi : v.seq.i = u.seq.i) (hctr : v.seq.ctr = u.seq.ctr) :
    Underway t v := by
  obtain ⟨hregs, hwritten, hjob, hrefused, hmem⟩ := hsame
  exact
    { regs := hregs.trans h.regs
      written := hwritten.trans h.written
      job := hjob.trans h.job
      refused := hrefused.trans h.refused
      cursor := hk
      unloaded := hl
      counter := by rw [hctr, hi, h.counter]
      reads := by
        intro a ha
        rw [hacc, Accesses.mem_afterReads] at ha
        rcases ha with ⟨m, hm, e⟩ | ha
        · rw [BitVec.eq_of_toNat_eq e]
          exact hf m hm
        · exact h.reads a ha
      writes := by
        rw [hacc, Accesses.afterReads_written]
        exact h.writes
      digests := fun i b hlt => (State.memByte_congr hmem _).trans (h.digests i b (hi ▸ hlt))
      others := fun a ha => (State.memByte_congr hmem a).trans (h.others a ha) }

/-- HM_WRITE puts the digest of the input in place, and leaves those before it and all else alone. -/
theorem Underway.after_digest (h : Underway t u) (hi : u.seq.i < t.job.numInputs)
    (hcv : u.seq.cv = t.inputDigest u.seq.i) :
    (∀ (i : Word) (b : Fin 32), i < u.seq.i + 1#32 →
      u.writeDone.memByte (digestAddr t.job i b.val) = digestByte (t.inputDigest i) b) ∧
    ∀ a : Addr, ¬t.BatchWritesByte a → u.writeDone.memByte a = t.memByte a := by
  refine ⟨fun i b hlt => ?digests, fun a ha => ?others⟩
  case digests =>
    rcases eq_or_lt_of_lt_succ hi hlt with rfl | hlt
    · rw [← h.job, State.writeDone_memByte_digest, hcv]
    · rw [← h.digests i b hlt]
      refine State.writeDone_memByte_of_ne u fun k hk e => ?_
      rw [h.job] at e
      exact absurd (digestAddr_inj b.isLt hk e).1 (by bv_omega)
  case others =>
    rw [← h.others a ha]
    refine State.writeDone_memByte_of_ne u fun k hk e => ha ⟨u.seq.i, k, hi, hk, ?_⟩
    rw [e, h.job]

section
variable (hc : t.BatchContract)
include hc

/-! ### The contract at each access -/

/-- A byte the batch reads goes through. -/
theorem Underway.readable (h : Underway t u) {a : Addr} (ha : t.BatchReadsByte a) :
    u.admits a .read = true ∧ a.toNat ∉ u.accesses.written := by
  obtain ⟨hread, -, hdisjoint⟩ := hc
  exact ⟨(State.admits_congr h.refused a .read).trans (hread a ha), fun hw => hdisjoint a ⟨ha, h.writes a hw⟩⟩

/-- A byte the batch writes goes through. -/
theorem Underway.writable (h : Underway t u) {a : Addr} (ha : t.BatchWritesByte a) :
    u.admits a .write = true ∧ a.toNat ∉ u.accesses.read := by
  obtain ⟨-, hwrite, hdisjoint⟩ := hc
  exact ⟨(State.admits_congr h.refused a .write).trans (hwrite a ha), fun hr => hdisjoint a ⟨h.reads a hr, ha⟩⟩

/-- A byte the batch reads still holds what it held at acceptance. -/
theorem Underway.memByte_of_reads (h : Underway t u) {a : Addr} (ha : t.BatchReadsByte a) : u.memByte a = t.memByte a := by
  obtain ⟨-, -, hdisjoint⟩ := hc
  exact h.others a fun hw => hdisjoint a ⟨ha, hw⟩

/-! ### One input -/

/-- HM_PTR takes an input to its first block. -/
theorem reaches_firstBlock (hb : t.job.blocks ≠ 0#32) {n : Nat} (hn : n < t.job.numInputs.toNat) (h : AtInput t n u) :
    u.Reaches 8 (AtBlock t n 0) := by
  have hi : u.seq.i < t.job.numInputs := by rw [h.input, ofNat_lt_iff hn.le]; exact hn
  have hp : u.seq.phase = .hmPtr := by rw [h.phase, if_pos hn]
  have hentry : ∀ k < 8, t.BatchReadsByte (tableAddr u.job u.seq.i k) := by
    rw [h.job]
    exact fun k hk => .inl ⟨u.seq.i, k, hi, hk, rfl⟩
  have hptr : u.tablePtr u.seq.i = t.tablePtr u.seq.i := by
    simp only [State.tablePtr, ← h.job, fun k : Fin 8 => h.memByte_of_reads hc (hentry k k.isLt)]
  have hpos : 0 < t.job.blocks.toNat := word_pos_of_ne_zero hb
  refine ⟨u.ptrDone, coreRun_hmPtr hp h.cursor fun k hk => h.readable hc (hentry k hk), ?_⟩
  exact
    { h.after_reads _ 8 hentry u.ptrDone_accesses (by simp) (by simp) (by simpa using h.unloaded) (by simp) (by simp) with
      input := by simpa using h.input
      block := by simp
      base := by simp [State.baseAfter_eight, hptr]
      cv := by simp [State.inputCv, h.job]
      phase := by simp [hpos] }

/-- HM_BLOCK and HM_MIX take an input from one block to the next. -/
theorem reaches_nextBlock {n m : Nat} (hn : n < t.job.numInputs.toNat) (hm : m < t.job.blocks.toNat)
    (h : AtBlock t n m u) : u.Reaches (64 + 9) (AtBlock t n (m + 1)) := by
  have hi : u.seq.i < t.job.numInputs := by rw [h.input, ofNat_lt_iff hn.le]; exact hn
  have hj : u.seq.j < t.job.blocks := by rw [h.block, ofNat_lt_iff hm.le]; exact hm
  have hp : u.seq.phase = .hmBlock := by rw [h.phase, if_pos hm]
  have hbytes : ∀ b < 64, t.BatchReadsByte (blockAddr u.seq.base u.seq.j b) := by
    rw [h.base]
    exact fun b hb => .inr ⟨u.seq.i, u.seq.j, b, hi, hj, hb, rfl⟩
  have hbuf : u.bufAfter 64 = t.inputBlock u.seq.i u.seq.j := by
    simp only [State.bufAfter_sixtyFour, State.inputBlock, ← h.base,
      fun b : Fin 64 => h.memByte_of_reads hc (hbytes b b.isLt)]
  have hmix : u.blockDone.mixDone.seq.cv = t.inputCv u.seq.i (m + 1) := by
    simp [State.inputCv, Seq.mixInput, State.currentFlags, hbuf, h.cv, h.counter, h.job, h.block]
  have hblock := coreRun_hmBlock hp h.cursor fun b hb => h.readable hc (hbytes b hb)
  have hrun := (coreRun_add_of_next (n := 9) hblock).trans
    (coreRun_nine_hmMix (s := u.blockDone) (by simp) (by simpa using h.unloaded))
  refine ⟨u.blockDone.mixDone, hrun, ?_⟩
  exact
    { h.after_reads _ 64 hbytes (by simp) (by simp) (by simp) (by simp) (by simp) (by simp) with
      input := by simpa using h.input
      block := by simp [h.block, ofNat_succ]
      base := by simpa using h.base
      cv := by simpa using hmix
      phase := by simp [h.block, h.job, ofNat_succ, ofNat_lt_iff hm] }

/-- HM_WRITE and HM_NEXT take an input from its last block to the next input. -/
theorem reaches_nextInput {n : Nat} (hn : n < t.job.numInputs.toNat) (h : AtBlock t n t.job.blocks.toNat u) :
    u.Reaches (32 + 1) (AtInput t (n + 1)) := by
  have hi : u.seq.i < t.job.numInputs := by rw [h.input, ofNat_lt_iff hn.le]; exact hn
  have hp : u.seq.phase = .hmWrite := by rw [h.phase, if_neg (lt_irrefl _)]
  have hbytes : ∀ b < 32, t.BatchWritesByte (digestAddr u.job u.seq.i b) := by
    rw [h.job]
    exact fun b hb => ⟨u.seq.i, b, hi, hb, rfl⟩
  have hwrite := coreRun_hmWrite hp h.cursor fun b hb => h.writable hc (hbytes b hb)
  have hnext := coreStep_hmNext_of_lt (s := u.writeDone) (by simp) (by simpa [h.job] using hi)
  obtain ⟨hdigests, hothers⟩ := h.after_digest hi h.cv
  refine ⟨_, (coreRun_add_of_next (n := 1) hwrite).trans (coreRun_succ_of_next hnext), ?_⟩
  exact
    { regs := by simp [h.regs]
      written := by simp [h.written]
      job := by simp [h.job]
      refused := by simp [h.refused]
      cursor := by simp
      unloaded := by simp [h.unloaded]
      counter := by simp [inputCounter_succ t.job hi, h.counter, h.job]
      reads := by simpa using h.reads
      writes := by
        intro a ha
        simp only [State.withSeq_accesses, State.writeDone_accesses, Accesses.mem_afterWrites] at ha
        rcases ha with ⟨m, hm, e⟩ | ha
        · rw [BitVec.eq_of_toNat_eq e]
          exact hbytes m hm
        · exact h.writes a ha
      digests := fun i b hlt => hdigests i b (by simpa using hlt)
      others := hothers
      input := by simp [h.input, ofNat_succ]
      phase := by simp [h.input, h.job, ofNat_succ, ofNat_lt_iff hn] }

/-- A whole input. -/
theorem reaches_input (hb : t.job.blocks ≠ 0#32) {n : Nat} (hn : n < t.job.numInputs.toNat) (h : AtInput t n u) :
    u.Reaches (8 + t.job.blocks.toNat * (64 + 9) + 32 + 1) (AtInput t (n + 1)) :=
  ((reaches_firstBlock hc hb hn h).trans fun _ hfirst =>
    reaches_loop (fun _ hm _ hblock => reaches_nextBlock hc hn hm hblock) hfirst).trans fun _ hlast =>
      reaches_nextInput hc hn hlast

/-- R260: input by input to the completion, which is a step of its own. -/
theorem reaches_completion (hb : t.job.blocks ≠ 0#32) (h : AtInput t 0 t) :
    t.Reaches (batchSteps t.job.numInputs t.job.blocks) fun v =>
      ∃ u, AtInput t t.job.numInputs.toNat u ∧ v = u.complete := by
  refine (reaches_loop (fun _ hn _ hinput => reaches_input hc hb hn hinput) h).trans fun u hu => ?_
  have hend : ¬u.seq.i < u.job.numInputs := by
    rw [hu.input, hu.job, ofNat_lt_iff le_rfl]
    exact lt_irrefl _
  have hlast := coreStep_hmNext_of_not_lt (by rw [hu.phase, if_neg (lt_irrefl _)]) hend
  exact ⟨_, coreRun_succ_of_next hlast, u, hu, rfl⟩

end

end

/-- Acceptance starts a batch at its first input (R303, R263). -/
theorem atInput_accept (s : State) (job : Job) :
    AtInput (s.accept job (if job.numInputs = 0#32 then .hmNext else .hmPtr)) 0
      (s.accept job (if job.numInputs = 0#32 then .hmNext else .hmPtr)) where
  regs := rfl
  written := rfl
  job := rfl
  refused := rfl
  cursor := rfl
  unloaded := rfl
  counter := (inputCounter_zero job).symm
  reads := by simp [Accesses.empty]
  writes := by simp [Accesses.empty]
  digests := fun i b hi => absurd hi (by simp)
  others := fun _ _ => rfl
  input := rfl
  phase := by
    by_cases hn : job.numInputs = 0#32
    · simp [hn]
    · have hpos : 0 < job.numInputs.toNat := word_pos_of_ne_zero hn
      simp [hn, hpos]

/-- Settles O41: what holds at every phase boundary holds before the completion, with every input behind. -/
theorem hashManyWritesEveryDigest : Obligations.HashManyWritesEveryDigest := by
  unfold Obligations.HashManyWritesEveryDigest
  intro s inc flags fs fe hready
  have ⟨_, _, hblocks⟩ := hready
  refine ⟨_, exec_hashMany_of_ready hready inc flags fs fe, fun hc => ?_⟩
  obtain ⟨_, hrun, u, hu, rfl⟩ := reaches_completion hc hblocks (atInput_accept s (latchBatch inc flags fs fe s))
  refine ⟨u.complete, hrun, rfl, ?regs, ?written, fun i b hi => ?digest, fun a ha => ?other⟩
  case regs =>
    rw [State.complete_regs, hu.regs]
    rfl
  case written => exact hu.written
  case digest => exact hu.digests i b (by rwa [hu.input, BitVec.ofNat_toNat, BitVec.setWidth_eq])
  case other => exact hu.others a ha

end Sys2Proof.Machine
end

section
/-!
PROOFS. The STATUS invariants and the agreement of phase and BUSY (R300, R313, R319): each change of STATUS the spec lists
keeps the invariants, and the changes that set or clear BUSY are those that leave or enter IDLE.
-/

namespace Sys2Proof.Machine

/-! ### The changes of STATUS -/

section
variable {st : Status}

theorem Status.Ok.cause_of_busy (h : st.Ok) (hb : st.busy = true) : st.err = false ∧ st.cause = .none := by
  obtain ⟨hbusy, -, hcause⟩ := h
  have herr := (hbusy hb).2
  exact ⟨herr, hcause herr⟩

theorem Status.Ok.dropped (h : st.Ok) : st.dropped.Ok := h

/-- R23: a write clears DONE and ERR or leaves them, and CAUSE is cleared with ERR. -/
theorem Status.Ok.clear (h : st.Ok) (d : Word) : (st.clear d).Ok := by
  obtain ⟨hbusy, hboth, hcause⟩ := h
  have hdone : (st.clear d).done = true → st.done = true := by simp [Status.clear]
  have herr : (st.clear d).err = true → st.err = true := by simp [Status.clear]
  refine ⟨fun hb => ?busy, fun ⟨hd, he⟩ => hboth ⟨hdone hd, herr he⟩, ?cause⟩
  case busy =>
    obtain ⟨hd, he⟩ := hbusy hb
    simp [Status.clear, hd, he]
  case cause =>
    by_cases hw : d.getLsbD 2 = true
    · exact fun _ => if_pos hw
    · simp only [Status.clear, if_neg hw]
      exact hcause

/-- R302: only an idle core rejects. -/
theorem Status.ok_rejected (hb : st.busy = false) (c : Cause) : (st.rejected c).Ok := by
  simp [Status.Ok, Status.rejected, hb]

theorem Status.ok_accepted (st : Status) : st.accepted.Ok := by
  simp [Status.Ok, Status.accepted]

theorem Status.ok_aborted (st : Status) : st.aborted.Ok := by
  simp [Status.Ok, Status.aborted]

/-- A busy core has neither ERR nor a cause to clear when it completes. -/
theorem Status.Ok.completed (h : st.Ok) (hb : st.busy = true) : st.completed.Ok := by
  obtain ⟨herr, hcause⟩ := h.cause_of_busy hb
  simp [Status.Ok, Status.completed, herr, hcause]

end

/-! ### The invariant -/

/-- The STATUS invariants hold, and the phase agrees with BUSY. -/
def State.StatusSound (s : State) : Prop := s.regs.status.Ok ∧ s.PhaseAgrees

section
variable {s t : State}

/-- Soundness depends on STATUS and the sequencer alone. -/
theorem State.StatusSound.congr (hs : s.StatusSound) (hst : t.regs.status = s.regs.status) (hq : t.seq = s.seq) :
    t.StatusSound := by
  rwa [State.StatusSound, State.PhaseAgrees, hst, hq]

/-- STATUS may change where it keeps BUSY and its own invariants. -/
theorem State.StatusSound.of_status (hs : s.StatusSound) (hok : t.regs.status.Ok)
    (hb : t.regs.status.busy = s.regs.status.busy) (hq : t.seq = s.seq) : t.StatusSound := by
  refine ⟨hok, ?_⟩
  rw [State.PhaseAgrees, hb, hq]
  exact hs.2

theorem State.StatusSound.busy (hs : s.StatusSound) (hp : s.seq.phase ≠ .idle) : s.regs.status.busy = true := by
  simpa using mt hs.2.2 hp

/-- A step from one running phase to another leaves STATUS alone. -/
theorem State.StatusSound.running (hs : s.StatusSound) (hp : s.seq.phase ≠ .idle) (hp' : t.seq.phase ≠ .idle)
    (hst : t.regs.status = s.regs.status) : t.StatusSound := by
  refine ⟨by rw [hst]; exact hs.1, iff_of_false hp' ?_⟩
  rw [hst, hs.busy hp]
  decide

/-- A step that ends a command with DONE (R224, R230, R271). -/
theorem State.StatusSound.completed (hs : s.StatusSound) (hp : s.seq.phase ≠ .idle) (hp' : t.seq.phase = .idle)
    (hst : t.regs.status = s.regs.status.completed) : t.StatusSound := by
  refine ⟨by rw [hst]; exact hs.1.completed (hs.busy hp), iff_of_true hp' ?_⟩
  rw [hst]
  rfl

theorem statusSound_abortMem (s : State) (a : Addr) : (s.abortMem a).StatusSound :=
  ⟨Status.ok_aborted _, iff_of_true rfl rfl⟩

theorem statusSound_accept (s : State) (job : Job) {ph : Phase} (hp : ph ≠ .idle) : (s.accept job ph).StatusSound :=
  ⟨Status.ok_accepted _, iff_of_false hp (by simp [Status.accepted])⟩

theorem State.StatusSound.reject (hs : s.StatusSound) (hb : s.regs.status.busy = false) (c : Cause) :
    (s.reject c).StatusSound :=
  hs.of_status (Status.ok_rejected hb c) rfl rfl

theorem State.StatusSound.dropWrite (hs : s.StatusSound) : s.dropWrite.StatusSound :=
  hs.of_status hs.1.dropped rfl rfl

/-- R340: reset clears STATUS and enters IDLE, whatever stood before it. -/
theorem statusSound_hardReset (s : State) : s.hardReset.StatusSound :=
  ⟨show Regs.reset.status.Ok by decide, iff_of_true rfl rfl⟩

/-- A core step keeps to the running phases, or ends the command with DONE or with an abort. -/
theorem CoreEffect.keeps_statusSound (hs : s.StatusSound) (h : CoreEffect s t) : t.StatusSound := by
  cases h with
  | idle => exact hs
  | abort => exact statusSound_abortMem s _
  | compressCommit hp | xofCommit hp | complete hp =>
    exact hs.completed (by simp [hp]) (by simp) (by simp)
  | compressPipe hp | xofPipe hp | ptrByte hp | blockByte hp | mixPipe hp | writeByte hp =>
    exact hs.running (by simp [hp]) (by simp [hp]) (by simp)
  | ptrLast hp | blockLast hp | mixBlock hp | mixLast hp | writeLast hp =>
    exact hs.running (by simp [hp]) (by simp) rfl
  | nextInput hp =>
    refine hs.running (by simp [hp]) ?_ rfl
    rw [State.withSeq_seq]
    split <;> simp

/-- Of the other agents, an accepted command alone sets BUSY, and leaves IDLE with it. -/
theorem HostEffect.keeps_statusSound (hs : s.StatusSound) (h : HostEffect s t) : t.StatusSound := by
  cases h with
  | command i h =>
    rcases exec_next h with ⟨_, rfl⟩ | ⟨hb, c, rfl⟩ | ⟨_, job, ph, hp, rfl⟩
    · exact hs.dropWrite
    · exact hs.reject hb c
    · exact statusSound_accept s job hp
  | rejected c hb => exact hs.reject hb c
  | dropped => exact hs.dropWrite
  | statusWrite d => exact hs.of_status (hs.1.clear d) rfl rfl
  | stored r d h => exact hs.congr (by simp) (by simp)
  | ctrlWrite | answered | polled | hostStore | hostRead => exact hs.congr rfl rfl

end

/-- Settles O46: turn by turn; every change of STATUS keeps its invariants, and BUSY changes with the phase. -/
theorem stepKeepsStatusInvariants : Obligations.StepKeepsStatusInvariants := by
  unfold Obligations.StepKeepsStatusInvariants
  intro s t hok hphase h
  refine step_keeps (Inv := State.StatusSound) (fun _ _ hs => hs.congr rfl rfl) ?_ ⟨hok, hphase⟩ h
  intro s t hs h
  cases h with
  | core h => exact (coreStep_next h).keeps_statusSound hs
  | hardReset => exact statusSound_hardReset s
  | host h => exact h.keeps_statusSound hs

/-! ### Leaving IDLE (R319) -/

theorem State.writeReg_seq (s : State) (r : WinReg) (d : Word) : (s.writeReg r d).seq = s.seq := by
  unfold State.writeReg
  split
  · rfl
  · split
    · rfl
    · rfl
    · exact State.storeReg_seq ..

section
variable {s t : State}

/-- A CMD write is a command, or leaves the sequencer alone. -/
theorem writeCmd_commands_or_keeps_seq {d : Word} (h : writeCmd d s = .next t) :
    (∃ i, decode d = .command i ∧ exec i s = .next t) ∨ t.seq = s.seq := by
  cases hd : decode d with
  | command i => exact .inl ⟨i, rfl, (writeCmd_of_command hd).symm.trans h⟩
  | rejected e =>
    simp only [writeCmd, hd] at h
    rcases request_next h with ⟨_, rfl⟩ | ⟨_, h⟩
    · exact .inr rfl
    · cases h
      exact .inr rfl

/-- A register write is a command, written to CMD, or leaves the sequencer alone. -/
theorem portWrite_commands_or_keeps_seq {width : Nat} {off : BitVec 8} {d : Word}
    (h : portWrite width off d s = .next t) :
    (width = 32 ∧ off = 0x00#8 ∧ ∃ i, decode d = .command i ∧ exec i s = .next t) ∨ t.seq = s.seq := by
  unfold portWrite at h
  split at h
  · next hw =>
    obtain ⟨hwidth, halign⟩ := wordAccess_iff.1 hw
    split at h
    · next hcmd =>
      have h0 : off.toNat / 4 = 0 := winRegOf_eq_cmd hcmd
      have hoff : off = 0x00#8 := BitVec.eq_of_toNat_eq (by simp; omega)
      exact (writeCmd_commands_or_keeps_seq h).imp_left fun hi => ⟨hwidth, hoff, hi⟩
    · cases h
      exact .inr (State.writeReg_seq ..)
  · cases h

/-- From IDLE, a turn is a command, written to CMD, or ends in IDLE. -/
theorem runTurn_commands_or_idle {τ : Turn} (hp : s.seq.phase = .idle) (h : runTurn τ s = .next t) :
    (∃ d i, τ = .regWrite 32 0x00#8 d ∧ decode d = .command i ∧ exec i s = .next t) ∨ t.seq.phase = .idle := by
  cases τ with
  | core =>
    cases (coreStep_idle hp).symm.trans h
    exact .inr hp
  | reset =>
    cases h
    exact .inr rfl
  | regWrite width off d =>
    rcases portWrite_commands_or_keeps_seq h with ⟨rfl, rfl, i, hi⟩ | hq
    · exact .inl ⟨d, i, rfl, hi⟩
    · exact .inr (by rw [hq, hp])
  | regRead width off =>
    obtain ⟨_, _, rfl⟩ := portRead_next h
    exact .inr hp
  | memWrite a b =>
    simp only [runTurn, hostMemWrite] at h
    split at h <;> cases h
    exact .inr hp
  | memRead a =>
    simp only [runTurn, hostMemRead] at h
    split at h <;> cases h
    exact .inr hp
  | waitIdle =>
    cases h
    split <;> exact .inr hp

/-- A command that leaves IDLE is accepted. -/
theorem exec_busy_of_leaves_idle {i : Instr} (hp : s.seq.phase = .idle) (h : exec i s = .next t)
    (ht : t.seq.phase ≠ .idle) : t.regs.status.busy = true := by
  rcases exec_next h with ⟨_, rfl⟩ | ⟨_, c, rfl⟩ | ⟨_, job, ph, _, rfl⟩
  · exact absurd hp ht
  · exact absurd hp ht
  · rfl

end

/-- Settles O52: with no turn pending an idle core stays idle, and of the turns only a command leaves IDLE. -/
theorem idleIsLeftOnlyByACommand : Obligations.IdleIsLeftOnlyByACommand := by
  unfold Obligations.IdleIsLeftOnlyByACommand
  intro s t hp h ht
  cases hs : s.turns with
  | nil =>
    cases (coreStep_idle hp).symm.trans ((step_of_turns_nil hs).symm.trans h)
    exact absurd hp ht
  | cons τ rest =>
    have hturn : runTurn τ (s.withTurns rest) = .next t := (step_of_turns_cons hs).symm.trans h
    have hp' : (s.withTurns rest).seq.phase = .idle := hp
    rcases runTurn_commands_or_idle hp' hturn with ⟨d, i, rfl, hd, hexec⟩ | hidle
    · exact ⟨d, i, rest, rfl, hd, exec_busy_of_leaves_idle hp' hexec ht⟩
    · exact absurd hidle ht

end Sys2Proof.Machine
end

section
/-!
PROOFS. The CMD write at an idle core (R301 to R303): the checks in their order, acceptance, and the frame of both.
-/

namespace Sys2Proof.Machine

/-! ### The checks of the word -/

/-- R98: RSV is not zero, or a HASH_MANY field is not zero under OP 0 or 1. -/
def ReservedWord (d : Word) : Prop :=
  fieldRsv d ≠ 0#5 ∨
    ((fieldOp d = 0#2 ∨ fieldOp d = 1#2) ∧
      (fieldInc d ≠ 0#1 ∨ fieldFlagsStart d ≠ 0#8 ∨ fieldFlagsEnd d ≠ 0#8))

section
variable {d : Word}

theorem batchFieldsZero_eq_false_iff :
    batchFieldsZero d = false ↔ fieldInc d ≠ 0#1 ∨ fieldFlagsStart d ≠ 0#8 ∨ fieldFlagsEnd d ≠ 0#8 := by
  rw [← Bool.not_eq_true, batchFieldsZero_iff, not_and_or, not_and_or]

theorem decode_of_illegalOp (h : fieldOp d = 3#2) : decode d = .rejected .illegalOp := if_pos h

theorem decode_of_reserved (hop : fieldOp d ≠ 3#2) (h : ReservedWord d) : decode d = .rejected .reservedField := by
  unfold decode
  by_cases hrsv : fieldRsv d = 0#5
  · obtain ⟨hop01, hfields⟩ := h.resolve_left (not_not.2 hrsv)
    have hop2 : fieldOp d ≠ 2#2 := by rcases hop01 with h | h <;> simp [h]
    simp [hop, hrsv, hop2, batchFieldsZero_eq_false_iff.2 hfields]
  · simp [hop, hrsv]

theorem fieldRsv_of_not_reserved (h : ¬ReservedWord d) : fieldRsv d = 0#5 := not_not.1 (not_or.1 h).1

theorem batchFieldsZero_of_not_reserved (h : ¬ReservedWord d) (hop : fieldOp d = 0#2 ∨ fieldOp d = 1#2) :
    batchFieldsZero d = true := by
  rw [← Bool.not_eq_false, batchFieldsZero_eq_false_iff]
  exact fun hfields => h (.inr ⟨hop, hfields⟩)

/-- A word of OP 2 that passes checks 1 and 2 is HASH_MANY. -/
theorem portWrite_cmd_of_batch {s : State} (hop : fieldOp d = 2#2) (hr : ¬ReservedWord d) :
    ∃ inc, portWrite 32 0x00#8 d s =
      exec (.hashMany inc (fieldFlags d) (fieldFlagsStart d) (fieldFlagsEnd d)) s := by
  have hd : decode d =
      .command (.hashMany (fieldInc d == 1#1) (fieldFlags d) (fieldFlagsStart d) (fieldFlagsEnd d)) :=
    decode_eq_command_iff.2 ⟨hop, fieldRsv_of_not_reserved hr, rfl, bit_eq_ofBool _, rfl, rfl⟩
  exact ⟨_, writeCmd_of_command hd⟩

end

/-! ### The checks of the registers -/

section
variable {s : State} (hb : s.regs.status.busy = false)
include hb

theorem exec_compress_of_idle (f : Byte) : exec (.compress f) s = startCompress .compress .compressRun f s :=
  request_of_idle hb
theorem exec_compressXof_of_idle (f : Byte) : exec (.compressXof f) s = startCompress .compressXof .xofRun f s :=
  request_of_idle hb
theorem exec_hashMany_of_idle (inc : Bool) (f fs fe : Byte) :
    exec (.hashMany inc f fs fe) s = startBatch inc f fs fe s :=
  request_of_idle hb

/-- A word that is no command is rejected with the cause of the check it fails. -/
theorem portWrite_cmd_of_rejected {d : Word} {e : DecodeError} (h : decode d = .rejected e) :
    portWrite 32 0x00#8 d s = .next (s.reject (errorCause e)) :=
  portWrite_cmd.trans (writeCmd_of_rejected_idle h hb)

/-- A word of OP 0 or 1 that passes checks 1 and 2 goes to the checks of a compression. -/
theorem portWrite_cmd_of_compression {d : Word} (hop : fieldOp d = 0#2 ∨ fieldOp d = 1#2) (hr : ¬ReservedWord d) :
    ∃ op ph, portWrite 32 0x00#8 d s = startCompress op ph (fieldFlags d) s := by
  have hrsv := fieldRsv_of_not_reserved hr
  have hzero := batchFieldsZero_of_not_reserved hr hop
  rcases hop with hop | hop
  · have hd : decode d = .command (.compress (fieldFlags d)) := decode_eq_command_iff.2 ⟨hop, hrsv, rfl, hzero⟩
    exact ⟨_, _, (writeCmd_of_command hd).trans (exec_compress_of_idle hb _)⟩
  · have hd : decode d = .command (.compressXof (fieldFlags d)) := decode_eq_command_iff.2 ⟨hop, hrsv, rfl, hzero⟩
    exact ⟨_, _, (writeCmd_of_command hd).trans (exec_compressXof_of_idle hb _)⟩

end

section
variable {s : State} {op : Op} {ph : Phase} {f : Byte}

theorem startCompress_of_unwritten_blockLen (h : s.written.blockLen = false) :
    startCompress op ph f s = .fault .uninitRead := if_pos h

theorem startCompress_of_long_block (hw : s.written.blockLen = true) (h : 64#32 < s.regs.blockLen) :
    startCompress op ph f s = .next (s.reject .badBlockLen) := by
  simp [startCompress, hw, h]

end

theorem exec_hashMany_of_unwritten_blocks {s : State} {inc : Bool} {f fs fe : Byte} (hb : s.regs.status.busy = false)
    (h : s.written.blocks = false) : exec (.hashMany inc f fs fe) s = .fault .uninitRead :=
  (exec_hashMany_of_idle hb inc f fs fe).trans (if_pos h)

/-- Settles O5: the decoder makes checks 1 and 2, and the command it answers makes check 3 or 4. -/
theorem firstFailingCheckRejects : Obligations.FirstFailingCheckRejects := by
  unfold Obligations.FirstFailingCheckRejects
  intro s d hb rejectedState reserved
  refine ⟨?illegalOp, ?reservedField, fun hop hr => ?compression, fun hop hr => ?batch⟩
  case illegalOp => exact fun hop => portWrite_cmd_of_rejected hb (decode_of_illegalOp hop)
  case reservedField => exact fun hop hr => portWrite_cmd_of_rejected hb (decode_of_reserved hop hr)
  case compression =>
    obtain ⟨op, ph, hstart⟩ := portWrite_cmd_of_compression hb hop hr
    rw [hstart]
    exact ⟨startCompress_of_unwritten_blockLen, startCompress_of_long_block⟩
  case batch =>
    obtain ⟨inc, hstart⟩ := portWrite_cmd_of_batch (s := s) hop hr
    rw [hstart]
    exact ⟨exec_hashMany_of_unwritten_blocks hb, exec_hashMany_of_no_blocks hb⟩

/-! ### Acceptance (R303) -/

/-- Settles O6: with the checks passed, the validity bits of the operands decide between UninitRead and acceptance. -/
theorem acceptanceLatchesTheOperands : Obligations.AcceptanceLatchesTheOperands := by
  unfold Obligations.AcceptanceLatchesTheOperands
  intro s hb busyRegs
  refine ⟨fun _ hlen flags => ⟨fun hw => ?unwritten, fun hw => ?accepted⟩,
    fun _ hblocks inc flags fs fe => ⟨fun hw => ?batchUnwritten, fun hw => ?batchAccepted⟩⟩
  case unwritten =>
    exact ⟨(exec_compress_of_idle hb flags).trans (startCompress_of_unwritten hw fun _ => hlen),
      (exec_compressXof_of_idle hb flags).trans (startCompress_of_unwritten hw fun _ => hlen)⟩
  case accepted =>
    have hready : s.CompressReady := ⟨hb, hw, hlen⟩
    exact ⟨⟨_, _, exec_compress_of_ready hready flags, rfl⟩, ⟨_, _, exec_compressXof_of_ready hready flags, rfl⟩⟩
  case batchUnwritten =>
    exact (exec_hashMany_of_idle hb inc flags fs fe).trans (startBatch_of_unwritten hw fun _ => hblocks)
  case batchAccepted => exact ⟨_, _, exec_hashMany_of_ready ⟨hb, hw, hblocks⟩ inc flags fs fe, rfl⟩

/-! ### The frame of issuing a command -/

/-- Settles O7: a drop, a rejection and an acceptance change STATUS alone of the register window, and no memory. -/
theorem issuingChangesOnlyStatusAndTheJob : Obligations.IssuingChangesOnlyStatusAndTheJob := by
  unfold Obligations.IssuingChangesOnlyStatusAndTheJob
  intro i s t h
  rcases exec_next h with ⟨hb, rfl⟩ | ⟨hb, c, rfl⟩ | ⟨hb, job, ph, _, rfl⟩
  · exact ⟨rfl, rfl, rfl, rfl, fun _ => rfl, rfl, rfl, rfl, rfl, fun _ => rfl, fun hidle => by simp [hb] at hidle⟩
  · exact ⟨rfl, rfl, rfl, rfl, fun _ => rfl, rfl, rfl, rfl, rfl, fun hbusy => by simp [hb] at hbusy, fun _ => rfl⟩
  · exact ⟨rfl, rfl, rfl, rfl, fun _ => rfl, rfl, rfl, rfl, rfl, fun hbusy => by simp [hb] at hbusy, fun _ => rfl⟩

end Sys2Proof.Machine
end

section
/-!
PROOFS. The MEM_ERROR abort (R306, R307): a core step whose access the platform refuses.
-/

namespace Sys2Proof.Machine

theorem coreRead_of_refused {a : Addr} {s : State} {k : Byte → State → State} (h : s.admits a .read = false) :
    coreRead a s k = .next (s.abortMem a) := by
  simp [coreRead, h]

theorem coreWrite_of_refused {a : Addr} {b : Byte} {s : State} {k : State → State} (h : s.admits a .write = false) :
    coreWrite a b s k = .next (s.abortMem a) := by
  simp [coreWrite, h]

/-- A step whose access the platform refuses is the abort at that address. -/
theorem coreStep_of_refused {s : State} {a : Addr} {kind : AccessKind} (hn : s.nextAccess = some (a, kind))
    (hr : s.admits a kind = false) : coreStep s = .next (s.abortMem a) := by
  cases kind with
  | read =>
    obtain ⟨k, hk⟩ := coreStep_eq_coreRead hn
    exact hk.trans (coreRead_of_refused hr)
  | write =>
    obtain ⟨b, k, hk⟩ := coreStep_eq_coreWrite hn
    exact hk.trans (coreWrite_of_refused hr)

/-- Settles O36: the step is the abort, and the core it leaves is idle, so no access follows. -/
theorem refusedAccessAborts : Obligations.RefusedAccessAborts := by
  unfold Obligations.RefusedAccessAborts
  intro s a kind hn hr
  exact ⟨s.abortMem a, coreStep_of_refused hn hr, rfl, coreStep_idle rfl, toWord_cause _, rfl⟩

end Sys2Proof.Machine
end

section
/-!
PROOFS. The busy lock (R350).
-/

namespace Sys2Proof.Machine

section
variable {s : State} (hb : s.regs.status.busy = true)
include hb

/-- R301: whatever the command, its request is dropped. -/
theorem exec_of_busy (i : Instr) : exec i s = .next s.dropWrite := by
  cases i <;> exact request_of_busy hb

theorem writeCmd_of_busy (d : Word) : writeCmd d s = .next s.dropWrite := by
  cases h : decode d with
  | command i => exact (writeCmd_of_command h).trans (exec_of_busy hb i)
  | rejected e => exact writeCmd_of_rejected_busy h hb

theorem writeReg_of_busyLocked {r : WinReg} (hl : r.busyLocked = true) (d : Word) : s.writeReg r d = s.dropWrite :=
  if_pos (by simp [hl, hb])

/-- CMD and the storage registers the host writes are locked alike. -/
theorem portWrite_of_busyLocked {off : BitVec 8} (ho : off.toNat % 4 = 0)
    (hl : (winRegOf (off.toNat / 4)).busyLocked = true) (d : Word) : portWrite 32 off d s = .next s.dropWrite := by
  by_cases hc : winRegOf (off.toNat / 4) = .cmd
  · have h0 : off.toNat / 4 = 0 := winRegOf_eq_cmd hc
    obtain rfl : off = 0x00#8 := BitVec.eq_of_toNat_eq (by simp; omega)
    exact portWrite_cmd.trans (writeCmd_of_busy hb d)
  · rw [portWrite_word ho s hc, writeReg_of_busyLocked hb hl]

end

/-- The write-1-to-clear of STATUS (R23), field by field. -/
theorem Status.clear_eq (st : Status) (d : Word) :
    st.clear d =
      { busy := st.busy
        done := st.done && !d.getLsbD 1
        err := st.err && !d.getLsbD 2
        drop := st.drop && !d.getLsbD 3
        cause := if d.getLsbD 2 then .none else st.cause } := by
  simp only [Status.clear, ite_false_eq_and_not]

/-- Settles O27: a locked write is dropped, and the writes to STATUS and CTRL do not look at BUSY. -/
theorem busyLockDropsWrites : Obligations.BusyLockDropsWrites := by
  unfold Obligations.BusyLockDropsWrites
  intro s d hb
  refine ⟨fun off ho hl => portWrite_of_busyLocked hb ho hl d, ?status, portWrite_ctrl s d⟩
  case status => rw [portWrite_status, State.writeStatus, Status.clear_eq, State.withStatus]

end Sys2Proof.Machine
end

section
/-!
PROOFS. The bound of a batch (R355): the core steps a batch has left at most, and that every step of it stops with Overlap or
brings that number down.
-/

namespace Sys2Proof.Machine

/-! ### The steps a batch has left -/

/-- The core steps of one input, from HM_PTR to HM_NEXT (R355). -/
def Job.inputSteps (job : Job) : Nat := 8 + job.blocks.toNat * (64 + 9) + 32 + 1

/-- The core steps of the inputs after input `i`, and the completion. -/
def Job.stepsAfter (job : Job) (i : Word) : Nat := (job.numInputs.toNat - (i.toNat + 1)) * job.inputSteps + 1

/-- The core steps of the blocks after block `j`, of HM_WRITE and of HM_NEXT. -/
def Job.stepsAfterBlock (job : Job) (j : Word) : Nat := (job.blocks.toNat - (j.toNat + 1)) * (64 + 9) + 32 + 1

/-- The core steps a batch has left when nothing stops it: those of the phase it stands in, those of the input after that phase,
and those after the input. -/
def State.batchStepsLeft (s : State) : Nat :=
  match s.seq.phase with
  | .idle | .compressRun | .xofRun => 0
  | .hmPtr => s.job.inputSteps - s.seq.k.val + s.job.stepsAfter s.seq.i
  | .hmBlock => 64 - s.seq.k.val + 9 + s.job.stepsAfterBlock s.seq.j + s.job.stepsAfter s.seq.i
  | .hmMix => s.stepsLeft + s.job.stepsAfterBlock s.seq.j + s.job.stepsAfter s.seq.i
  | .hmWrite => 32 - s.seq.k.val + 1 + s.job.stepsAfter s.seq.i
  | .hmNext => if s.seq.i < s.job.numInputs then 1 + s.job.stepsAfter s.seq.i else 1

section
variable {s t : State}

theorem batchStepsLeft_of_idle (hp : s.seq.phase = .idle) : s.batchStepsLeft = 0 := by
  simp only [State.batchStepsLeft, hp]

theorem batchStepsLeft_pos (hp : s.seq.phase.ofBatch = true) : 0 < s.batchStepsLeft := by
  cases hph : s.seq.phase with
  | idle | compressRun | xofRun => simp [hph, Phase.ofBatch] at hp
  | hmPtr | hmBlock | hmMix | hmWrite =>
    simp only [State.batchStepsLeft, hph, Job.stepsAfter]
    omega
  | hmNext =>
    simp only [State.batchStepsLeft, hph]
    split <;> omega

/-- With an input to come, the steps after the one before it are its own and those after it. -/
theorem stepsAfter_eq {job : Job} {i : Word} (h : i + 1#32 < job.numInputs) (hi : i < job.numInputs) :
    job.stepsAfter i = job.inputSteps + job.stepsAfter (i + 1#32) := by
  have hs := word_succ_toNat hi
  rw [BitVec.lt_def] at h
  have hcount : job.numInputs.toNat - (i.toNat + 1) = job.numInputs.toNat - (i.toNat + 1 + 1) + 1 := by omega
  simp only [Job.stepsAfter, hs, hcount, Nat.succ_mul]
  omega

/-- Every step of a batch that does not stop brings the steps left down. -/
theorem CoreEffect.batchStepsLeft_lt (hs : s.SequencerLegal) (hp : s.seq.phase.ofBatch = true) (h : CoreEffect s t) :
    t.batchStepsLeft < s.batchStepsLeft := by
  rw [sequencerLegal_iff] at hs
  cases h with
  | idle hp' | compressPipe hp' | compressCommit hp' | xofPipe hp' | xofCommit hp' => simp [hp', Phase.ofBatch] at hp
  | abort | complete =>
    rw [batchStepsLeft_of_idle rfl]
    exact batchStepsLeft_pos hp
  | ptrByte hp hn ha ho hk | blockByte hp hn ha ho hk | writeByte hp hn ha ho hk =>
    have hnext : (s.seq.k + 1).val = s.seq.k.val + 1 := val_cursor_succ (by omega)
    simp only [State.batchStepsLeft, State.withSeq_seq, State.withSeq_job, State.noteRead_job, State.noteWrite_job,
      Job.inputSteps, hp, hnext]
    omega
  | ptrLast hp =>
    rw [hp] at hs
    obtain ⟨⟨-, hblocks⟩, -, hk, -⟩ := hs
    have hpos : 0 < s.job.blocks.toNat := word_pos_of_ne_zero hblocks
    simp only [State.batchStepsLeft, State.withSeq_seq, State.withSeq_job, State.noteRead_job, hp, Job.inputSteps,
      Job.stepsAfterBlock, Fin.val_zero, BitVec.toNat_zero]
    omega
  | blockLast hp =>
    rw [hp] at hs
    obtain ⟨-, -, -, hl⟩ := hs
    simp only [State.batchStepsLeft, State.withSeq_seq, State.withSeq_job, State.noteRead_job, hp, State.stepsLeft, hl,
      Bool.false_eq_true, ↓reduceIte]
    omega
  | mixPipe hp hd =>
    generalize s.flagged.seq.mixInput = x
    have hleft : (s.flagged.pipeStep x).stepsLeft + 1 = s.stepsLeft := stepsLeft_pipeStep x hd
    simp only [State.batchStepsLeft, State.pipeStep_seq_phase, State.pipeStep_seq_i, State.pipeStep_seq_j,
      State.pipeStep_job, State.flagged_seq, State.flagged_job, hp]
    omega
  | mixBlock hp hd hj =>
    rw [hp] at hs
    obtain ⟨-, -, hlt, -⟩ := hs
    have hleft := (pipeDone_iff_stepsLeft s).1 hd
    have hnext := word_succ_toNat hlt
    rw [BitVec.lt_def, hnext] at hj
    simp only [State.batchStepsLeft, State.withSeq_seq, State.withSeq_job, State.flagged_seq, State.flagged_job, hp, hleft,
      Job.stepsAfterBlock, hnext]
    omega
  | mixLast hp hd hj =>
    rw [hp] at hs
    obtain ⟨-, -, -, hk⟩ := hs
    have hleft := (pipeDone_iff_stepsLeft s).1 hd
    simp only [State.batchStepsLeft, State.withSeq_seq, State.withSeq_job, State.flagged_seq, State.flagged_job, hp, hleft,
      Job.stepsAfterBlock, hk]
    omega
  | writeLast hp =>
    rw [hp] at hs
    obtain ⟨-, hi, hk, -⟩ := hs
    simp only [State.batchStepsLeft, State.withSeq_seq, State.withSeq_job, State.noteWrite_job, hp, hi, ↓reduceIte]
    omega
  | nextInput hp hi =>
    simp only [State.batchStepsLeft, State.withSeq_seq, State.withSeq_job, hp, hi, ↓reduceIte]
    by_cases hi' : s.seq.i + 1#32 < s.job.numInputs
    · simp only [hi', ↓reduceIte, stepsAfter_eq hi' hi]
      omega
    · simp only [hi', ↓reduceIte, Job.stepsAfter]
      omega

end

/-! ### The end of a batch -/

/-- The state of an accepted HASH_MANY that has not stopped: it runs, or it has ended. -/
structure BatchState (s : State) : Prop where
  sound : s.StatusSound
  legal : s.SequencerLegal
  job : s.job.op = .hashMany

section
variable {s t : State}

theorem BatchState.idle_or_ofBatch (h : BatchState s) : s.seq.phase = .idle ∨ s.seq.phase.ofBatch = true := by
  have hlegal := (sequencerLegal_iff s).1 h.legal
  cases hp : s.seq.phase with
  | compressRun | xofRun =>
    rw [hp] at hlegal
    cases h.job.symm.trans hlegal.1
  | _ => simp [Phase.ofBatch]

theorem BatchState.of_coreEffect (h : BatchState s) (hp : s.seq.phase.ofBatch = true) (he : CoreEffect s t) :
    BatchState t where
  sound := he.keeps_statusSound h.sound
  legal := he.keeps_sequencerLegal h.legal
  job := by
    obtain ⟨-, hjob, -⟩ := he.keeps_surroundings hp
    rw [hjob, h.job]

/-- The core leaves BUSY, or stops for an overlap, in at most `N` steps. -/
def EndsWithin (N : Nat) (s : State) : Prop :=
  ∃ n, n ≤ N ∧
    ((∃ u, coreRun n s = .next u ∧ u.regs.status.busy = false ∧ u.seq.phase = .idle) ∨ coreRun n s = .fault .overlap)

/-- With the phase IDLE, BUSY is 0 (R300). -/
theorem BatchState.endsWithin_of_idle (h : BatchState s) (hp : s.seq.phase = .idle) (N : Nat) : EndsWithin N s := by
  obtain ⟨-, hagree⟩ := h.sound
  exact ⟨0, Nat.zero_le N, .inl ⟨s, rfl, hagree.1 hp, hp⟩⟩

theorem endsWithin_of_next {N : Nat} (hstep : coreStep s = .next t) (h : EndsWithin N t) : EndsWithin (N + 1) s := by
  obtain ⟨n, hn, hend⟩ := h
  exact ⟨n + 1, Nat.succ_le_succ hn, by rwa [coreRun_succ_of_next hstep]⟩

/-- R355: a batch ends within any number of steps that bounds those it has left. -/
theorem BatchState.endsWithin {N : Nat} (h : BatchState s) (hN : s.batchStepsLeft ≤ N) : EndsWithin N s := by
  induction N generalizing s with
  | zero =>
    rcases h.idle_or_ofBatch with hp | hp
    · exact h.endsWithin_of_idle hp 0
    · exact absurd hN (Nat.not_le_of_gt (batchStepsLeft_pos hp))
  | succ N ih =>
    rcases h.idle_or_ofBatch with hp | hp
    · exact h.endsWithin_of_idle hp (N + 1)
    · cases hstep : coreStep s with
      | next t =>
        have he := coreStep_next hstep
        have hlt := he.batchStepsLeft_lt h.legal hp
        exact endsWithin_of_next hstep (ih (h.of_coreEffect hp he) (by omega))
      | fault e =>
        cases coreStep_fault hstep
        exact ⟨1, Nat.succ_pos N, .inr (by simp only [coreRun, hstep])⟩
      | refused r => exact absurd hstep (coreStep_not_refused s r)

end

/-! ### Acceptance -/

/-- At acceptance (R303, R263) the steps left are the bound of R355. -/
theorem batchStepsLeft_accept (s : State) (job : Job) :
    (s.accept job (if job.numInputs = 0#32 then .hmNext else .hmPtr)).batchStepsLeft =
      batchSteps job.numInputs job.blocks := by
  by_cases hn : job.numInputs = 0#32
  · simp [State.batchStepsLeft, batchSteps, hn]
  · have hpos : 0 < job.numInputs.toNat := word_pos_of_ne_zero hn
    have hcount : job.numInputs.toNat = job.numInputs.toNat - (0 + 1) + 1 := by omega
    simp only [State.batchStepsLeft, State.accept_seq, State.accept_job, hn, ↓reduceIte, Job.stepsAfter, Job.inputSteps,
      BitVec.toNat_zero, Fin.val_zero, batchSteps]
    rw [hcount, Nat.add_sub_cancel, Nat.succ_mul]
    omega

/-- Acceptance reaches a `BatchState`. It overwrites the phase, so the sequencer it starts from may be taken as
idle, and is then legal. -/
theorem batchState_accept {s : State} (hready : s.BatchReady) (inc : Bool) (flags fs fe : Byte) :
    BatchState (s.accept (latchBatch inc flags fs fe s) (if s.regs.numInputs = 0#32 then .hmNext else .hmPtr)) where
  sound := statusSound_accept s _ (by split <;> decide)
  legal :=
    have hidle : (s.withSeq { s.seq with phase := .idle }).SequencerLegal := sequencerLegal_of_idle rfl
    exec_keeps_sequencerLegal hidle
      (exec_hashMany_of_ready (s := s.withSeq { s.seq with phase := .idle }) hready inc flags fs fe)
  job := rfl

/-- Settles O42: the steps left at acceptance are the bound, and every step that does not stop brings them down. -/
theorem hashManyEndsWithinTheBound : Obligations.HashManyEndsWithinTheBound := by
  unfold Obligations.HashManyEndsWithinTheBound
  intro s inc flags fs fe hready
  refine ⟨_, exec_hashMany_of_ready hready inc flags fs fe, rfl, ?batch, ?ends⟩
  case batch =>
    rw [State.accept_seq]
    split <;> rfl
  case ends =>
    exact (batchState_accept hready inc flags fs fe).endsWithin
      (batchStepsLeft_accept s (latchBatch inc flags fs fe s)).le

end Sys2Proof.Machine
end

section
/-!
PROOFS. Reset (R340, R341): the state it leaves, and the invariants that hold there.
-/

namespace Sys2Proof.Machine

/-- Settles O50: the reset state is idle, and system memory and the record of accesses are empty. -/
theorem resetMeetsTheInvariants : Obligations.ResetMeetsTheInvariants := by
  unfold Obligations.ResetMeetsTheInvariants
  obtain ⟨hok, hphase⟩ : State.reset.StatusSound := statusSound_hardReset State.reset
  exact ⟨hok, hphase, ⟨State.reset_mem_wf, addrsRising_nil, addrsRising_nil⟩, sequencerLegal_of_idle rfl,
    counterAgrees_of_not_batch rfl⟩

theorem step_of_reset {s : State} {rest : List Turn} (h : s.turns = .reset :: rest) :
    step s = .next (s.withTurns rest).hardReset :=
  step_of_turns_cons h

theorem toWord_reset : Regs.reset.status.toWord = 0#32 := by decide

/-- Settles O54: the step is the reset event, which clears the validity bit of every register R340 leaves unspecified. -/
theorem resetEventClearsTheCore : Obligations.ResetEventClearsTheCore := by
  unfold Obligations.ResetEventClearsTheCore
  intro s rest h
  have hclear := fun r => regWritten_hardReset (s.withTurns rest) (r := r)
  refine ⟨_, step_of_reset h, toWord_reset, rfl, rfl, rfl, rfl, rfl, rfl, ?cv, ?blk, ?res,
    rfl, rfl, rfl, rfl, rfl, rfl, rfl, rfl, rfl, rfl, rfl, rfl, rfl, rfl⟩
  case cv => exact fun k => hclear (.cv k) (.inl ⟨rfl, by simp⟩)
  case blk => exact fun k => hclear (.blk k) (.inl ⟨rfl, by simp⟩)
  case res => exact fun k => hclear (.res k) (.inr ⟨k, rfl⟩)

end Sys2Proof.Machine
end
